-- ==== Sys2Proof/Word.lean ====
section
/-! DEFINITION. The word type of the block, the three word widths, and the plainest arithmetic on them
(00_scope.md R2, R6, R7). -/

namespace Sys2Proof

/-- A W-bit word of storage, of EXT_IN or of FLUSH_OUT (R22, R32, R33), held in the low W bits of the widest
width, 32: one type serves the three widths, and the bits above W are 0 in every reachable state (R5, R22). -/
abbrev Word := BitVec 32

/-- An interface register: CMD, ARG0 to ARG2, DATA, RESULT, each 32 bits wide (R26 to R29). -/
abbrev Reg := BitVec 32

/-- The word widths the block is built with: "W = 8, W = 16 and W = 32 bits" (R2); no other exists. -/
inductive Width where
  | w8
  | w16
  | w32
deriving DecidableEq, Repr

/-- The number W of bits of a word (R2, R5). -/
def Width.bits : Width → Nat
  | .w8 => 8
  | .w16 => 16
  | .w32 => 32

/-- `ceil(n / W)`: how many W-bit words hold n bits (R7, R32). -/
def wordsFor (n W : Nat) : Nat := (n + W - 1) / W

end Sys2Proof
end

