-- ==== Sys2Proof/Syntax.lean ====
section
/-! DEFINITION. The commands of the block, one constructor per row of the opcode table (30_encoding.md R62). A command's
operands stand in the instance's registers, not in the command (R65); only the fields N and SRC of the command
word are part of it (R61, R63, R64). -/

namespace Sys2Proof

/-- A command. `n` is the 6-bit field N, the bit count of the word commands; `src` is the 3-bit field SRC, the
source instance of the stream copies. -/
inductive Instr where
  | getBit
  | setBit
  | clearBit
  | readWordIdx (n : BitVec 6)
  | readWordCur (n : BitVec 6)
  | writeWordIdx (n : BitVec 6)
  | writeWordCur (n : BitVec 6)
  | writeBufferIdx
  | writeBufferCur
  | writeStreamII (src : BitVec 3)
  | writeStreamCI (src : BitVec 3)
  | writeStreamCC (src : BitVec 3)
  | doubleCapacity
  | advance
  | retreat
  | seek
  | position
  | capacityBits
  | flush
deriving DecidableEq, Repr

end Sys2Proof
end

