-- ==== Sys2Proof/Decode.lean ====
section
/-! DEFINITION. The decoder of a CMD value and the encoder, both from the command word format and the opcode map
(30_encoding.md R61, R62, R66). -/

namespace Sys2Proof

/-- Why a CMD value encodes no command; each of them completes with ILLEGAL_COMMAND (R66, R67). -/
inductive DecodeError where
  /-- A bit of RSV [31:14] is set (R61). -/
  | reservedBits
  /-- OP is 0x00 or from 0x14 to 0x1F (R62). -/
  | reservedOpcode
  /-- N is not 0 in a command that has no bit count (R63). -/
  | countNotZero
  /-- SRC is not 0 in a command that has no source instance (R64). -/
  | sourceNotZero
deriving DecidableEq, Repr

/-- OP [4:0] (R61). -/
def opField (c : BitVec 32) : BitVec 5 := c.extractLsb' 0 5

/-- N [10:5] (R61). -/
def nField (c : BitVec 32) : BitVec 6 := c.extractLsb' 5 6

/-- SRC [13:11] (R61). -/
def srcField (c : BitVec 32) : BitVec 3 := c.extractLsb' 11 3

/-- RSV [31:14] (R61). -/
def rsvField (c : BitVec 32) : BitVec 18 := c.extractLsb' 14 18

/-- A command with neither field: N and SRC must be 0 (R63, R64). -/
def decodePlain (i : Instr) (n : BitVec 6) (src : BitVec 3) : Except DecodeError Instr :=
  if n ≠ 0 then .error .countNotZero
  else if src ≠ 0 then .error .sourceNotZero
  else .ok i

/-- A command with the field N: SRC must be 0 (R64). Whether N is legal depends on W and is the command's check. -/
def decodeCounted (i : BitVec 6 → Instr) (n : BitVec 6) (src : BitVec 3) : Except DecodeError Instr :=
  if src ≠ 0 then .error .sourceNotZero else .ok (i n)

/-- A command with the field SRC: N must be 0 (R63). Whether SRC is legal depends on NUM_INST and is the
command's check. -/
def decodeSourced (i : BitVec 3 → Instr) (n : BitVec 6) (src : BitVec 3) : Except DecodeError Instr :=
  if n ≠ 0 then .error .countNotZero else .ok (i src)

/-- The opcode map (R62). -/
def decodeOp (op : Nat) (n : BitVec 6) (src : BitVec 3) : Except DecodeError Instr :=
  match op with
  | 0x01 => decodePlain .getBit n src
  | 0x02 => decodePlain .setBit n src
  | 0x03 => decodePlain .clearBit n src
  | 0x04 => decodeCounted .readWordIdx n src
  | 0x05 => decodeCounted .readWordCur n src
  | 0x06 => decodeCounted .writeWordIdx n src
  | 0x07 => decodeCounted .writeWordCur n src
  | 0x08 => decodePlain .writeBufferIdx n src
  | 0x09 => decodePlain .writeBufferCur n src
  | 0x0A => decodeSourced .writeStreamII n src
  | 0x0B => decodeSourced .writeStreamCI n src
  | 0x0C => decodeSourced .writeStreamCC n src
  | 0x0D => decodePlain .doubleCapacity n src
  | 0x0E => decodePlain .advance n src
  | 0x0F => decodePlain .retreat n src
  | 0x10 => decodePlain .seek n src
  | 0x11 => decodePlain .position n src
  | 0x12 => decodePlain .capacityBits n src
  | 0x13 => decodePlain .flush n src
  | _ => .error .reservedOpcode

/-- R66's Decode, as far as it depends on the CMD value alone: total, and every value that is no command is
refused by name. The two checks that need the configuration (1 ≤ N ≤ W, SRC < NUM_INST) and the HALTED check
are made by the commands (Machine/Ops.lean `command`); all of them complete with the code R66 gives. -/
def decode (c : BitVec 32) : Except DecodeError Instr :=
  if rsvField c ≠ 0 then .error .reservedBits
  else decodeOp (opField c).toNat (nField c) (srcField c)

/-- The OP of each command (R62). -/
def Instr.opcode : Instr → BitVec 5
  | .getBit => 0x01
  | .setBit => 0x02
  | .clearBit => 0x03
  | .readWordIdx _ => 0x04
  | .readWordCur _ => 0x05
  | .writeWordIdx _ => 0x06
  | .writeWordCur _ => 0x07
  | .writeBufferIdx => 0x08
  | .writeBufferCur => 0x09
  | .writeStreamII _ => 0x0A
  | .writeStreamCI _ => 0x0B
  | .writeStreamCC _ => 0x0C
  | .doubleCapacity => 0x0D
  | .advance => 0x0E
  | .retreat => 0x0F
  | .seek => 0x10
  | .position => 0x11
  | .capacityBits => 0x12
  | .flush => 0x13

/-- The N of each command: its bit count, or 0 (R63). -/
def Instr.countField : Instr → BitVec 6
  | .readWordIdx n => n
  | .readWordCur n => n
  | .writeWordIdx n => n
  | .writeWordCur n => n
  | _ => 0

/-- The SRC of each command: its source instance, or 0 (R64). -/
def Instr.sourceField : Instr → BitVec 3
  | .writeStreamII src => src
  | .writeStreamCI src => src
  | .writeStreamCC src => src
  | _ => 0

/-- "As a pattern, most significant bit first: `000000000000000000 sss nnnnnn ooooo`" (R61). -/
def encode (i : Instr) : BitVec 32 := 0#18 ++ i.sourceField ++ i.countField ++ i.opcode

/-- The command my decoder reads from the table's word. A command is one 32-bit CMD word (R68), so the word is
the table's number itself. -/
def decodeTableWord (nbits w : Nat) : Option Instr :=
  match decode (BitVec.ofNat 32 (w % 2 ^ nbits)) with
  | .ok i => some i
  | .error _ => none

end Sys2Proof
end

