-- ==== Sys2Proof/Config.lean ====
section
/-! DEFINITION. The implementation parameters (00_scope.md R5; 93_implementation_defined.md PAR1 to PAR6): fixed for
a machine, never changed by a step. They are plain data that State carries, so that a statement about every state is a
statement about every configuration. The spec leaves no result value open, so there is no free value here. -/

namespace Sys2Proof

/-- The parameters one instance has of its own (R5). -/
structure InstConfig where
  /-- CAP_MAX: "physical storage size of one instance, in words". -/
  capMax : Nat
  /-- INIT_HINT_BITS: the "initial bit-capacity hint applied at reset". -/
  initHintBits : Nat
  /-- EXT_IN_DEPTH: "host side only, no rule depends on it" (R5, R32); the model's EXT_IN is unbounded. -/
  extInDepth : Nat
deriving DecidableEq, Repr

/-- The parameters of a system. The instances are numbered by their place in the list, which is INST_ID; NUM_INST
is the list's length. One width serves the whole system: "All instances of one system have the same W" (R21). -/
structure Config where
  width : Width
  insts : List InstConfig
deriving DecidableEq, Repr

/-- W, the word width in bits (R5). -/
def Config.W (c : Config) : Nat := c.width.bits

/-- NUM_INST (R5). -/
def Config.numInst (c : Config) : Nat := c.insts.length

/-- CAP_MAX of instance k; an instance that does not exist has no storage. -/
def Config.capMax (c : Config) (k : Nat) : Nat :=
  match c.insts[k]? with
  | some p => p.capMax
  | none => 0

/-- The capacity of an instance after reset: `max(1, ceil(INIT_HINT_BITS / W))` (R23, R230; D6). -/
def InstConfig.resetCapacity (p : InstConfig) (W : Nat) : Nat := max 1 (wordsFor p.initHintBits W)

/-- The limits R5 sets on one instance's parameters at width W. -/
abbrev InstConfig.Valid (p : InstConfig) (W : Nat) : Prop :=
  1 ≤ p.capMax ∧ p.capMax * W ≤ 2 ^ 32 - 1 ∧ p.resetCapacity W ≤ p.capMax ∧ 1 ≤ p.extInDepth

/-- A valid configuration (R5, R230, U12). One that is not valid is refused by every step. -/
abbrev Config.Valid (c : Config) : Prop :=
  1 ≤ c.numInst ∧ c.numInst ≤ 8 ∧ ∀ p ∈ c.insts, p.Valid c.W

/-- DESIGN CHOICE (notes/assumptions/1.md): the configuration of `State.reset`, the one the test vectors of
95_test_vectors.md take unless they say otherwise, at the widest W. -/
def Config.reference : Config :=
  { width := .w32
    insts := [{ capMax := 64, initHintBits := 0, extInDepth := 64 },
              { capMax := 64, initHintBits := 0, extInDepth := 64 }] }

end Sys2Proof
end

