-- ==== Sys2Proof/Machine/State.lean ====
section
/-! DEFINITION. The state of the system (10_state.md R20 to R37), as plain data: one record per instance, the host's
pending actions, the host's record of what it saw, the reasons a step stops, and the state after reset (R230). -/

namespace Sys2Proof.Machine

/-- One storage word at its word index. The unit is the W-bit word, the unit of `MemRead` and `MemWrite` (R8, R22);
the block has no bytes ("Byte order never arises inside the block", R42). -/
abbrev Cell := Nat × Word

/-- The storage `words` of one instance (R22): the words that are not 0, by rising word index. A word that is not
listed reads 0, the reset contents of storage ("every word 0", R22, R37). -/
abbrev Memory := List Cell

/-- The one canonical form of a storage: word indices strictly rising, and no listed word is 0. -/
abbrev Memory.wf (m : Memory) : Prop :=
  List.Pairwise (fun a b => a.1 < b.1) m ∧ ∀ c ∈ m, c.2 ≠ 0

/-- The completion codes (R200). "Codes 7 to 15 are never produced", so there are no others. -/
inductive Code where
  | ok
  | outOfRange
  | srcRangeExceeded
  | allocFailure
  | illegalCommand
  | aliasedCopy
  | halted
deriving DecidableEq, Repr

/-- Register STATUS (R30): the fields that can change. BUSY always reads 0 in a model and bits [31:6] are hardwired 0,
so both are made by the one operation that reads the register (Machine/Flags.lean `Status.word`). -/
structure Status where
  /-- STATUS.CODE, the completion code of the last command. -/
  code : Code
  /-- STATUS.FATAL, sticky until reset (R31). -/
  fatal : Bool
deriving DecidableEq, Repr

/-- The state of one instance: the tuple of R20. -/
structure Inst where
  /-- Storage (R22). -/
  words : Memory
  /-- Number of words allocated (R23). -/
  capacity : Nat
  /-- Bit offset of the cursor (R24). -/
  cursor : Nat
  /-- CMD, the value the host wrote last (R26). -/
  cmd : Reg
  /-- ARG0 (R27). -/
  arg0 : Reg
  /-- ARG1 (R27). -/
  arg1 : Reg
  /-- ARG2 (R27). -/
  arg2 : Reg
  /-- DATA (R28). -/
  data : Reg
  /-- RESULT (R29). -/
  result : Reg
  /-- STATUS (R30, R31). -/
  status : Status
  /-- EXT_IN, the word to be popped next first; unbounded (R32). -/
  extIn : List Word
deriving DecidableEq, Repr

/-- The host-visible registers of an instance (R26 to R30, R213). -/
inductive HostReg where
  | cmd
  | arg0
  | arg1
  | arg2
  | data
  | result
  | status
deriving DecidableEq, Repr

/-- What the host can do to the system (R26 to R32, R60, R230). The instance is named by its INST_ID `k`. -/
inductive HostAction where
  /-- Write a register; a write to CMD issues a command (R26). -/
  | write (k : Nat) (r : HostReg) (v : Reg)
  /-- Push one word on EXT_IN (R32). -/
  | push (k : Nat) (w : Word)
  /-- Read a register (R26 to R30). -/
  | read (k : Nat) (r : HostReg)
  /-- Reset one instance (R230). -/
  | reset (k : Nat)
  /-- "A system reset resets every instance at once" (R230). -/
  | systemReset
deriving DecidableEq, Repr

/-- What a run shows the host (R33, R247). -/
inductive Event where
  /-- A command of instance k ended with a completion code. -/
  | completed (k : Nat) (c : Code)
  /-- FLUSH of instance k delivered its old store on FLUSH_OUT, word 0 first (R33, R56). -/
  | flushOut (k : Nat) (ws : List Word)
  /-- The host read a register of instance k. -/
  | registerRead (k : Nat) (r : HostReg) (v : Reg)
deriving DecidableEq, Repr

/-- The state of the system. `cfg` and `insts` are the hardware's: its parameters (R5) and one tuple per instance
(R20). The other fields are the model's own: the host is outside the block and a step takes no input, so what the
host does next, which command it is executing and what it has seen stand here as plain data (R240, R247). -/
structure State where
  /-- The parameters; no step changes them (R5). -/
  cfg : Config
  /-- The instances by INST_ID (R20). -/
  insts : List Inst
  /-- The instance the last command was issued to: a command executes there (R69's `@i:`). -/
  active : Nat
  /-- A WRITE_BUFFER that has been issued to `active` and awaits words on EXT_IN (R141, R244). -/
  waiting : Option Instr
  /-- The actions the host takes next, in order (R240). -/
  host : List HostAction
  /-- What the host has seen, oldest first (R33, R247). -/
  obs : List Event
deriving DecidableEq, Repr

/-- Why the machine stops. -/
inductive Fault where
  /-- A host action, or the executing command, names an instance that does not exist: raised by every operation that
  looks an instance up. The spec numbers instances from 0 to NUM_INST - 1 only (R20). SAFE: the run stops. -/
  | noSuchInstance
  /-- A WRITE_BUFFER has fewer words on EXT_IN than it needs and the host's next action is not one that lets it go on:
  raised by the step of a waiting command. "the command waits forever" and "the whole system is stuck" (R244, U6).
  SAFE: the spec's own stuck state, from which there is no further step. -/
  | stuckAwaitingExtIn
deriving DecidableEq, Repr

/-- Why the model gives no meaning. -/
inductive Refusal where
  /-- A command the model gives no meaning, by its mnemonic: raised by no arm of exec, all are modelled. SAFE. -/
  | notModelled (mnemonic : String)
  /-- The configuration breaks a limit of R5: raised by every step. "A configuration that breaks this is not a valid
  configuration, and a model refuses it" (R230, U12). SAFE: nothing runs. -/
  | invalidConfiguration
deriving DecidableEq, Repr

/-- The reset values of one instance (R37, R230). -/
def Inst.reset (W : Nat) (p : InstConfig) : Inst :=
  { words := []
    capacity := p.resetCapacity W
    cursor := 0
    cmd := 0
    arg0 := 0
    arg1 := 0
    arg2 := 0
    data := 0
    result := 0
    status := { code := .ok, fatal := false }
    extIn := [] }

/-- The system of a configuration right after a system reset (R230), with no host action pending and nothing seen. -/
def State.resetWith (c : Config) : State :=
  { cfg := c
    insts := c.insts.map (Inst.reset c.W)
    active := 0
    waiting := none
    host := []
    obs := [] }

/-- The machine right after reset. DESIGN CHOICE (notes/assumptions/1.md): its parameters are those of
`Config.reference`; `State.resetWith` is the same for every configuration. -/
def State.reset : State := State.resetWith Config.reference

end Sys2Proof.Machine
end

