-- ==== Sys2Proof/Machine/Flags.lean ====
section
/-! DEFINITION. The status register: the numbers of the completion codes, the word the host reads, and what the end of
a command writes (10_state.md R30, R31; 60_exceptions.md R200, R206). The block has no other flags (R34). -/

namespace Sys2Proof.Machine

/-- The number of a completion code (R200). -/
def Code.value : Code → Nat
  | .ok => 0
  | .outOfRange => 1
  | .srcRangeExceeded => 2
  | .allocFailure => 3
  | .illegalCommand => 4
  | .aliasedCopy => 5
  | .halted => 6

/-- Only ALLOC_FAILURE is fatal (R200, R206). -/
def Code.isFatal : Code → Bool
  | .allocFailure => true
  | .ok => false
  | .outOfRange => false
  | .srcRangeExceeded => false
  | .illegalCommand => false
  | .aliasedCopy => false
  | .halted => false

/-- STATUS as the host reads it (R30): CODE in [3:0], FATAL in [4], BUSY [5] reads 0, and [31:6] are hardwired 0. -/
def Status.word (st : Status) : Reg :=
  BitVec.ofNat 32 (st.code.value + (if st.fatal then 16 else 0))

/-- The end of a command writes CODE; FATAL is set by ALLOC_FAILURE and is sticky (R30, R31). -/
def Status.ended (st : Status) (c : Code) : Status :=
  { code := c, fatal := st.fatal || c.isFatal }

end Sys2Proof.Machine
end

