-- ==== Sys2Proof/Machine/Operands.lean ====
section
/-! DEFINITION. Operands: the legal field values a command checks, the values it takes from its registers, and the
host's access to the registers (30_encoding.md R63 to R65; 10_state.md R26 to R30). -/

namespace Sys2Proof.Machine

/-- W of the system (R5). -/
def State.W (s : State) : Nat := s.cfg.W

/-- CAP_MAX of the executing instance (R5). -/
def State.capMax (s : State) : Nat := s.cfg.capMax s.active

/-- N as the bit count n: "used as-is: not scaled, not biased, not sign-extended" (R63). -/
abbrev countOf (n : BitVec 6) : Nat := n.toNat

/-- "Legal values are 1 ≤ N ≤ W" (R63). -/
def countLegal (s : State) (n : BitVec 6) : Bool := decide (1 ≤ countOf n ∧ countOf n ≤ s.W)

/-- SRC as an INST_ID (R64). -/
abbrev sourceOf (src : BitVec 3) : Nat := src.toNat

/-- "SRC ≥ NUM_INST completes with ILLEGAL_COMMAND" (R64). -/
def sourceLegal (s : State) (src : BitVec 3) : Bool := decide (sourceOf src < s.cfg.numInst)

/-- ARG0 as an operand: an exact unsigned integer, never sign-extended, scaled or shifted (R65). -/
abbrev Inst.argument0 (x : Inst) : Nat := x.arg0.toNat

/-- ARG1 as an operand (R65). -/
abbrev Inst.argument1 (x : Inst) : Nat := x.arg1.toNat

/-- ARG2 as an operand (R65). -/
abbrev Inst.argument2 (x : Inst) : Nat := x.arg2.toNat

/-- The number of addressable bits, `capacity × W`, exact (R7, R23). -/
abbrev Inst.bits (x : Inst) (W : Nat) : Nat := x.capacity * W

/-- A value in RESULT, zero-extended to 32 bits (R29). -/
abbrev resultOf (v : Nat) : Reg := BitVec.ofNat 32 v

/-- A host read of a register (R26 to R30). -/
def Inst.readReg (x : Inst) : HostReg → Reg
  | .cmd => x.cmd
  | .arg0 => x.arg0
  | .arg1 => x.arg1
  | .arg2 => x.arg2
  | .data => x.data
  | .result => x.result
  | .status => x.status.word

/-- A host write of a register. RESULT and STATUS are read-only: "a host write is ignored" (R29, R30). A write to CMD
also issues a command, which Machine/Issue.lean adds (R26). -/
def Inst.writeReg (x : Inst) (r : HostReg) (v : Reg) : Inst :=
  match r with
  | .cmd => { x with cmd := v }
  | .arg0 => { x with arg0 := v }
  | .arg1 => { x with arg1 := v }
  | .arg2 => { x with arg2 := v }
  | .data => { x with data := v }
  | .result => x
  | .status => x

end Sys2Proof.Machine
end

