-- ==== Sys2Proof/Machine/Ops.lean ====
section
/-! DEFINITION. The named operations over storage and registers: reading and writing storage words, growth, ending a
command with a completion code, and the frame every command runs in (20_memory.md; 60_exceptions.md; 30_encoding.md R66).

ERRORS. The block takes no traps: "An error is the completion code of the command that caused it" (R208), and there is
no return from one (R209). `raise` below is that one shared operation. -/

namespace Sys2Proof.Machine

/-- The result of a meaning. -/
abbrev Result := Host.Outcome State Fault Refusal

/-! ### Storage -/

/-- `MemRead(j, 1)`: storage word j (R8). A word that is not listed is 0 (R22, R43). -/
def Memory.read : Memory → Nat → Word
  | [], _ => 0
  | c :: rest, j => if c.1 = j then c.2 else Memory.read rest j

/-- `MemWrite(j, 1, v)` (R8). Writing 0 takes the word off the list, so that equal storages are equal data. -/
def Memory.write : Memory → Nat → Word → Memory
  | [], j, v => if v = 0 then [] else [(j, v)]
  | c :: rest, j, v =>
    if j < c.1 then (if v = 0 then c :: rest else (j, v) :: c :: rest)
    else if j = c.1 then (if v = 0 then rest else (j, v) :: rest)
    else c :: Memory.write rest j v

/-- "`Bit(i) = words[i div W][i mod W]`" (R41). -/
def Memory.bit (W : Nat) (m : Memory) (i : Nat) : Bool := (m.read (i / W)).getLsbD (i % W)

/-! ### Growth -/

/-- The least doubling of `cap` that holds R bits: the source's "`while required_bits > capacity*W: double()`"
(R47), at most `fuel` tests; none if they do not suffice. -/
def doubledUntil (W R : Nat) : Nat → Nat → Option Nat
  | 0, _ => none
  | fuel + 1, cap => if R ≤ cap * W then some cap else doubledUntil W R fuel (cap * 2)

/-- The capacity after `Grow(R)`, or none where `GrowFails(R)` (R47). `log2 R + 2` tests suffice from any capacity
of at least one word, because `2 ^ (log2 R + 1) > R`. -/
def grownCapacity (W capMax cap R : Nat) : Option Nat :=
  if R ≤ cap * W then some cap
  else
    match doubledUntil W R (Nat.log2 R + 2) cap with
    | some c => if c ≤ capMax then some c else none
    | none => none

/-! ### The end of a command -/

/-- Replace instance k. -/
def State.setInst (s : State) (k : Nat) (x : Inst) : State := { s with insts := s.insts.set k x }

/-- Append to what the host has seen (R33, R247). -/
def State.observe (s : State) (e : Event) : State := { s with obs := s.obs ++ [e] }

/-- The executing instance ends its command as x, with a completion code (R200). -/
def State.ended (s : State) (x : Inst) (c : Code) : State :=
  (s.setInst s.active { x with status := x.status.ended c }).observe (.completed s.active c)

/-- `raise <Code>`: the command ends with a completion code and nothing else changes but FATAL for ALLOC_FAILURE (R203,
R206). x is the executing instance as the command found it. -/
def raise (c : Code) (x : Inst) (s : State) : Result := .next (s.ended x c)

/-- `complete`: the command ends with OK and leaves the executing instance as x (R8, R200). -/
def complete (x : Inst) (s : State) : Result := .next (s.ended x .ok)

/-- What R66 does before the rule of a command: the HALTED check first, then the check of its fields (R205). The body
takes the executing instance. -/
def command (legal : Bool) (s : State) (body : Inst → Result) : Result :=
  match s.insts[s.active]? with
  | none => .fault .noSuchInstance
  | some x =>
    if x.status.fatal then raise .halted x s
    else if legal then body x
    else raise .illegalCommand x s

/-! ### Steps the rules of the commands share -/

/-- `Grow(R)` of the executing instance x: the body takes it with its new capacity; where growth fails the command ends
with ALLOC_FAILURE (R47). "new words are already 0", so nothing else is written (R43). -/
def growing (R : Nat) (x : Inst) (s : State) (body : Inst → Result) : Result :=
  match grownCapacity s.W s.capMax x.capacity R with
  | none => raise .allocFailure x s
  | some c => body { x with capacity := c }

/-- `await length(EXT_IN) >= q` and `pop q words`: the body takes the words and x without them. With fewer words the
command i waits and nothing changes (R141, R244). -/
def popping (i : Instr) (q : Nat) (x : Inst) (s : State) (body : List Word → Inst → Result) : Result :=
  if x.extIn.length < q then .next { s with waiting := some i }
  else body (x.extIn.take q) { x with extIn := x.extIn.drop q }

/-- The source instance of a stream copy (R35, R150). -/
def withSource (src : BitVec 3) (s : State) (body : Inst → Result) : Result :=
  match s.insts[sourceOf src]? with
  | none => .fault .noSuchInstance
  | some y => body y

/-- `StreamCheck(src, s, n)` (R150): the three checks in their order. x is the executing instance, y the source. -/
def streamCheck (src : BitVec 3) (y : Inst) (start n : Nat) (x : Inst) (s : State) (body : Result) : Result :=
  if sourceOf src = s.active then raise .aliasedCopy x s
  else if n = 0 then complete x s
  else if y.bits s.W < start + n then raise .srcRangeExceeded x s
  else body

end Sys2Proof.Machine
end

