-- ==== Sys2Proof/Machine/Datapath.lean ====
section
/-! DEFINITION. The masks and the datapaths: extractor, compositor, bulk write and stream copy (40_bit_access.md R80 to
R82; 41_word_extract.md R100; 42_word_compose.md R120; 43_bulk_transfer.md R140, R154). -/

namespace Sys2Proof.Machine

/-! ### Masks -/

/-- `lowmask(n) = 2^n - 1`, for n ≤ W (R80). It is not made by a shift of a word, so that `lowmask(W)` is all ones. -/
def lowmask (n : Nat) : Word := BitVec.ofNat 32 (2 ^ n - 1)

/-- `bitmask(k) = 2^k`, for k < W (R81). -/
def bitmask (k : Nat) : Word := BitVec.ofNat 32 (2 ^ k)

/-- `a << s` on a W-bit word: "`(a × 2^s) mod 2^W`" (R7). -/
def shiftLeftW (W : Nat) (a : Word) (s : Nat) : Word := (a <<< s) &&& lowmask W

/-- `NOT m` is `m XOR (2^W - 1)` (R7). -/
def notW (W : Nat) (m : Word) : Word := m ^^^ lowmask W

/-- `spanmask(off, n) = (lowmask(n) << off) AND lowmask(W)` (R82). -/
def spanmask (W off n : Nat) : Word := shiftLeftW W (lowmask n) off &&& lowmask W

/-- `highmask(off) = lowmask(W) XOR lowmask(off)` (R82). -/
def highmask (W off : Nat) : Word := lowmask W ^^^ lowmask off

/-- "clear those bits in the destination word(s) via `AND NOT mask`, then `OR` in the shifted data restricted to the
mask" (R120). -/
def blend (W : Nat) (old mask new : Word) : Word := (old &&& notW W mask) ||| (new &&& mask)

/-! ### Extractor and compositor -/

/-- `Extract(start, n)` (R100), with the write-symmetric end offset (R9, R104). -/
def extract (W : Nat) (m : Memory) (start n : Nat) : Word :=
  let k := start / W
  let off := start % W
  let e := (start + n - 1) % W
  if off = 0 then m.read k &&& lowmask n
  else if off ≤ e then (m.read k >>> off) &&& lowmask n
  else ((m.read k >>> off) ||| shiftLeftW W (m.read (k + 1)) (W - off)) &&& lowmask n

/-- `Splice(start, data, n)` (R120). -/
def splice (W : Nat) (m : Memory) (start : Nat) (data : Word) (n : Nat) : Memory :=
  let k := start / W
  let off := start % W
  let e := (start + n - 1) % W
  let d := data &&& lowmask n
  if off = 0 then m.write k (blend W (m.read k) (lowmask n) d)
  else if off ≤ e then m.write k (blend W (m.read k) (spanmask W off n) (shiftLeftW W d off))
  else
    let m0 := m.write k (blend W (m.read k) (highmask W off) (shiftLeftW W d off))
    m0.write (k + 1) (blend W (m0.read (k + 1)) (lowmask (n - (W - off))) (d >>> (W - off)))

/-! ### Bulk transfers -/

/-- Fast path of R140: whole words stored from word k up. -/
def storeWords (m : Memory) (k : Nat) : List Word → Memory
  | [] => m
  | w :: ws => storeWords (m.write k w) (k + 1) ws

/-- Slow path of R140: every word spliced, W bits apart, from bit `start` up. -/
def spliceWords (W : Nat) (m : Memory) (start : Nat) : List Word → Memory
  | [] => m
  | w :: ws => spliceWords W (splice W m start w W) (start + W) ws

/-- `BulkWrite(start, e, n)` (R140). -/
def bulkWrite (W : Nat) (m : Memory) (start : Nat) (e : List Word) (n : Nat) : Memory :=
  let q0 := n / W
  let r := n % W
  let whole := if start % W = 0 then storeWords m (start / W) (e.take q0) else spliceWords W m start (e.take q0)
  if r = 0 then whole else splice W whole (start + q0 * W) (e.getD q0 0) r

/-- Step (4) of R154: `count` whole source words from source word k, spliced from destination bit d up. -/
def copyWords (W : Nat) (src : Memory) : Nat → Memory → Nat → Nat → Memory
  | 0, m, _, _ => m
  | count + 1, m, d, k => copyWords W src count (splice W m d (src.read k) W) (d + W) (k + 1)

/-- `StreamCopy(d, s, n)` (R154): prefix, whole source words, remainder. -/
def streamCopy (W : Nat) (m src : Memory) (d s n : Nat) : Memory :=
  let p := min n ((W - s % W) % W)
  let m1 := if p = 0 then m else splice W m d (extract W src s p) p
  let d1 := d + p
  let s1 := s + p
  let rest := n - p
  let m2 := copyWords W src (rest / W) m1 d1 (s1 / W)
  let r := rest % W
  if r = 0 then m2
  else splice W m2 (d1 + rest / W * W) (src.read (s1 / W + rest / W) &&& lowmask r) r

/-- The words FLUSH delivers: "`capacity` such words", word 0 first (R56, R180). -/
def deliveredWords (x : Inst) : List Word := (List.range x.capacity).map x.words.read

end Sys2Proof.Machine
end

