-- ==== Sys2Proof/Machine/BitAccess.lean ====
section
/-! DEFINITION. GET_BIT, SET_BIT and CLEAR_BIT (40_bit_access.md R83 to R85). "these three do not grow the buffer". -/

namespace Sys2Proof.Machine

/-- GET_BIT (R83). -/
def execGetBit (s : State) : Result :=
  command true s fun x =>
    let idx := x.argument0
    if x.bits s.W ≤ idx then raise .outOfRange x s
    else
      complete { x with result := (x.words.read (idx / s.W) >>> (idx % s.W)) &&& 1 } s

/-- SET_BIT (R84). -/
def execSetBit (s : State) : Result :=
  command true s fun x =>
    let idx := x.argument0
    if x.bits s.W ≤ idx then raise .outOfRange x s
    else
      complete { x with words := x.words.write (idx / s.W) (x.words.read (idx / s.W) ||| bitmask (idx % s.W)) } s

/-- CLEAR_BIT (R85). -/
def execClearBit (s : State) : Result :=
  command true s fun x =>
    let idx := x.argument0
    if x.bits s.W ≤ idx then raise .outOfRange x s
    else
      complete
        { x with words := x.words.write (idx / s.W) (x.words.read (idx / s.W) &&& notW s.W (bitmask (idx % s.W))) } s

end Sys2Proof.Machine
end

