-- ==== Sys2Proof/Machine/BulkTransfer.lean ====
section
/-! DEFINITION. WRITE_BUFFER in its two forms and WRITE_STREAM in its three (43_bulk_transfer.md R141, R142, R150 to
R155). -/

namespace Sys2Proof.Machine

/-- WRITE_BUFFER_IDX (R141). The growth check comes before the wait; growth itself takes effect with the transfer. -/
def execWriteBufferIdx (s : State) : Result :=
  command true s fun x =>
    let start := x.argument0
    let n := x.argument1
    if n = 0 then complete x s
    else
      growing (start + n) x s fun x =>
        popping .writeBufferIdx (wordsFor n s.W) x s fun e x =>
          complete { x with words := bulkWrite s.W x.words start e n } s

/-- WRITE_BUFFER_CUR (R142). -/
def execWriteBufferCur (s : State) : Result :=
  command true s fun x =>
    let start := x.cursor
    let n := x.argument1
    if n = 0 then complete x s
    else
      growing (start + n) x s fun x =>
        popping .writeBufferCur (wordsFor n s.W) x s fun e x =>
          complete { x with words := bulkWrite s.W x.words start e n, cursor := start + n } s

/-- WRITE_STREAM_II (R151). -/
def execWriteStreamII (src : BitVec 3) (s : State) : Result :=
  command (sourceLegal s src) s fun x =>
    withSource src s fun y =>
      let d := x.argument0
      let start := x.argument1
      let n := x.argument2
      streamCheck src y start n x s <|
        growing (d + n) x s fun x =>
          complete { x with words := streamCopy s.W x.words y.words d start n } s

/-- WRITE_STREAM_CI (R152). -/
def execWriteStreamCI (src : BitVec 3) (s : State) : Result :=
  command (sourceLegal s src) s fun x =>
    withSource src s fun y =>
      let d := x.cursor
      let start := x.argument1
      let n := x.argument2
      streamCheck src y start n x s <|
        growing (d + n) x s fun x =>
          complete { x with words := streamCopy s.W x.words y.words d start n, cursor := d + n } s

/-- WRITE_STREAM_CC (R153): the source's cursor advances too (R155); nothing else of the source changes (R35). -/
def execWriteStreamCC (src : BitVec 3) (s : State) : Result :=
  command (sourceLegal s src) s fun x =>
    withSource src s fun y =>
      let d := x.cursor
      let start := y.cursor
      let n := x.argument2
      streamCheck src y start n x s <|
        growing (d + n) x s fun x =>
          complete { x with words := streamCopy s.W x.words y.words d start n, cursor := d + n }
            (s.setInst (sourceOf src) { y with cursor := start + n })

end Sys2Proof.Machine
end

