-- ==== Sys2Proof/Machine/CapacityCursor.lean ====
section
/-! DEFINITION. DOUBLE_CAPACITY, the cursor commands, POSITION, CAPACITY_BITS and FLUSH (44_capacity_cursor.md R170,
R172 to R177, R180). -/

namespace Sys2Proof.Machine

/-- DOUBLE_CAPACITY (R170). The new half already reads 0 (R43). -/
def execDoubleCapacity (s : State) : Result :=
  command true s fun x =>
    if s.capMax < 2 * x.capacity then raise .allocFailure x s
    else complete { x with capacity := 2 * x.capacity } s

/-- ADVANCE (R172): an exact sum, clamped at the end of the buffer. -/
def execAdvance (s : State) : Result :=
  command true s fun x => complete { x with cursor := min (x.cursor + x.argument0) (x.bits s.W) } s

/-- RETREAT (R173): "must not underflow". -/
def execRetreat (s : State) : Result :=
  command true s fun x =>
    complete { x with cursor := if x.cursor ≤ x.argument0 then 0 else x.cursor - x.argument0 } s

/-- SEEK (R174). -/
def execSeek (s : State) : Result :=
  command true s fun x => complete { x with cursor := min x.argument0 (x.bits s.W) } s

/-- POSITION (R176). -/
def execPosition (s : State) : Result :=
  command true s fun x => complete { x with result := resultOf x.cursor } s

/-- CAPACITY_BITS (R177). -/
def execCapacityBits (s : State) : Result :=
  command true s fun x => complete { x with result := resultOf (x.bits s.W) } s

/-- FLUSH (R180): the old words go out as one event, then the store is all zero, whatever its new capacity. -/
def execFlush (s : State) : Result :=
  command true s fun x =>
    let nc := max 1 x.argument0
    if s.capMax < nc then raise .allocFailure x s
    else
      complete { x with words := [], capacity := nc, cursor := 0, result := resultOf x.capacity }
        (s.observe (.flushOut s.active (deliveredWords x)))

end Sys2Proof.Machine
end

