-- ==== Sys2Proof/Machine/WordCompose.lean ====
section
/-! DEFINITION. WRITE_WORD_IDX and WRITE_WORD_CUR (42_word_compose.md R121, R122). Bits of DATA at n and above are
ignored (R28), which `splice` does. -/

namespace Sys2Proof.Machine

/-- WRITE_WORD_IDX (R121). -/
def execWriteWordIdx (n : BitVec 6) (s : State) : Result :=
  command (countLegal s n) s fun x =>
    let start := x.argument0
    growing (start + countOf n) x s fun x =>
      complete { x with words := splice s.W x.words start x.data (countOf n) } s

/-- WRITE_WORD_CUR (R122). -/
def execWriteWordCur (n : BitVec 6) (s : State) : Result :=
  command (countLegal s n) s fun x =>
    let start := x.cursor
    growing (start + countOf n) x s fun x =>
      complete { x with words := splice s.W x.words start x.data (countOf n), cursor := start + countOf n } s

end Sys2Proof.Machine
end

