-- ==== Sys2Proof/Machine/WordExtract.lean ====
section
/-! DEFINITION. READ_WORD_IDX and READ_WORD_CUR (41_word_extract.md R101, R102). "read operations never grow". -/

namespace Sys2Proof.Machine

/-- READ_WORD_IDX (R101). -/
def execReadWordIdx (n : BitVec 6) (s : State) : Result :=
  command (countLegal s n) s fun x =>
    let start := x.argument0
    if x.bits s.W < start + countOf n then raise .outOfRange x s
    else complete { x with result := extract s.W x.words start (countOf n) } s

/-- READ_WORD_CUR (R102). -/
def execReadWordCur (n : BitVec 6) (s : State) : Result :=
  command (countLegal s n) s fun x =>
    let start := x.cursor
    if x.bits s.W < start + countOf n then raise .outOfRange x s
    else complete { x with result := extract s.W x.words start (countOf n), cursor := start + countOf n } s

end Sys2Proof.Machine
end

