-- ==== Sys2Proof/Machine/Dispatch.lean ====
section
/-! DEFINITION. The meaning of every command, by its constructor (30_encoding.md R62). -/

namespace Sys2Proof.Machine

/-- A command executed by the instance `s.active`. -/
def exec (i : Instr) (s : State) : Host.Outcome State Fault Refusal :=
  match i with
  | .getBit => Sys2Proof.Machine.execGetBit s
  | .setBit => Sys2Proof.Machine.execSetBit s
  | .clearBit => Sys2Proof.Machine.execClearBit s
  | .readWordIdx n => Sys2Proof.Machine.execReadWordIdx n s
  | .readWordCur n => Sys2Proof.Machine.execReadWordCur n s
  | .writeWordIdx n => Sys2Proof.Machine.execWriteWordIdx n s
  | .writeWordCur n => Sys2Proof.Machine.execWriteWordCur n s
  | .writeBufferIdx => Sys2Proof.Machine.execWriteBufferIdx s
  | .writeBufferCur => Sys2Proof.Machine.execWriteBufferCur s
  | .writeStreamII src => Sys2Proof.Machine.execWriteStreamII src s
  | .writeStreamCI src => Sys2Proof.Machine.execWriteStreamCI src s
  | .writeStreamCC src => Sys2Proof.Machine.execWriteStreamCC src s
  | .doubleCapacity => Sys2Proof.Machine.execDoubleCapacity s
  | .advance => Sys2Proof.Machine.execAdvance s
  | .retreat => Sys2Proof.Machine.execRetreat s
  | .seek => Sys2Proof.Machine.execSeek s
  | .position => Sys2Proof.Machine.execPosition s
  | .capacityBits => Sys2Proof.Machine.execCapacityBits s
  | .flush => Sys2Proof.Machine.execFlush s

end Sys2Proof.Machine
end

