-- ==== Sys2Proof/Machine/Issue.lean ====
section
/-! DEFINITION. The host's side of a step: issuing a command, host access to the registers and to EXT_IN, reset, and a
command that waits for words (30_encoding.md R60, R66; 10_state.md R26 to R32; 70_reset_and_hazards.md R230, R241, R244). -/

namespace Sys2Proof.Machine

/-- An operation on an instance that must exist (R20). -/
def withInst (k : Nat) (s : State) (body : Inst → Result) : Result :=
  match s.insts[k]? with
  | none => .fault .noSuchInstance
  | some x => body x

/-- A CMD value that encodes no command: HALTED if FATAL is set, else ILLEGAL_COMMAND (R66, R67). -/
def execIllegal (s : State) : Result := command false s fun x => complete x s

/-- The command a CMD value encodes, executed by `s.active` (R66). -/
def execWord (c : Reg) (s : State) : Result :=
  match decode c with
  | .ok i => exec i s
  | .error _ => execIllegal s

/-- A host write (R26 to R30). A write to CMD issues the command to instance k, which reads its operands at issue
and ends in the same step (R50, R60). -/
def hostWrite (k : Nat) (r : HostReg) (v : Reg) (s : State) : Result :=
  withInst k s fun x =>
    match r with
    | .cmd => execWord v { s.setInst k (x.writeReg .cmd v) with active := k }
    | r => .next (s.setInst k (x.writeReg r v))

/-- A host push on EXT_IN (R32). EXT_IN is W bits wide: only the low W bits reach it. -/
def hostPush (k : Nat) (w : Word) (s : State) : Result :=
  withInst k s fun x => .next (s.setInst k { x with extIn := x.extIn ++ [w &&& lowmask s.W] })

/-- A host read: the host has seen the value, and nothing changes (R26 to R30). -/
def hostRead (k : Nat) (r : HostReg) (s : State) : Result :=
  withInst k s fun x => .next (s.observe (.registerRead k r (x.readReg r)))

/-- The reset of one instance (R230). -/
def hostReset (k : Nat) (s : State) : Result :=
  match s.cfg.insts[k]? with
  | none => .fault .noSuchInstance
  | some p => .next (s.setInst k (Inst.reset s.W p))

/-- The system reset (R230). What the host has seen and what it does next are the host's own. -/
def hostSystemReset (s : State) : Result := .next { s with insts := s.cfg.insts.map (Inst.reset s.W) }

/-- One host action while no command executes (R240). -/
def hostAct (a : HostAction) (s : State) : Result :=
  match a with
  | .write k r v => hostWrite k r v s
  | .push k w => hostPush k w s
  | .read k r => hostRead k r s
  | .reset k => hostReset k s
  | .systemReset => hostSystemReset s

/-- What the host may do while a command executes on `active`: push words, which the command takes "as they arrive"
(R32), read registers (R211), and write a register that is neither CMD of any instance (R241) nor an operand register
of the executing one (R242). A reset is serialised with commands, so it is not taken in the middle of one (R50, R230). -/
def allowedWhileExecuting (active : Nat) : HostAction → Bool
  | .push _ _ => true
  | .read _ _ => true
  | .write _ .cmd _ => false
  | .write _ .result _ => true
  | .write _ .status _ => true
  | .write k .arg0 _ => decide (k ≠ active)
  | .write k .arg1 _ => decide (k ≠ active)
  | .write k .arg2 _ => decide (k ≠ active)
  | .write k .data _ => decide (k ≠ active)
  | .reset _ => false
  | .systemReset => false

/-- A command waits for words and the host takes its next action, if it may be taken now. Any other next action waits
behind the command, and so does a host that does nothing more: the system is stuck (R244). -/
def hostActWaiting (s : State) : Result :=
  match s.host with
  | [] => .fault .stuckAwaitingExtIn
  | a :: rest =>
    if allowedWhileExecuting s.active a then hostAct a { s with host := rest } else .fault .stuckAwaitingExtIn

/-- The waiting command has fewer words on EXT_IN than the `ceil(n / W)` it needs, n being ARG1 (R141, R142). -/
def wordsMissing (s : State) (x : Inst) : Bool := decide (x.extIn.length < wordsFor x.argument1 s.W)

/-- One step of the system: a waiting command goes on once its words are present, else the host takes its next action.
With no action left nothing changes: "nothing but a command or reset changes its state" (R216, R240). -/
def systemStep (s : State) : Result :=
  match s.waiting with
  | some i =>
    withInst s.active s fun x =>
      if wordsMissing s x then hostActWaiting s else exec i { s with waiting := none }
  | none =>
    match s.host with
    | [] => .next s
    | a :: rest => hostAct a { s with host := rest }

end Sys2Proof.Machine
end

