-- ==== Sys2Proof/Machine/Step.lean ====
section
/-! DEFINITION. One step of the machine, and where it takes its next command from (30_encoding.md R60; 70_reset_and_hazards.md
R230, R240). -/

namespace Sys2Proof.Machine

/-- One step. A configuration that is not valid is refused (R230, U12). -/
def step (s : State) : Host.Outcome State Fault Refusal :=
  if s.cfg.Valid then systemStep s else .refused .invalidConfiguration

/-- The block fetches nothing: a command comes from the host's write to CMD (R60, R240). So the command word is placed
as the host's next action, a write of CMD of the executing instance, with no command waiting before it. -/
def State.withFetchWord (s : State) (nbits w : Nat) : State :=
  { s with
    waiting := none
    host := .write s.active .cmd (BitVec.ofNat 32 (w % 2 ^ nbits)) :: s.host }

end Sys2Proof.Machine
end

