-- ==== Sys2Proof/Machine/Asm.lean ====
section
/-! DEFINITION. The assembler syntax and its expansion into host actions (30_encoding.md R69, R70). A program is the host's
list of lines (R240); a line is the register writes of R60 followed by the CMD write. -/

namespace Sys2Proof.Machine

/-- A line of R69's table, its operands as numbers; `src` is the instance of `@src`, `ws` the list in braces. -/
inductive AsmLine where
  | getBit (idx : Nat)
  | setBit (idx : Nat)
  | clearBit (idx : Nat)
  | readWord (start n : Nat)
  | readWordCur (n : Nat)
  | writeWord (start data n : Nat)
  | writeWordCur (data n : Nat)
  | writeBuffer (start n : Nat) (ws : List Nat)
  | writeBufferCur (n : Nat) (ws : List Nat)
  | writeStream (dstStart srcStart n src : Nat)
  | writeStreamCur (srcStart n src : Nat)
  | writeStreamCurcur (n src : Nat)
  | doubleCapacity
  | advance (n : Nat)
  | retreat (n : Nat)
  | seek (idx : Nat)
  | position
  | capacityBits
  | flush (newCapacity : Nat)
deriving DecidableEq, Repr

/-- A host write of instance k's register (R69's `REG ← v`). -/
def setReg (k : Nat) (r : HostReg) (v : Nat) : HostAction := .write k r (BitVec.ofNat 32 v)

/-- The pushes of a list of words on instance k's EXT_IN, in the list's order (R69). -/
def pushAll (k : Nat) (ws : List Nat) : List HostAction := ws.map fun w => .push k (BitVec.ofNat 32 w)

/-- What a line expands to on instance k: "host writes, in order" (R69). -/
def AsmLine.expand (k : Nat) : AsmLine → List HostAction
  | .getBit idx => [setReg k .arg0 idx, setReg k .cmd 0x01]
  | .setBit idx => [setReg k .arg0 idx, setReg k .cmd 0x02]
  | .clearBit idx => [setReg k .arg0 idx, setReg k .cmd 0x03]
  | .readWord start n => [setReg k .arg0 start, setReg k .cmd (0x04 ||| n <<< 5)]
  | .readWordCur n => [setReg k .cmd (0x05 ||| n <<< 5)]
  | .writeWord start data n =>
    [setReg k .arg0 start, setReg k .data data, setReg k .cmd (0x06 ||| n <<< 5)]
  | .writeWordCur data n => [setReg k .data data, setReg k .cmd (0x07 ||| n <<< 5)]
  | .writeBuffer start n ws =>
    [setReg k .arg0 start, setReg k .arg1 n] ++ pushAll k ws ++ [setReg k .cmd 0x08]
  | .writeBufferCur n ws => [setReg k .arg1 n] ++ pushAll k ws ++ [setReg k .cmd 0x09]
  | .writeStream dstStart srcStart n src =>
    [setReg k .arg0 dstStart, setReg k .arg1 srcStart, setReg k .arg2 n, setReg k .cmd (0x0A ||| src <<< 11)]
  | .writeStreamCur srcStart n src =>
    [setReg k .arg1 srcStart, setReg k .arg2 n, setReg k .cmd (0x0B ||| src <<< 11)]
  | .writeStreamCurcur n src => [setReg k .arg2 n, setReg k .cmd (0x0C ||| src <<< 11)]
  | .doubleCapacity => [setReg k .cmd 0x0D]
  | .advance n => [setReg k .arg0 n, setReg k .cmd 0x0E]
  | .retreat n => [setReg k .arg0 n, setReg k .cmd 0x0F]
  | .seek idx => [setReg k .arg0 idx, setReg k .cmd 0x10]
  | .position => [setReg k .cmd 0x11]
  | .capacityBits => [setReg k .cmd 0x12]
  | .flush newCapacity => [setReg k .arg0 newCapacity, setReg k .cmd 0x13]

/-- "The number in a `{…}` list must be `ceil(n / W)`" (R69). -/
def AsmLine.listFits (W : Nat) : AsmLine → Bool
  | .writeBuffer _ n ws => ws.length == wordsFor n W
  | .writeBufferCur n ws => ws.length == wordsFor n W
  | _ => true

/-- The mnemonics of R69, and the two further pseudo-commands of R70. -/
inductive AsmMnemonic where
  | getBit
  | setBit
  | clearBit
  | readWord
  | readWordCur
  | writeWord
  | writeWordCur
  | writeBuffer
  | writeBufferCur
  | writeStream
  | writeStreamCur
  | writeStreamCurcur
  | doubleCapacity
  | advance
  | retreat
  | seek
  | position
  | capacityBits
  | flush
  | writeBit
  | rewind
deriving DecidableEq, Repr

/-- The spellings (R69, R70). -/
def asmSpellings : List (String × AsmMnemonic) :=
  [("get_bit", .getBit), ("set_bit", .setBit), ("clear_bit", .clearBit),
   ("read_word", .readWord), ("read_word.cur", .readWordCur),
   ("write_word", .writeWord), ("write_word.cur", .writeWordCur),
   ("write_buffer", .writeBuffer), ("write_buffer.cur", .writeBufferCur),
   ("write_stream", .writeStream), ("write_stream.cur", .writeStreamCur),
   ("write_stream.curcur", .writeStreamCurcur), ("double_capacity", .doubleCapacity),
   ("advance", .advance), ("retreat", .retreat), ("seek", .seek), ("position", .position),
   ("capacity_bits", .capacityBits), ("flush", .flush), ("write_bit", .writeBit), ("rewind", .rewind)]

/-- An operand: a number, an instance `@i`, or a list of words in braces (R69). -/
inductive AsmOperand where
  | num (v : Nat)
  | inst (k : Nat)
  | words (ws : List Nat)
deriving DecidableEq, Repr

/-- The line a mnemonic and its operands stand for. An unsuffixed mnemonic picks its form by operand count, and
`write_bit` and `rewind` stand for core lines (R70). -/
def asmLine : AsmMnemonic → List AsmOperand → Option AsmLine
  | .getBit, [.num idx] => some (.getBit idx)
  | .setBit, [.num idx] => some (.setBit idx)
  | .clearBit, [.num idx] => some (.clearBit idx)
  | .readWord, [.num start, .num n] => some (.readWord start n)
  | .readWord, [.num n] => some (.readWordCur n)
  | .readWordCur, [.num n] => some (.readWordCur n)
  | .writeWord, [.num start, .num data, .num n] => some (.writeWord start data n)
  | .writeWord, [.num data, .num n] => some (.writeWordCur data n)
  | .writeWordCur, [.num data, .num n] => some (.writeWordCur data n)
  | .writeBuffer, [.num start, .num n, .words ws] => some (.writeBuffer start n ws)
  | .writeBuffer, [.num n, .words ws] => some (.writeBufferCur n ws)
  | .writeBufferCur, [.num n, .words ws] => some (.writeBufferCur n ws)
  | .writeStream, [.num d, .num st, .num n, .inst src] => some (.writeStream d st n src)
  | .writeStream, [.num st, .num n, .inst src] => some (.writeStreamCur st n src)
  | .writeStreamCur, [.num st, .num n, .inst src] => some (.writeStreamCur st n src)
  | .writeStreamCurcur, [.num n, .inst src] => some (.writeStreamCurcur n src)
  | .doubleCapacity, [] => some .doubleCapacity
  | .advance, [.num n] => some (.advance n)
  | .retreat, [.num n] => some (.retreat n)
  | .seek, [.num idx] => some (.seek idx)
  | .position, [] => some .position
  | .capacityBits, [] => some .capacityBits
  | .flush, [.num nc] => some (.flush nc)
  | .writeBit, [.num idx, .num v] =>
    if v = 1 then some (.setBit idx) else if v = 0 then some (.clearBit idx) else none
  | .rewind, [] => some (.seek 0)
  | _, _ => none

/-! ### Reading the text of a line -/

/-- The value of one digit character, in any base up to 16. -/
def digitValue (c : Char) : Option Nat :=
  let v := c.toNat
  if 48 ≤ v ∧ v ≤ 57 then some (v - 48)
  else if 97 ≤ v ∧ v ≤ 102 then some (v - 87)
  else if 65 ≤ v ∧ v ≤ 70 then some (v - 55)
  else none

/-- Digits of a base, most significant first, after the value `acc` of those before them. -/
def digitsValue (base : Nat) : Nat → List Char → Option Nat
  | acc, [] => some acc
  | acc, c :: cs =>
    match digitValue c with
    | some v => if v < base then digitsValue base (acc * base + v) cs else none
    | none => none

/-- "Numbers are decimal or `0x`/`0b`-prefixed" (R69). -/
def asmNumber : List Char → Option Nat
  | [] => none
  | '0' :: 'x' :: c :: cs => digitsValue 16 0 (c :: cs)
  | '0' :: 'b' :: c :: cs => digitsValue 2 0 (c :: cs)
  | c :: cs => digitsValue 10 0 (c :: cs)

/-- The opening brace, written by its number. -/
def openBrace : Char := Char.ofNat 123

/-- The closing brace, written by its number. -/
def closeBrace : Char := Char.ofNat 125

/-- Drop the spaces at both ends. -/
def trimSpaces (cs : List Char) : List Char :=
  ((cs.dropWhile (· = ' ')).reverse.dropWhile (· = ' ')).reverse

/-- Split at the commas that stand outside braces; `cur` holds the piece read so far, reversed. -/
def splitCommas : Nat → List Char → List Char → List (List Char)
  | _, cur, [] => [cur.reverse]
  | depth, cur, c :: cs =>
    if c = ',' ∧ depth = 0 then cur.reverse :: splitCommas 0 [] cs
    else if c = openBrace then splitCommas (depth + 1) (c :: cur) cs
    else if c = closeBrace then splitCommas (depth - 1) (c :: cur) cs
    else splitCommas depth (c :: cur) cs

/-- The pieces of a comma-separated text, none if it is blank. -/
def pieces (cs : List Char) : List (List Char) :=
  if trimSpaces cs = [] then [] else (splitCommas 0 [] cs).map trimSpaces

/-- All values of a list, or none if one is missing. -/
def allSome {α : Type} : List (Option α) → Option (List α)
  | [] => some []
  | none :: _ => none
  | some a :: rest => (allSome rest).map (a :: ·)

/-- One operand (R69). -/
def asmOperand (cs : List Char) : Option AsmOperand :=
  match cs with
  | [] => none
  | c :: rest =>
    if c = '@' then (asmNumber rest).map .inst
    else if c = openBrace then
      match rest.reverse with
      | z :: inner =>
        if z = closeBrace then (allSome ((pieces inner.reverse).map asmNumber)).map .words else none
      | [] => none
    else (asmNumber cs).map .num

/-- "a lower-case mnemonic followed by its operands, separated by commas" (R69). -/
def asmText (cs : List Char) : Option AsmLine :=
  let t := trimSpaces cs
  let name := t.takeWhile (· ≠ ' ')
  match asmSpellings.find? (fun p => p.1.toList = name) with
  | none => none
  | some p =>
    match allSome ((pieces (t.dropWhile (· ≠ ' '))).map asmOperand) with
    | none => none
    | some ops => asmLine p.2 ops

/-- "A line may be prefixed `@i:` to address instance i. Without the prefix it addresses instance 0" (R69). -/
def asmParse (line : String) : Option (Nat × AsmLine) :=
  let t := trimSpaces line.toList
  match t with
  | '@' :: rest =>
    match asmNumber (rest.takeWhile (· ≠ ':')) with
    | none => none
    | some k => (asmText ((rest.dropWhile (· ≠ ':')).drop 1)).map (k, ·)
  | _ => (asmText t).map (0, ·)

/-- The host actions of a program: its lines in order; none if a line is not of the syntax or its list of words has
another length than `ceil(n / W)` (R69, R240). -/
def assemble (W : Nat) : List String → Option (List HostAction)
  | [] => some []
  | line :: rest =>
    match asmParse line, assemble W rest with
    | some (k, l), some acts => if l.listFits W then some (l.expand k ++ acts) else none
    | _, _ => none

end Sys2Proof.Machine
end

