-- ==== Sys2Proof/WellFormed.lean ====
section
/-! DEFINITION. Which commands are well formed in a configuration: the legal values of the fields N and SRC
(30_encoding.md R63, R64). A command that is not well formed completes with ILLEGAL_COMMAND (R66, R67). -/

namespace Sys2Proof

/-- R63: "Legal values are 1 ≤ N ≤ W" for the word commands. R64: "SRC ≥ NUM_INST completes with ILLEGAL_COMMAND"
for the stream copies. The other commands have no field with an illegal value: the decoder has refused theirs. -/
def Instr.wf (c : Config) : Instr → Bool
  | .readWordIdx n => decide (1 ≤ n.toNat ∧ n.toNat ≤ c.W)
  | .readWordCur n => decide (1 ≤ n.toNat ∧ n.toNat ≤ c.W)
  | .writeWordIdx n => decide (1 ≤ n.toNat ∧ n.toNat ≤ c.W)
  | .writeWordCur n => decide (1 ≤ n.toNat ∧ n.toNat ≤ c.W)
  | .writeStreamII src => decide (src.toNat < c.numInst)
  | .writeStreamCI src => decide (src.toNat < c.numInst)
  | .writeStreamCC src => decide (src.toNat < c.numInst)
  | .getBit => true
  | .setBit => true
  | .clearBit => true
  | .writeBufferIdx => true
  | .writeBufferCur => true
  | .doubleCapacity => true
  | .advance => true
  | .retreat => true
  | .seek => true
  | .position => true
  | .capacityBits => true
  | .flush => true

end Sys2Proof
end

