-- ==== Sys2Proof/Safety.lean ====
section
/-! DEFINITION. The terms in which claims about the machine are stated: the invariants of 10_state.md R25, the instance
that executes, the effect of a command on the state, growth and bit contents as the spec's rules word them. -/

namespace Sys2Proof.Machine

/-! ### Storage -/

/-- Every stored word is a W-bit word (R22). -/
abbrev Memory.Narrow (W : Nat) (m : Memory) : Prop := ∀ c ∈ m, c.2.toNat < 2 ^ W

/-- (I6): "`words[j] = 0` for every j ≥ capacity" (R25, R43). -/
abbrev Memory.Below (cap : Nat) (m : Memory) : Prop := ∀ c ∈ m, c.1 < cap

/-- m is the storage, in its one form, whose bit j is `f j` for every bit index j (R41). -/
def Memory.Holds (W : Nat) (m : Memory) (f : Nat → Bool) : Prop :=
  m.wf ∧ m.Narrow W ∧ ∀ j, m.bit W j = f j

/-- "An n-bit field at bit index `start` is the number `Σ_{i<n} Bit(start + i) × 2^i`" (R42). -/
def fieldValue (W : Nat) (m : Memory) (start : Nat) : Nat → Nat
  | 0 => 0
  | n + 1 => fieldValue W m start n + (if m.bit W (start + n) then 2 ^ n else 0)

/-- The bits of a storage after bits `[start, start + n)` have been replaced by `new 0, new 1, …` (R120, R140, R154). -/
def replaced (W : Nat) (m : Memory) (start n : Nat) (new : Nat → Bool) (j : Nat) : Bool :=
  if start ≤ j ∧ j < start + n then new (j - start) else m.bit W j

/-- Bit i of an external array: "`e[i div W][i mod W]`" (R140). -/
def arrayBit (W : Nat) (e : List Word) (i : Nat) : Bool := (e.getD (i / W) 0).getLsbD (i % W)

/-! ### Growth -/

/-- "least integer d >= 1 such that capacity * 2^d * W >= R" (R47). -/
def LeastDoublings (W cap R d : Nat) : Prop :=
  1 ≤ d ∧ R ≤ cap * 2 ^ d * W ∧ ∀ d', 1 ≤ d' → R ≤ cap * 2 ^ d' * W → d ≤ d'

/-- `Grow(R)` leaves the capacity c (R47). -/
def GrowsTo (W capMax cap R c : Nat) : Prop :=
  (R ≤ cap * W ∧ c = cap) ∨ (cap * W < R ∧ ∃ d, LeastDoublings W cap R d ∧ c = cap * 2 ^ d ∧ c ≤ capMax)

/-- `GrowFails(R)`: "true exactly when R > capacity × W and `capacity × 2^d > CAP_MAX` for the d above" (R47). -/
def GrowFails (W capMax cap R : Nat) : Prop :=
  cap * W < R ∧ ∃ d, LeastDoublings W cap R d ∧ capMax < cap * 2 ^ d

/-! ### Instances and the system -/

/-- The invariants of one instance: (I1), (I2), (I5), (I6) of R25, words of W bits (R22, R32), and the one form of its
storage. -/
abbrev Inst.Wf (W capMax : Nat) (x : Inst) : Prop :=
  1 ≤ x.capacity ∧ x.capacity ≤ capMax ∧ x.cursor ≤ x.capacity * W ∧
  x.words.wf ∧ x.words.Narrow W ∧ x.words.Below x.capacity ∧ ∀ v ∈ x.extIn.map BitVec.toNat, v < 2 ^ W

/-- A waiting command is a WRITE_BUFFER whose checks have passed: not halted, and n is not 0 (R141, R142, R244). -/
def State.WaitOk (s : State) : Prop :=
  ∀ i, s.waiting = some i →
    (i = .writeBufferIdx ∨ i = .writeBufferCur) ∧
    ∃ x, s.insts[s.active]? = some x ∧ x.status.fatal = false ∧ x.arg1.toNat ≠ 0

/-- The invariant of the system (R5, R20, R25). -/
def State.Inv (s : State) : Prop :=
  s.cfg.Valid ∧ s.insts.length = s.cfg.numInst ∧
  (∀ (k : Nat) (x : Inst), s.insts[k]? = some x → x.Wf s.W (s.cfg.capMax k)) ∧ s.WaitOk

/-- x is the executing instance of s, and it is not halted (R31, R66). -/
abbrev State.Runs (s : State) (x : Inst) : Prop := s.insts[s.active]? = some x ∧ x.status.fatal = false

/-- s with its executing instance left as x and one more thing seen by the host, that the command ended with `x`'s
completion code. Nothing else differs from s. -/
def State.endsAs (s : State) (x : Inst) : State :=
  { s with insts := s.insts.set s.active x, obs := s.obs ++ [.completed s.active x.status.code] }

/-- STATUS after a command that was not halted: FATAL is 0 but after ALLOC_FAILURE (R30, R206). -/
def endStatus (c : Code) : Status := { code := c, fatal := decide (c = .allocFailure) }

/-- s when the command ended with an error: only the executing instance's STATUS differs (R203). -/
def State.fails (s : State) (x : Inst) (c : Code) : State := s.endsAs { x with status := endStatus c }

/-- No command is executing and the host's next action is a: it may be taken at once (R240, R241). -/
abbrev State.Next (s : State) (a : HostAction) (rest : List HostAction) : Prop :=
  s.cfg.Valid ∧ s.waiting = none ∧ s.host = a :: rest

/-- The state in which the command of a write of c to instance k's CMD executes: CMD holds c, instance k executes,
and the host's action is taken (R26, R60). x is instance k as the write found it. -/
def State.afterIssue (s : State) (k : Nat) (c : Reg) (x : Inst) (rest : List HostAction) : State :=
  { s with insts := s.insts.set k { x with cmd := c }, active := k, host := rest }

/-- What the host may do while a command executes on instance `active`: push words (R32), read registers, and write
a register that is neither a CMD (R241) nor an operand register of that instance (R242). -/
def HostAction.MayBeTaken (active : Nat) (a : HostAction) : Prop :=
  (∃ k w, a = .push k w) ∨ (∃ k r, a = .read k r) ∨
  ∃ k r v, a = .write k r v ∧ r ≠ .cmd ∧ (k ≠ active ∨ r = .result ∨ r = .status)

/-- The instance a host action names; a system reset names none. -/
def HostAction.target : HostAction → Option Nat
  | .write k _ _ => some k
  | .push k _ => some k
  | .read k _ => some k
  | .reset k => some k
  | .systemReset => none

/-! ### Encodings -/

/-- The CMD values that complete with ILLEGAL_COMMAND, field by field as numbers: OP = c mod 32, N = c div 32 mod 64,
SRC = c div 2048 mod 8, RSV = c div 16384 (R61, R63, R64, R67). -/
def IllegalWord (cfg : Config) (c : Nat) : Prop :=
  c / 16384 ≠ 0 ∨ c % 32 = 0 ∨ 0x14 ≤ c % 32 ∨
  (if 0x04 ≤ c % 32 ∧ c % 32 ≤ 0x07 then c / 32 % 64 = 0 ∨ cfg.W < c / 32 % 64 else c / 32 % 64 ≠ 0) ∨
  (if 0x0A ≤ c % 32 ∧ c % 32 ≤ 0x0C then cfg.numInst ≤ c / 2048 % 8 else c / 2048 % 8 ≠ 0)

/-- The two lines every instruction rule shares (the template of 40_bit_access.md): its encoding, that the CMD value
`word` and no other is this command, and that a halted instance ends it with HALTED and changes nothing else (R66). -/
def FollowsTemplate (i : Instr) (word : Nat) : Prop :=
  (∀ c : Reg, decode c = .ok i ↔ c.toNat = word) ∧
  ∀ (s : State) (x : Inst), s.insts[s.active]? = some x → x.status.fatal = true →
    exec i s = .next (s.endsAs { x with status := { code := .halted, fatal := true } })

/-- The operand registers each command names (R62, R65). -/
def readsOperand : Instr → HostReg → Bool
  | .getBit, .arg0 => true
  | .setBit, .arg0 => true
  | .clearBit, .arg0 => true
  | .readWordIdx _, .arg0 => true
  | .writeWordIdx _, .arg0 => true
  | .writeWordIdx _, .data => true
  | .writeWordCur _, .data => true
  | .writeBufferIdx, .arg0 => true
  | .writeBufferIdx, .arg1 => true
  | .writeBufferCur, .arg1 => true
  | .writeStreamII _, .arg0 => true
  | .writeStreamII _, .arg1 => true
  | .writeStreamII _, .arg2 => true
  | .writeStreamCI _, .arg1 => true
  | .writeStreamCI _, .arg2 => true
  | .writeStreamCC _, .arg2 => true
  | .advance, .arg0 => true
  | .retreat, .arg0 => true
  | .seek, .arg0 => true
  | .flush, .arg0 => true
  | _, _ => false

/-- Where a write command stores: its first bit and its count n (R46, R62). The others store to no range. -/
def writeTarget (i : Instr) (x : Inst) : Option (Nat × Nat) :=
  match i with
  | .writeWordIdx n => some (x.arg0.toNat, n.toNat)
  | .writeWordCur n => some (x.cursor, n.toNat)
  | .writeBufferIdx => some (x.arg0.toNat, x.arg1.toNat)
  | .writeBufferCur => some (x.cursor, x.arg1.toNat)
  | .writeStreamII _ => some (x.arg0.toNat, x.arg2.toNat)
  | .writeStreamCI _ => some (x.cursor, x.arg2.toNat)
  | .writeStreamCC _ => some (x.cursor, x.arg2.toNat)
  | _ => none

/-- The commands that write RESULT when they complete with OK (R29). -/
def writesResult : Instr → Bool
  | .getBit => true
  | .readWordIdx _ => true
  | .readWordCur _ => true
  | .position => true
  | .capacityBits => true
  | .flush => true
  | _ => false

end Sys2Proof.Machine
end

