-- ==== Sys2Proof/Certificates/Slice0/Obligations.lean ====
section
/-! DEFINITION. The statements for the provers. In them `s` is any state, `x` its executing instance, `y` a source
instance; `s.endsAs x'` is `s` with the executing instance left as `x'` and its completion code seen by the host (the
`Event` list is the model's way to hold what R247 says a run shows, notes/assumptions/4.md), and `s.fails x c` is the
same where only STATUS differs. So an equation with either says what the command leaves unchanged: all the rest. -/

open Sys2Proof Sys2Proof.Machine

/-! ### Encoding (30_encoding.md) -/

/-- R61, R62, R66: the decoder accepts exactly the words the encoder makes, and gives back the command. -/
def Obligations.DecodeInvertsEncode : Prop :=
  ∀ (c : Reg) (i : Instr), decode c = .ok i ↔ c = encode i

/-- The words the decoder rejects are exactly those of R67 with a bit of RSV set, a reserved OP, or a non-zero N or SRC
in a command that has no such field. That the decoder rejects these and no others is the model's choice
(notes/assumptions/11.md, DESIGN CHOICE): R66 and R67 make other words illegal too, such as 0x00000004 with its N = 0,
and of those it is the command that reports it. -/
def Obligations.DecodeRejectsExactlyReservedWords : Prop :=
  ∀ c : Reg, (∃ e, decode c = .error e) ↔
    (c.toNat / 16384 ≠ 0 ∨ c.toNat % 32 = 0 ∨ 0x14 ≤ c.toNat % 32 ∨
     (¬ (0x04 ≤ c.toNat % 32 ∧ c.toNat % 32 ≤ 0x07) ∧ c.toNat / 32 % 64 ≠ 0) ∨
     (¬ (0x0A ≤ c.toNat % 32 ∧ c.toNat % 32 ≤ 0x0C) ∧ c.toNat / 2048 % 8 ≠ 0))

/-- R63, R64, R66, R67: the CMD values that are not illegal in a configuration are exactly the encodings of its
well-formed commands. -/
def Obligations.LegalWordsAreWellFormedCommands : Prop :=
  ∀ (cfg : Config) (c : Reg), ¬ IllegalWord cfg c.toNat ↔ ∃ i, decode c = .ok i ∧ i.wf cfg = true

/-- Words written out from R61 and R62 (R71 and 95_test_vectors.md give them) decode to their commands. -/
def Obligations.WrittenOutWordsDecode : Prop :=
  decode 0x000000A6 = .ok (.writeWordIdx 5) ∧ decode 0x00000405 = .ok (.readWordCur 32) ∧
  decode 0x0000080B = .ok (.writeStreamCI 1) ∧ decode 0x00000001 = .ok .getBit ∧
  decode 0x00000008 = .ok .writeBufferIdx ∧ decode 0x00000013 = .ok .flush ∧
  decode 0x000000A1 = .error .countNotZero ∧ decode 0x00000014 = .error .reservedOpcode ∧
  decode 0x00004011 = .error .reservedBits ∧ decode 0x00000811 = .error .sourceNotZero

/-- R71: the first three examples' lines expand to the operand writes and the CMD value it gives; the last two CMD values
are no command, and the step that takes the host's write of one of them completes with ILLEGAL_COMMAND. -/
def Obligations.EncodingExamples : Prop :=
  (∀ k, (AsmLine.writeWord 3 0b10110 5).expand k =
    [.write k .arg0 3, .write k .data 0x16, .write k .cmd 0x000000A6]) ∧
  (∀ k, (AsmLine.readWordCur 32).expand k = [.write k .cmd 0x00000405]) ∧
  (∀ k, (AsmLine.writeStreamCur 0 12 1).expand k =
    [.write k .arg1 0, .write k .arg2 12, .write k .cmd 0x0000080B]) ∧
  decode 0x000000A6 = .ok (.writeWordIdx 5) ∧ decode 0x00000405 = .ok (.readWordCur 32) ∧
  decode 0x0000080B = .ok (.writeStreamCI 1) ∧
  ∀ c : Reg, c = 0x000000A1 ∨ c = 0x00000014 →
    (∀ i, decode c ≠ .ok i) ∧
    ∀ (s : State) (k : Nat) (rest : List HostAction) (x : Inst),
      s.Next (.write k .cmd c) rest → s.insts[k]? = some x → x.status.fatal = false →
      step s = .next ((s.afterIssue k c x rest).fails { x with cmd := c } .illegalCommand)

/-! ### The step (10_state.md, 70_reset_and_hazards.md) -/

/-- R26, R60: the step that takes the host's write of a command's word to CMD is that command, executed by the
instance written to, with CMD holding the word and the host's action taken. -/
def Obligations.StepRunsTheIssuedCommand : Prop :=
  ∀ (s : State) (k : Nat) (c : Reg) (rest : List HostAction) (x : Inst) (i : Instr),
    s.Next (.write k .cmd c) rest → s.insts[k]? = some x → decode c = .ok i →
    step s = exec i (s.afterIssue k c x rest)

/-- R67: a CMD value of one of its four lists completes with ILLEGAL_COMMAND and changes nothing but STATUS.CODE (CMD
itself holds the host's value). -/
def Obligations.IllegalWordChangesOnlyCode : Prop :=
  ∀ (s : State) (k : Nat) (c : Reg) (rest : List HostAction) (x : Inst),
    s.Next (.write k .cmd c) rest → s.insts[k]? = some x → x.status.fatal = false → IllegalWord s.cfg c.toNat →
    step s = .next ((s.afterIssue k c x rest).fails { x with cmd := c } .illegalCommand)

/-- R66, R207: while STATUS.FATAL is 1 every CMD value, legal or not, completes with HALTED and changes nothing else. -/
def Obligations.HaltedInstanceExecutesNoWord : Prop :=
  ∀ (s : State) (k : Nat) (c : Reg) (rest : List HostAction) (x : Inst),
    s.Next (.write k .cmd c) rest → s.insts[k]? = some x → x.status.fatal = true →
    step s = .next ((s.afterIssue k c x rest).endsAs
      { x with cmd := c, status := { code := .halted, fatal := true } })

/-- R31: every command that completes with ALLOC_FAILURE sets FATAL; only a reset clears it; while it is 1 each command
completes with HALTED and changes nothing else. -/
def Obligations.FatalFlagRule : Prop :=
  (∀ (i : Instr) (s t : State), exec i s = .next t →
    .completed s.active .allocFailure ∈ t.obs.drop s.obs.length →
    ∃ y, t.insts[s.active]? = some y ∧ y.status.fatal = true) ∧
  (∀ (s t : State) (k : Nat) (x y : Inst), step s = .next t → s.insts[k]? = some x → x.status.fatal = true →
    t.insts[k]? = some y → y.status.fatal = false →
    s.host.head? = some (.reset k) ∨ s.host.head? = some .systemReset) ∧
  (∀ (i : Instr) (s : State) (x : Inst), s.insts[s.active]? = some x → x.status.fatal = true →
    exec i s = .next (s.endsAs { x with status := { code := .halted, fatal := true } }))

/-- R5: the parameters are "fixed for the lifetime of an instance": no step changes them. -/
def Obligations.NoStepChangesTheParameters : Prop :=
  ∀ s t : State, step s = .next t → t.cfg = s.cfg

/-- R230, U12: a configuration that is not valid is refused, whatever the state. -/
def Obligations.InvalidConfigurationIsRefused : Prop :=
  ∀ s : State, ¬ s.cfg.Valid → step s = .refused .invalidConfiguration

/-- R240: with no command executing and no host action left, nothing changes. -/
def Obligations.IdleSystemChangesNothing : Prop :=
  ∀ s : State, s.cfg.Valid → s.waiting = none → s.host = [] → step s = .next s

/-- R26 to R30: a host write of an operand register changes that register alone, a host write of RESULT or STATUS is
ignored, and a host read sees the register's value and changes nothing. R32: a push puts one word, its low W bits, at
the end of EXT_IN (that wider bits are dropped is the model's reading, notes/assumptions/5.md). -/
def Obligations.HostAccessToRegistersAndExtIn : Prop :=
  (∀ (s : State) (k : Nat) (r : HostReg) (v : Reg) (rest : List HostAction) (x : Inst),
    s.Next (.write k r v) rest → s.insts[k]? = some x →
    (r = .arg0 → step s = .next { s with host := rest, insts := s.insts.set k { x with arg0 := v } }) ∧
    (r = .arg1 → step s = .next { s with host := rest, insts := s.insts.set k { x with arg1 := v } }) ∧
    (r = .arg2 → step s = .next { s with host := rest, insts := s.insts.set k { x with arg2 := v } }) ∧
    (r = .data → step s = .next { s with host := rest, insts := s.insts.set k { x with data := v } }) ∧
    (r = .result → step s = .next { s with host := rest }) ∧
    (r = .status → step s = .next { s with host := rest })) ∧
  (∀ (s : State) (k : Nat) (r : HostReg) (rest : List HostAction) (x : Inst),
    s.Next (.read k r) rest → s.insts[k]? = some x →
    ∃ v, step s = .next { s with host := rest, obs := s.obs ++ [.registerRead k r v] } ∧
      (r = .cmd → v = x.cmd) ∧ (r = .arg0 → v = x.arg0) ∧ (r = .arg1 → v = x.arg1) ∧ (r = .arg2 → v = x.arg2) ∧
      (r = .data → v = x.data) ∧ (r = .result → v = x.result) ∧
      (r = .status → v.toNat = x.status.code.value + (if x.status.fatal then 16 else 0))) ∧
  (∀ (s : State) (k : Nat) (w : Word) (rest : List HostAction) (x : Inst),
    s.Next (.push k w) rest → s.insts[k]? = some x →
    step s = .next { s with
      host := rest
      insts := s.insts.set k { x with extIn := x.extIn ++ [BitVec.ofNat 32 (w.toNat % 2 ^ s.W)] } })

/-- R30: CODE stands in [3:0] with a value from 0 to 6, FATAL in [4]; BUSY [5] and the reserved bits [31:6] read 0.
R200: the number of each completion code. -/
def Obligations.StatusRegisterFields : Prop :=
  (∀ st : Status, st.word.toNat % 16 = st.code.value ∧ st.code.value ≤ 6 ∧ st.word.getLsbD 4 = st.fatal ∧
    ∀ b, 5 ≤ b → st.word.getLsbD b = false) ∧
  Code.ok.value = 0 ∧ Code.outOfRange.value = 1 ∧ Code.srcRangeExceeded.value = 2 ∧ Code.allocFailure.value = 3 ∧
  Code.illegalCommand.value = 4 ∧ Code.aliasedCopy.value = 5 ∧ Code.halted.value = 6

/-- R244: while a WRITE_BUFFER has fewer words than it needs and the host's next action, if there is one, is none that
may be taken while a command executes, there is no further step (the fault is the model's stuck state,
notes/assumptions/6.md). -/
def Obligations.ShortWriteBufferIsStuck : Prop :=
  ∀ (s : State) (i : Instr) (x : Inst), s.cfg.Valid → s.waiting = some i → s.insts[s.active]? = some x →
    x.extIn.length < wordsFor x.arg1.toNat s.W → (∀ a rest, s.host = a :: rest → ¬ a.MayBeTaken s.active) →
    step s = .fault .stuckAwaitingExtIn

/-- R32, R141: while a WRITE_BUFFER waits for words, a host action that may be taken does what it does when no command
waits, and the command waits on; once the words are present the step is the command itself. Which actions may be taken
meanwhile is the model's reading of R32, R211, R241 and R242 (notes/assumptions/6.md, DEDUCED). -/
def Obligations.WaitingWriteBufferGoesOn : Prop :=
  (∀ (s t : State) (i : Instr) (x : Inst) (a : HostAction) (rest : List HostAction), s.cfg.Valid →
    s.waiting = some i → s.insts[s.active]? = some x → x.extIn.length < wordsFor x.arg1.toNat s.W →
    s.host = a :: rest → a.MayBeTaken s.active → step { s with waiting := none } = .next t →
    step s = .next { t with waiting := some i }) ∧
  (∀ (s : State) (i : Instr) (x : Inst), s.cfg.Valid → s.waiting = some i → s.insts[s.active]? = some x →
    wordsFor x.arg1.toNat s.W ≤ x.extIn.length → step s = exec i { s with waiting := none })

/-! ### Reset and the invariants (10_state.md R25, R37; 70_reset_and_hazards.md R230) -/

/-- R37: the reset value of every item of an instance's state, for every width and every parameter. -/
def Obligations.ResetValues : Prop :=
  ∀ (w : Width) (p : InstConfig),
    let x := Inst.reset w.bits p
    (∀ j, x.words.read j = 0) ∧ x.capacity = max 1 ((p.initHintBits + w.bits - 1) / w.bits) ∧ x.cursor = 0 ∧
    x.cmd = 0 ∧ x.arg0 = 0 ∧ x.arg1 = 0 ∧ x.arg2 = 0 ∧ x.data = 0 ∧ x.result = 0 ∧ x.status.code = .ok ∧
    x.status.fatal = false ∧ x.status.word = 0 ∧ x.extIn = []

/-- R230: the host's reset of an instance gives it its reset values and changes no other; a system reset does so for
every instance at once. -/
def Obligations.ResetResetsInstances : Prop :=
  (∀ (s : State) (k : Nat) (p : InstConfig) (rest : List HostAction),
    s.Next (.reset k) rest → s.cfg.insts[k]? = some p →
    step s = .next { s with host := rest, insts := s.insts.set k (Inst.reset s.W p) }) ∧
  (∀ (s : State) (rest : List HostAction), s.Next .systemReset rest →
    ∃ insts', step s = .next { s with host := rest, insts := insts' } ∧ insts'.length = s.cfg.numInst ∧
      ∀ (k : Nat) (p : InstConfig), s.cfg.insts[k]? = some p → insts'[k]? = some (Inst.reset s.W p))

/-- R231: "After reset the invariants of 10_state.md rule R25 hold", in every valid configuration; `State.reset` is the
reset of one of them (the choice of that one is the model's, notes/assumptions/1.md). -/
def Obligations.ResetMeetsTheInvariant : Prop :=
  (∀ c : Config, c.Valid → (State.resetWith c).Inv) ∧ State.reset.Inv

/-- Of R25, every step keeps (I1), (I2), (I5) and (I6); and it keeps the word size of storage and EXT_IN, the one form of storage, and
the configuration's validity. -/
def Obligations.StepKeepsTheInvariant : Prop :=
  ∀ s t : State, s.Inv → step s = .next t → t.Inv

/-- From a state that meets the invariant a step fails in no way but the two the model names: the host names an
instance that does not exist (R20; that this is a fault is the model's choice, notes/assumptions/9.md, DESIGN CHOICE),
or a WRITE_BUFFER is short of words and the host's next action is none that may be taken (R241, R244; the fault, and
which actions may be taken, are notes/assumptions/6.md). -/
def Obligations.StepsFailOnlyAsNamed : Prop :=
  ∀ s : State, s.Inv →
    (∃ t, step s = .next t) ∨
    (step s = .fault .noSuchInstance ∧ ∃ a k, s.host.head? = some a ∧ a.target = some k ∧ s.cfg.numInst ≤ k) ∨
    (step s = .fault .stuckAwaitingExtIn ∧ ∃ i x, s.waiting = some i ∧ s.insts[s.active]? = some x ∧
      x.extIn.length < wordsFor x.arg1.toNat s.W ∧
      ∀ a rest, s.host = a :: rest → ¬ a.MayBeTaken s.active)

/-! ### Masks and single bits (40_bit_access.md) -/

/-- R80, R81, R82: the masks, bit by bit and, where the rules give one, as numbers. -/
def Obligations.MaskValues : Prop :=
  ∀ w : Width,
    (∀ n, n ≤ w.bits → (lowmask n).toNat = 2 ^ n - 1 ∧ ∀ b, (lowmask n).getLsbD b = decide (b < n)) ∧
    (∀ k, k < w.bits → (bitmask k).toNat = 2 ^ k) ∧
    (∀ off n, 1 ≤ n → off + n ≤ w.bits →
      ∀ b, (spanmask w.bits off n).getLsbD b = decide (off ≤ b ∧ b < off + n)) ∧
    (∀ off, 1 ≤ off → off < w.bits → ∀ b, (highmask w.bits off).getLsbD b = decide (off ≤ b ∧ b < w.bits))

/-- R83: GET_BIT gives bit ARG0 in RESULT and changes nothing else; out of range it only reports OUT_OF_RANGE. -/
def Obligations.GetBitReadsTheAddressedBit : Prop :=
  FollowsTemplate .getBit 0x01 ∧
  ∀ (s : State) (x : Inst), s.Runs x →
    (x.arg0.toNat < x.capacity * s.W →
      exec .getBit s = .next (s.endsAs
        { x with result := if x.words.bit s.W x.arg0.toNat then 1 else 0, status := endStatus .ok })) ∧
    (x.capacity * s.W ≤ x.arg0.toNat → exec .getBit s = .next (s.fails x .outOfRange))

/-- R84: SET_BIT makes bit ARG0 1, every other bit of storage and all other state unchanged; out of range it only
reports OUT_OF_RANGE. -/
def Obligations.SetBitSetsOnlyTheAddressedBit : Prop :=
  FollowsTemplate .setBit 0x02 ∧
  ∀ (s : State) (x : Inst), s.Runs x → x.Wf s.W s.capMax →
    (x.arg0.toNat < x.capacity * s.W →
      ∃ m : Memory, m.Holds s.W (fun j => if j = x.arg0.toNat then true else x.words.bit s.W j) ∧
        exec .setBit s = .next (s.endsAs { x with words := m, status := endStatus .ok })) ∧
    (x.capacity * s.W ≤ x.arg0.toNat → exec .setBit s = .next (s.fails x .outOfRange))

/-- R85: CLEAR_BIT makes bit ARG0 0, every other bit of storage and all other state unchanged; out of range it only
reports OUT_OF_RANGE. -/
def Obligations.ClearBitClearsOnlyTheAddressedBit : Prop :=
  FollowsTemplate .clearBit 0x03 ∧
  ∀ (s : State) (x : Inst), s.Runs x → x.Wf s.W s.capMax →
    (x.arg0.toNat < x.capacity * s.W →
      ∃ m : Memory, m.Holds s.W (fun j => if j = x.arg0.toNat then false else x.words.bit s.W j) ∧
        exec .clearBit s = .next (s.endsAs { x with words := m, status := endStatus .ok })) ∧
    (x.capacity * s.W ≤ x.arg0.toNat → exec .clearBit s = .next (s.fails x .outOfRange))

/-- R86: GET_BIT after SET_BIT returns 1, after CLEAR_BIT 0, and every other bit is the same before and after. -/
def Obligations.SingleBitLaws : Prop :=
  ∀ (s : State) (x : Inst), s.Runs x → x.Wf s.W s.capMax → x.arg0.toNat < x.capacity * s.W →
    ∀ i v, (i = .setBit ∧ v = 1) ∨ (i = .clearBit ∧ v = 0) →
      ∃ t u y z, exec i s = .next t ∧ exec .getBit t = .next u ∧ t.insts[s.active]? = some y ∧
        u.insts[s.active]? = some z ∧ z.status.code = .ok ∧ z.result = v ∧
        ∀ j, j ≠ x.arg0.toNat → y.words.bit s.W j = x.words.bit s.W j

/-! ### Word extractor (41_word_extract.md) -/

/-- R103: "`Extract(start, n) = Σ_{i<n} Bit(start + i) × 2^i`", and the bits from n up are 0. -/
def Obligations.ExtractorLaw : Prop :=
  ∀ (w : Width) (m : Memory) (start n : Nat), m.Narrow w.bits → 1 ≤ n → n ≤ w.bits →
    (extract w.bits m start n).toNat = fieldValue w.bits m start n ∧
    ∀ b, n ≤ b → (extract w.bits m start n).getLsbD b = false

/-- R101: READ_WORD_IDX gives the n-bit field at ARG0 in RESULT and changes nothing else; OUT_OF_RANGE where the field
ends beyond the capacity, ILLEGAL_COMMAND where N is not from 1 to W. -/
def Obligations.ReadWordIdxExtractsTheField : Prop :=
  (∀ n, FollowsTemplate (.readWordIdx n) (0x04 + 32 * n.toNat)) ∧
  ∀ (s : State) (x : Inst) (n : BitVec 6), s.Runs x → x.Wf s.W s.capMax →
    (1 ≤ n.toNat → n.toNat ≤ s.W → x.arg0.toNat + n.toNat ≤ x.capacity * s.W →
      exec (.readWordIdx n) s = .next (s.endsAs
        { x with
          result := BitVec.ofNat 32 (fieldValue s.W x.words x.arg0.toNat n.toNat)
          status := endStatus .ok })) ∧
    (1 ≤ n.toNat → n.toNat ≤ s.W → x.capacity * s.W < x.arg0.toNat + n.toNat →
      exec (.readWordIdx n) s = .next (s.fails x .outOfRange)) ∧
    (n.toNat = 0 ∨ s.W < n.toNat → exec (.readWordIdx n) s = .next (s.fails x .illegalCommand))

/-- R102: READ_WORD_CUR gives the n-bit field at the cursor in RESULT, advances the cursor by n and changes nothing
else; OUT_OF_RANGE and ILLEGAL_COMMAND as in R101, the cursor then unmoved. -/
def Obligations.ReadWordCurExtractsAndAdvances : Prop :=
  (∀ n, FollowsTemplate (.readWordCur n) (0x05 + 32 * n.toNat)) ∧
  ∀ (s : State) (x : Inst) (n : BitVec 6), s.Runs x → x.Wf s.W s.capMax →
    (1 ≤ n.toNat → n.toNat ≤ s.W → x.cursor + n.toNat ≤ x.capacity * s.W →
      exec (.readWordCur n) s = .next (s.endsAs
        { x with
          result := BitVec.ofNat 32 (fieldValue s.W x.words x.cursor n.toNat)
          cursor := x.cursor + n.toNat
          status := endStatus .ok })) ∧
    (1 ≤ n.toNat → n.toNat ≤ s.W → x.capacity * s.W < x.cursor + n.toNat →
      exec (.readWordCur n) s = .next (s.fails x .outOfRange)) ∧
    (n.toNat = 0 ∨ s.W < n.toNat → exec (.readWordCur n) s = .next (s.fails x .illegalCommand))

/-! ### Growth and the word compositor (20_memory.md, 42_word_compose.md) -/

/-- R47: the capacity growth computes is the least doubling that holds R bits, and it fails exactly where that exceeds
CAP_MAX. -/
def Obligations.GrowthFollowsTheDoublingRule : Prop :=
  ∀ (w : Width) (capMax cap R : Nat), 1 ≤ cap →
    (∀ c, grownCapacity w.bits capMax cap R = some c ↔ GrowsTo w.bits capMax cap R c) ∧
    (grownCapacity w.bits capMax cap R = none ↔ GrowFails w.bits capMax cap R)

/-- R121: WRITE_WORD_IDX grows to ARG0 + n bits and puts the low n bits of DATA at ARG0, every other bit (those growth
adds read 0) and all other state unchanged; ALLOC_FAILURE where growth fails, ILLEGAL_COMMAND where N is not from 1
to W. -/
def Obligations.WriteWordIdxSplicesTheField : Prop :=
  (∀ n, FollowsTemplate (.writeWordIdx n) (0x06 + 32 * n.toNat)) ∧
  ∀ (s : State) (x : Inst) (n : BitVec 6), s.Runs x → x.Wf s.W s.capMax →
    (∀ c, 1 ≤ n.toNat → n.toNat ≤ s.W → GrowsTo s.W s.capMax x.capacity (x.arg0.toNat + n.toNat) c →
      ∃ m : Memory, m.Holds s.W (replaced s.W x.words x.arg0.toNat n.toNat fun i => x.data.getLsbD i) ∧
        exec (.writeWordIdx n) s = .next (s.endsAs
          { x with words := m, capacity := c, status := endStatus .ok })) ∧
    (1 ≤ n.toNat → n.toNat ≤ s.W → GrowFails s.W s.capMax x.capacity (x.arg0.toNat + n.toNat) →
      exec (.writeWordIdx n) s = .next (s.fails x .allocFailure)) ∧
    (n.toNat = 0 ∨ s.W < n.toNat → exec (.writeWordIdx n) s = .next (s.fails x .illegalCommand))

/-- R122: WRITE_WORD_CUR does the same at the cursor and advances it by n; on an error it does not move. -/
def Obligations.WriteWordCurSplicesAndAdvances : Prop :=
  (∀ n, FollowsTemplate (.writeWordCur n) (0x07 + 32 * n.toNat)) ∧
  ∀ (s : State) (x : Inst) (n : BitVec 6), s.Runs x → x.Wf s.W s.capMax →
    (∀ c, 1 ≤ n.toNat → n.toNat ≤ s.W → GrowsTo s.W s.capMax x.capacity (x.cursor + n.toNat) c →
      ∃ m : Memory, m.Holds s.W (replaced s.W x.words x.cursor n.toNat fun i => x.data.getLsbD i) ∧
        exec (.writeWordCur n) s = .next (s.endsAs
          { x with words := m, capacity := c, cursor := x.cursor + n.toNat, status := endStatus .ok })) ∧
    (1 ≤ n.toNat → n.toNat ≤ s.W → GrowFails s.W s.capMax x.capacity (x.cursor + n.toNat) →
      exec (.writeWordCur n) s = .next (s.fails x .allocFailure)) ∧
    (n.toNat = 0 ∨ s.W < n.toNat → exec (.writeWordCur n) s = .next (s.fails x .illegalCommand))

/-- R123 (c), (d): after a WRITE_WORD of either form at `start` completes with OK, a READ_WORD_IDX of n bits at `start`
returns the low n bits of DATA; and the same WRITE_WORD_IDX once more leaves every instance as it is. -/
def Obligations.WriteThenReadReturnsTheData : Prop :=
  ∀ (s : State) (x : Inst) (n : BitVec 6) (i : Instr) (start c : Nat), s.Runs x → x.Wf s.W s.capMax →
    (i = .writeWordIdx n ∧ start = x.arg0.toNat) ∨ (i = .writeWordCur n ∧ start = x.cursor) →
    1 ≤ n.toNat → n.toNat ≤ s.W → GrowsTo s.W s.capMax x.capacity (start + n.toNat) c →
    ∃ t x', exec i s = .next t ∧ t.insts[s.active]? = some x' ∧ x'.status.code = .ok ∧
      (∀ a : Reg, a.toNat = start →
        ∃ u z, exec (.readWordIdx n) { t with insts := t.insts.set s.active { x' with arg0 := a } } = .next u ∧
          u.insts[s.active]? = some z ∧ z.status.code = .ok ∧ z.result.toNat = x.data.toNat % 2 ^ n.toNat) ∧
      (i = .writeWordIdx n → ∃ v, exec i t = .next v ∧ v.insts = t.insts)

/-- R48, for one command of each write path: take two instances of equal contents, cursor, operands and EXT_IN but any
two capacities, and for a WRITE_STREAM sources of equal contents and cursor. Where the command completes with OK on both
it leaves equal contents, cursors and EXT_IN: growth shows in the capacity alone, which each grows by R47. -/
def Obligations.GrowthDoesNotShowInTheBits : Prop :=
  ∀ (s s' t t' : State) (x x' y y' : Inst) (i : Instr) (start n : Nat), writeTarget i x = some (start, n) →
    s.insts[s.active]? = some x → s'.insts[s'.active]? = some x' → s'.cfg.width = s.cfg.width →
    1 ≤ x.capacity → 1 ≤ x'.capacity → x'.words = x.words → x'.cursor = x.cursor → x'.extIn = x.extIn →
    x'.arg0 = x.arg0 → x'.arg1 = x.arg1 → x'.arg2 = x.arg2 → x'.data = x.data →
    (∀ (src : BitVec 3) (z z' : Inst), i ∈ [.writeStreamII src, .writeStreamCI src, .writeStreamCC src] →
      s.insts[src.toNat]? = some z → s'.insts[src.toNat]? = some z' → z'.words = z.words ∧ z'.cursor = z.cursor) →
    exec i s = .next t → t.obs = s.obs ++ [.completed s.active .ok] → t.insts[s.active]? = some y →
    exec i s' = .next t' → t'.obs = s'.obs ++ [.completed s'.active .ok] → t'.insts[s'.active]? = some y' →
    y'.words = y.words ∧ y'.cursor = y.cursor ∧ y'.extIn = y.extIn ∧
      (n ≠ 0 → GrowsTo s.W s.capMax x.capacity (start + n) y.capacity ∧
        GrowsTo s'.W s'.capMax x'.capacity (start + n) y'.capacity)

/-! ### Bulk transfers (43_bulk_transfer.md) -/

/-- R140, R141: WRITE_BUFFER_IDX with ARG1 = n bits. n = 0 completes and changes nothing; ALLOC_FAILURE where growth to
ARG0 + n fails, no word popped; with fewer than ceil(n / W) words it waits and nothing changes; else it pops exactly
those words, grows, and puts the n bits of the array at ARG0, every other bit and all other state unchanged. -/
def Obligations.WriteBufferIdxCopiesTheArray : Prop :=
  FollowsTemplate .writeBufferIdx 0x08 ∧
  ∀ (s : State) (x : Inst), s.Runs x → x.Wf s.W s.capMax →
    (x.arg1.toNat = 0 → exec .writeBufferIdx s = .next (s.endsAs { x with status := endStatus .ok })) ∧
    (x.arg1.toNat ≠ 0 → GrowFails s.W s.capMax x.capacity (x.arg0.toNat + x.arg1.toNat) →
      exec .writeBufferIdx s = .next (s.fails x .allocFailure)) ∧
    (∀ c, x.arg1.toNat ≠ 0 → GrowsTo s.W s.capMax x.capacity (x.arg0.toNat + x.arg1.toNat) c →
      x.extIn.length < wordsFor x.arg1.toNat s.W →
      exec .writeBufferIdx s = .next { s with waiting := some .writeBufferIdx }) ∧
    (∀ c e rest, x.arg1.toNat ≠ 0 → GrowsTo s.W s.capMax x.capacity (x.arg0.toNat + x.arg1.toNat) c →
      x.extIn = e ++ rest → e.length = wordsFor x.arg1.toNat s.W →
      ∃ m : Memory, m.Holds s.W (replaced s.W x.words x.arg0.toNat x.arg1.toNat (arrayBit s.W e)) ∧
        exec .writeBufferIdx s = .next (s.endsAs
          { x with words := m, capacity := c, extIn := rest, status := endStatus .ok }))

/-- R140, R142: WRITE_BUFFER_CUR does the same at the cursor and advances it by n. -/
def Obligations.WriteBufferCurCopiesAndAdvances : Prop :=
  FollowsTemplate .writeBufferCur 0x09 ∧
  ∀ (s : State) (x : Inst), s.Runs x → x.Wf s.W s.capMax →
    (x.arg1.toNat = 0 → exec .writeBufferCur s = .next (s.endsAs { x with status := endStatus .ok })) ∧
    (x.arg1.toNat ≠ 0 → GrowFails s.W s.capMax x.capacity (x.cursor + x.arg1.toNat) →
      exec .writeBufferCur s = .next (s.fails x .allocFailure)) ∧
    (∀ c, x.arg1.toNat ≠ 0 → GrowsTo s.W s.capMax x.capacity (x.cursor + x.arg1.toNat) c →
      x.extIn.length < wordsFor x.arg1.toNat s.W →
      exec .writeBufferCur s = .next { s with waiting := some .writeBufferCur }) ∧
    (∀ c e rest, x.arg1.toNat ≠ 0 → GrowsTo s.W s.capMax x.capacity (x.cursor + x.arg1.toNat) c →
      x.extIn = e ++ rest → e.length = wordsFor x.arg1.toNat s.W →
      ∃ m : Memory, m.Holds s.W (replaced s.W x.words x.cursor x.arg1.toNat (arrayBit s.W e)) ∧
        exec .writeBufferCur s = .next (s.endsAs
          { x with
            words := m
            capacity := c
            cursor := x.cursor + x.arg1.toNat
            extIn := rest
            status := endStatus .ok }))

/-- R143: after a WRITE_BUFFER at `start` with n bits completes with OK, READ_WORD_IDX of `min(W, n - jW)` bits at
`start + jW` returns word j of the external array in its low bits, for every j. -/
def Obligations.WriteBufferReadsBack : Prop :=
  ∀ (s : State) (x : Inst) (i : Instr) (start c : Nat), s.Runs x → x.Wf s.W s.capMax →
    (i = .writeBufferIdx ∧ start = x.arg0.toNat) ∨ (i = .writeBufferCur ∧ start = x.cursor) →
    x.arg1.toNat ≠ 0 → GrowsTo s.W s.capMax x.capacity (start + x.arg1.toNat) c →
    wordsFor x.arg1.toNat s.W ≤ x.extIn.length →
    ∃ t x', exec i s = .next t ∧ t.insts[s.active]? = some x' ∧ x'.status.code = .ok ∧
      ∀ (j : Nat) (a : Reg) (n : BitVec 6), j < wordsFor x.arg1.toNat s.W → a.toNat = start + j * s.W →
        n.toNat = min s.W (x.arg1.toNat - j * s.W) →
        ∃ u z, exec (.readWordIdx n) { t with insts := t.insts.set s.active { x' with arg0 := a } } = .next u ∧
          u.insts[s.active]? = some z ∧ z.status.code = .ok ∧
          z.result.toNat = (x.extIn.getD j 0).toNat % 2 ^ n.toNat

/-- R150, R151, R154: WRITE_STREAM_II from source index ARG1 to destination index ARG0, ARG2 = n bits: the checks in
their order, each with no change to either instance, and the copy, with no cursor moved. A source that is halted is
read all the same. -/
def Obligations.WriteStreamIICopiesTheBits : Prop :=
  (∀ src, FollowsTemplate (.writeStreamII src) (0x0A + 2048 * src.toNat)) ∧
  ∀ (s : State) (x y : Inst) (src : BitVec 3), s.Runs x → x.Wf s.W s.capMax →
    (s.cfg.numInst ≤ src.toNat → exec (.writeStreamII src) s = .next (s.fails x .illegalCommand)) ∧
    (src.toNat < s.cfg.numInst → s.insts[src.toNat]? = some y → y.words.Narrow s.W →
      (src.toNat = s.active → exec (.writeStreamII src) s = .next (s.fails x .aliasedCopy)) ∧
      (src.toNat ≠ s.active → x.arg2.toNat = 0 →
        exec (.writeStreamII src) s = .next (s.endsAs { x with status := endStatus .ok })) ∧
      (src.toNat ≠ s.active → x.arg2.toNat ≠ 0 → y.capacity * s.W < x.arg1.toNat + x.arg2.toNat →
        exec (.writeStreamII src) s = .next (s.fails x .srcRangeExceeded)) ∧
      (src.toNat ≠ s.active → x.arg2.toNat ≠ 0 → x.arg1.toNat + x.arg2.toNat ≤ y.capacity * s.W →
        GrowFails s.W s.capMax x.capacity (x.arg0.toNat + x.arg2.toNat) →
        exec (.writeStreamII src) s = .next (s.fails x .allocFailure)) ∧
      (∀ c, src.toNat ≠ s.active → x.arg2.toNat ≠ 0 → x.arg1.toNat + x.arg2.toNat ≤ y.capacity * s.W →
        GrowsTo s.W s.capMax x.capacity (x.arg0.toNat + x.arg2.toNat) c →
        ∃ m : Memory, m.Holds s.W
            (replaced s.W x.words x.arg0.toNat x.arg2.toNat fun i => y.words.bit s.W (x.arg1.toNat + i)) ∧
          exec (.writeStreamII src) s = .next (s.endsAs
            { x with words := m, capacity := c, status := endStatus .ok })))

/-- R150, R152, R154, R155: WRITE_STREAM_CI, the same to the destination cursor, which advances by n. -/
def Obligations.WriteStreamCICopiesAndAdvances : Prop :=
  (∀ src, FollowsTemplate (.writeStreamCI src) (0x0B + 2048 * src.toNat)) ∧
  ∀ (s : State) (x y : Inst) (src : BitVec 3), s.Runs x → x.Wf s.W s.capMax →
    (s.cfg.numInst ≤ src.toNat → exec (.writeStreamCI src) s = .next (s.fails x .illegalCommand)) ∧
    (src.toNat < s.cfg.numInst → s.insts[src.toNat]? = some y → y.words.Narrow s.W →
      (src.toNat = s.active → exec (.writeStreamCI src) s = .next (s.fails x .aliasedCopy)) ∧
      (src.toNat ≠ s.active → x.arg2.toNat = 0 →
        exec (.writeStreamCI src) s = .next (s.endsAs { x with status := endStatus .ok })) ∧
      (src.toNat ≠ s.active → x.arg2.toNat ≠ 0 → y.capacity * s.W < x.arg1.toNat + x.arg2.toNat →
        exec (.writeStreamCI src) s = .next (s.fails x .srcRangeExceeded)) ∧
      (src.toNat ≠ s.active → x.arg2.toNat ≠ 0 → x.arg1.toNat + x.arg2.toNat ≤ y.capacity * s.W →
        GrowFails s.W s.capMax x.capacity (x.cursor + x.arg2.toNat) →
        exec (.writeStreamCI src) s = .next (s.fails x .allocFailure)) ∧
      (∀ c, src.toNat ≠ s.active → x.arg2.toNat ≠ 0 → x.arg1.toNat + x.arg2.toNat ≤ y.capacity * s.W →
        GrowsTo s.W s.capMax x.capacity (x.cursor + x.arg2.toNat) c →
        ∃ m : Memory, m.Holds s.W
            (replaced s.W x.words x.cursor x.arg2.toNat fun i => y.words.bit s.W (x.arg1.toNat + i)) ∧
          exec (.writeStreamCI src) s = .next (s.endsAs
            { x with words := m, capacity := c, cursor := x.cursor + x.arg2.toNat, status := endStatus .ok })))

/-- R150, R153, R154, R155: WRITE_STREAM_CC, the same from the source cursor; both cursors advance by n, and nothing
else of the source changes. -/
def Obligations.WriteStreamCCCopiesAndAdvancesBoth : Prop :=
  (∀ src, FollowsTemplate (.writeStreamCC src) (0x0C + 2048 * src.toNat)) ∧
  ∀ (s : State) (x y : Inst) (src : BitVec 3), s.Runs x → x.Wf s.W s.capMax →
    (s.cfg.numInst ≤ src.toNat → exec (.writeStreamCC src) s = .next (s.fails x .illegalCommand)) ∧
    (src.toNat < s.cfg.numInst → s.insts[src.toNat]? = some y → y.words.Narrow s.W →
      (src.toNat = s.active → exec (.writeStreamCC src) s = .next (s.fails x .aliasedCopy)) ∧
      (src.toNat ≠ s.active → x.arg2.toNat = 0 →
        exec (.writeStreamCC src) s = .next (s.endsAs { x with status := endStatus .ok })) ∧
      (src.toNat ≠ s.active → x.arg2.toNat ≠ 0 → y.capacity * s.W < y.cursor + x.arg2.toNat →
        exec (.writeStreamCC src) s = .next (s.fails x .srcRangeExceeded)) ∧
      (src.toNat ≠ s.active → x.arg2.toNat ≠ 0 → y.cursor + x.arg2.toNat ≤ y.capacity * s.W →
        GrowFails s.W s.capMax x.capacity (x.cursor + x.arg2.toNat) →
        exec (.writeStreamCC src) s = .next (s.fails x .allocFailure)) ∧
      (∀ c, src.toNat ≠ s.active → x.arg2.toNat ≠ 0 → y.cursor + x.arg2.toNat ≤ y.capacity * s.W →
        GrowsTo s.W s.capMax x.capacity (x.cursor + x.arg2.toNat) c →
        ∃ m : Memory, m.Holds s.W
            (replaced s.W x.words x.cursor x.arg2.toNat fun i => y.words.bit s.W (y.cursor + i)) ∧
          exec (.writeStreamCC src) s = .next
            (State.endsAs
              { s with insts := s.insts.set src.toNat { y with cursor := y.cursor + x.arg2.toNat } }
              { x with words := m, capacity := c, cursor := x.cursor + x.arg2.toNat, status := endStatus .ok })))

/-- R155: the cursor effects of the three WRITE_STREAM forms: each advance is by n = ARG2 and happens only when the
command completes with OK; on every other completion no cursor moves. -/
def Obligations.StreamCursorEffects : Prop :=
  ∀ (i : Instr) (src : BitVec 3) (s t : State) (x y x' y' : Inst),
    i ∈ [.writeStreamII src, .writeStreamCI src, .writeStreamCC src] → exec i s = .next t →
    s.insts[s.active]? = some x → s.insts[src.toNat]? = some y →
    t.insts[s.active]? = some x' → t.insts[src.toNat]? = some y' →
    (x'.status.code = .ok →
      x'.cursor = x.cursor + (if i = .writeStreamII src then 0 else x.arg2.toNat) ∧
      y'.cursor = y.cursor + (if i = .writeStreamCC src then x.arg2.toNat else 0)) ∧
    (x'.status.code ≠ .ok → x'.cursor = x.cursor ∧ y'.cursor = y.cursor)

/-- R156: after a stream copy of n bits completes with OK, the n bits of the destination at the pre-call position are
the n bits of the source from its start, as numbers, in each of the three address forms. -/
def Obligations.StreamCopyFidelity : Prop :=
  ∀ (s : State) (x y : Inst) (src : BitVec 3) (i : Instr) (d start c : Nat), s.Runs x → x.Wf s.W s.capMax →
    src.toNat < s.cfg.numInst → s.insts[src.toNat]? = some y → y.words.Narrow s.W → src.toNat ≠ s.active →
    (i = .writeStreamII src ∧ d = x.arg0.toNat ∧ start = x.arg1.toNat) ∨
      (i = .writeStreamCI src ∧ d = x.cursor ∧ start = x.arg1.toNat) ∨
      (i = .writeStreamCC src ∧ d = x.cursor ∧ start = y.cursor) →
    x.arg2.toNat ≠ 0 → start + x.arg2.toNat ≤ y.capacity * s.W →
    GrowsTo s.W s.capMax x.capacity (d + x.arg2.toNat) c →
    ∃ t x' y', exec i s = .next t ∧ t.insts[s.active]? = some x' ∧ t.insts[src.toNat]? = some y' ∧
      x'.status.code = .ok ∧
      fieldValue s.W x'.words d x.arg2.toNat = fieldValue s.W y.words start x.arg2.toNat ∧
      y'.words = y.words

/-! ### Capacity, cursor and flush (44_capacity_cursor.md) -/

/-- R170: DOUBLE_CAPACITY doubles the capacity and changes nothing else; ALLOC_FAILURE beyond CAP_MAX. -/
def Obligations.DoubleCapacityDoublesOnce : Prop :=
  FollowsTemplate .doubleCapacity 0x0D ∧
  ∀ (s : State) (x : Inst), s.Runs x →
    (2 * x.capacity ≤ s.capMax →
      exec .doubleCapacity s = .next (s.endsAs { x with capacity := 2 * x.capacity, status := endStatus .ok })) ∧
    (s.capMax < 2 * x.capacity → exec .doubleCapacity s = .next (s.fails x .allocFailure))

/-- R172: ADVANCE by ARG0, an exact sum clamped at capacity × W. -/
def Obligations.AdvanceClampsAtTheEnd : Prop :=
  FollowsTemplate .advance 0x0E ∧
  ∀ (s : State) (x : Inst), s.Runs x →
    exec .advance s = .next (s.endsAs
      { x with cursor := min (x.cursor + x.arg0.toNat) (x.capacity * s.W), status := endStatus .ok })

/-- R173: RETREAT by ARG0, clamped at 0. -/
def Obligations.RetreatClampsAtZero : Prop :=
  FollowsTemplate .retreat 0x0F ∧
  ∀ (s : State) (x : Inst), s.Runs x →
    (x.cursor ≤ x.arg0.toNat →
      exec .retreat s = .next (s.endsAs { x with cursor := 0, status := endStatus .ok })) ∧
    (∀ d, x.cursor = d + x.arg0.toNat →
      exec .retreat s = .next (s.endsAs { x with cursor := d, status := endStatus .ok }))

/-- R174: SEEK to ARG0, clamped at capacity × W. -/
def Obligations.SeekClampsAtTheEnd : Prop :=
  FollowsTemplate .seek 0x10 ∧
  ∀ (s : State) (x : Inst), s.Runs x →
    exec .seek s = .next (s.endsAs
      { x with cursor := min x.arg0.toNat (x.capacity * s.W), status := endStatus .ok })

/-- R176: POSITION gives the cursor in RESULT and changes nothing else; it fits in 32 bits. -/
def Obligations.PositionReadsTheCursor : Prop :=
  FollowsTemplate .position 0x11 ∧
  ∀ (s : State) (x : Inst), s.Runs x → s.Inv →
    ∃ v : Reg, v.toNat = x.cursor ∧
      exec .position s = .next (s.endsAs { x with result := v, status := endStatus .ok })

/-- R177: CAPACITY_BITS gives capacity × W in RESULT and changes nothing else; it fits in 32 bits and is a positive
multiple of W. -/
def Obligations.CapacityBitsReadsTheCapacity : Prop :=
  FollowsTemplate .capacityBits 0x12 ∧
  ∀ (s : State) (x : Inst), s.Runs x → s.Inv →
    ∃ v : Reg, v.toNat = x.capacity * s.W ∧ 0 < v.toNat ∧
      exec .capacityBits s = .next (s.endsAs { x with result := v, status := endStatus .ok })

/-- R175: the cursor commands change neither the capacity nor a storage word, and each keeps the cursor in range. -/
def Obligations.CursorCommandsDoNotGrow : Prop :=
  ∀ (i : Instr) (s t : State) (x : Inst), i ∈ [.advance, .retreat, .seek, .position, .capacityBits] →
    s.insts[s.active]? = some x → x.cursor ≤ x.capacity * s.W → exec i s = .next t →
    ∃ y, t.insts[s.active]? = some y ∧ y.capacity = x.capacity ∧ y.words = x.words ∧ y.cursor ≤ y.capacity * s.W

/-- R180: FLUSH delivers the old `capacity` words, word 0 first, as one event, and leaves an all-zero store of
max(1, ARG0) words, the cursor at 0 and the old capacity in RESULT; ALLOC_FAILURE beyond CAP_MAX, with no delivery. -/
def Obligations.FlushDeliversAndStartsOver : Prop :=
  FollowsTemplate .flush 0x13 ∧
  ∀ (s : State) (x : Inst), s.Runs x →
    (max 1 x.arg0.toNat ≤ s.capMax →
      ∃ (ws : List Word) (m : Memory),
        ws.length = x.capacity ∧ (∀ j, j < x.capacity → ws[j]? = some (x.words.read j)) ∧
        m.wf ∧ (∀ j, m.read j = 0) ∧
        exec .flush s = .next { s with
          insts := s.insts.set s.active
            { x with
              words := m
              capacity := max 1 x.arg0.toNat
              cursor := 0
              result := BitVec.ofNat 32 x.capacity
              status := endStatus .ok }
          obs := s.obs ++ [.flushOut s.active ws, .completed s.active .ok] }) ∧
    (s.capMax < max 1 x.arg0.toNat → exec .flush s = .next (s.fails x .allocFailure))

/-- R181: after FLUSH the instance is the reset of an instance with `INIT_HINT_BITS = nc × W`, but for the operand
registers, CMD and EXT_IN, which are kept, and RESULT, which holds the old capacity. -/
def Obligations.FlushIsAResetOfTheStore : Prop :=
  ∀ (s : State) (x : Inst) (p : InstConfig), s.Runs x → max 1 x.arg0.toNat ≤ s.capMax →
    p.initHintBits = max 1 x.arg0.toNat * s.W →
    ∃ t, exec .flush s = .next t ∧ t.insts[s.active]? = some
      { Inst.reset s.W p with
        cmd := x.cmd
        arg0 := x.arg0
        arg1 := x.arg1
        arg2 := x.arg2
        data := x.data
        extIn := x.extIn
        result := BitVec.ofNat 32 x.capacity }

/-! ### The whole machine -/

/-- R203: a command that completes with a code other than OK changes STATUS.CODE, STATUS.FATAL for ALLOC_FAILURE, and
nothing else. Otherwise it completed with OK, or it is a WRITE_BUFFER that waits, all of the block unchanged. -/
def Obligations.ErrorsArePrecise : Prop :=
  ∀ (i : Instr) (s t : State), exec i s = .next t →
    ∃ x, s.insts[s.active]? = some x ∧
      ((∃ c, c ≠ .ok ∧ t = s.endsAs
          { x with status := { code := c, fatal := x.status.fatal || decide (c = .allocFailure) } }) ∨
       (x.status.fatal = false ∧ ∃ y, t.insts[s.active]? = some y ∧ y.status = endStatus .ok ∧
          t.obs.getLast? = some (.completed s.active .ok)) ∨
       ((i = .writeBufferIdx ∨ i = .writeBufferCur) ∧ t = { s with waiting := some i }))

/-- R29: RESULT is written only by GET_BIT, READ_WORD_IDX, READ_WORD_CUR, POSITION, CAPACITY_BITS and FLUSH, when they
complete with OK, and only in the executing instance. -/
def Obligations.ResultIsWrittenOnlyByItsCommands : Prop :=
  ∀ (i : Instr) (s t : State) (k : Nat) (x y : Inst), exec i s = .next t → s.insts[k]? = some x →
    t.insts[k]? = some y → y.result ≠ x.result → k = s.active ∧ writesResult i = true ∧ y.status.code = .ok

/-- R26, R27, R28: no command writes CMD, ARG0, ARG1, ARG2 or DATA of any instance. -/
def Obligations.CommandsWriteNoOperandRegister : Prop :=
  ∀ (i : Instr) (s t : State) (k : Nat) (x y : Inst), exec i s = .next t → s.insts[k]? = some x →
    t.insts[k]? = some y →
    y.cmd = x.cmd ∧ y.arg0 = x.arg0 ∧ y.arg1 = x.arg1 ∧ y.arg2 = x.arg2 ∧ y.data = x.data

/-- R20, R35, R214: a command changes no instance but its own, save that WRITE_STREAM_CC advances the source's cursor;
nor does it change the parameters or the host's next actions. -/
def Obligations.CommandsLeaveOtherInstancesAlone : Prop :=
  ∀ (i : Instr) (s t : State), exec i s = .next t →
    t.cfg = s.cfg ∧ t.host = s.host ∧ t.active = s.active ∧
    ∀ k, k ≠ s.active → t.insts[k]? = s.insts[k]? ∨
      ∃ src x y, i = .writeStreamCC src ∧ src.toNat = k ∧ s.insts[s.active]? = some x ∧ s.insts[k]? = some y ∧
        t.insts[k]? = some { y with cursor := y.cursor + x.arg2.toNat }

/-- R32: EXT_IN loses words only to a WRITE_BUFFER of the same instance that completes with OK and n ≥ 1, exactly its
first ceil(n / W) words. -/
def Obligations.OnlyWriteBufferPopsExtIn : Prop :=
  ∀ (i : Instr) (s t : State) (k : Nat) (x y : Inst), exec i s = .next t → s.insts[k]? = some x →
    t.insts[k]? = some y → y.extIn ≠ x.extIn →
    k = s.active ∧ (i = .writeBufferIdx ∨ i = .writeBufferCur) ∧ y.status.code = .ok ∧ 1 ≤ x.arg1.toNat ∧
      ∃ front, front.length = wordsFor x.arg1.toNat s.W ∧ x.extIn = front ++ y.extIn

/-- R23: "Capacity never decreases except at FLUSH and reset". -/
def Obligations.CapacityShrinksOnlyAtFlushAndReset : Prop :=
  ∀ (s t : State) (k : Nat) (x y : Inst), s.WaitOk → step s = .next t → s.insts[k]? = some x →
    t.insts[k]? = some y → y.capacity < x.capacity →
    s.host.head? = some (.reset k) ∨ s.host.head? = some .systemReset ∨
      ∃ c, s.host.head? = some (.write k .cmd c) ∧ decode c = .ok .flush

/-- R65: "An operand register an opcode does not name is not read, and its value has no effect": with another value in
it the command does the same, and the register keeps that value. -/
def Obligations.UnnamedOperandsHaveNoEffect : Prop :=
  ∀ (i : Instr) (s : State) (x : Inst) (r : HostReg) (v : Reg), s.insts[s.active]? = some x →
    r ∈ [.arg0, .arg1, .arg2, .data] → readsOperand i r = false →
    (∀ t, exec i s = .next t → ∃ y, t.insts[s.active]? = some y ∧
      exec i (s.setInst s.active (x.writeReg r v)) = .next (t.setInst s.active (y.writeReg r v))) ∧
    (∀ f, exec i s = .fault f → exec i (s.setInst s.active (x.writeReg r v)) = .fault f)

/-- R45, R46: the read commands and the single-bit commands never grow the buffer, and GET_BIT, READ_WORD, POSITION
and CAPACITY_BITS change no storage word. -/
def Obligations.ReadsNeitherGrowNorStore : Prop :=
  ∀ (i : Instr) (s t : State) (x y : Inst), exec i s = .next t → s.insts[s.active]? = some x →
    t.insts[s.active]? = some y →
    (i ∈ [.getBit, .setBit, .clearBit, .position, .capacityBits] ∨ (∃ n, i = .readWordIdx n ∨ i = .readWordCur n) →
      y.capacity = x.capacity) ∧
    (i ∈ [.getBit, .position, .capacityBits] ∨ (∃ n, i = .readWordIdx n ∨ i = .readWordCur n) →
      y.words = x.words)

/-- R181, R247: what the host has seen stays: every step only adds to it, so no later command changes a delivery. -/
def Obligations.WhatTheHostSawStays : Prop :=
  ∀ s t : State, step s = .next t → ∃ more, t.obs = s.obs ++ more
end

