-- ==== Sys2Proof/Laws/State.lean ====
section
/-! SUPPORT. One lemma per field and update of the state, true by rfl, so that no proof unfolds a record update. -/

namespace Sys2Proof.Machine

variable (s : State) (k : Nat) (x : Inst) (e : Event) (c : Code) (st : Status)

@[simp] theorem State.setInst_cfg : (s.setInst k x).cfg = s.cfg := rfl
@[simp] theorem State.setInst_insts : (s.setInst k x).insts = s.insts.set k x := rfl
@[simp] theorem State.setInst_active : (s.setInst k x).active = s.active := rfl
@[simp] theorem State.setInst_waiting : (s.setInst k x).waiting = s.waiting := rfl
@[simp] theorem State.setInst_host : (s.setInst k x).host = s.host := rfl
@[simp] theorem State.setInst_obs : (s.setInst k x).obs = s.obs := rfl
@[simp] theorem State.setInst_W : (s.setInst k x).W = s.W := rfl
@[simp] theorem State.setInst_capMax : (s.setInst k x).capMax = s.capMax := rfl

@[simp] theorem State.observe_cfg : (s.observe e).cfg = s.cfg := rfl
@[simp] theorem State.observe_insts : (s.observe e).insts = s.insts := rfl
@[simp] theorem State.observe_active : (s.observe e).active = s.active := rfl
@[simp] theorem State.observe_waiting : (s.observe e).waiting = s.waiting := rfl
@[simp] theorem State.observe_host : (s.observe e).host = s.host := rfl
@[simp] theorem State.observe_obs : (s.observe e).obs = s.obs ++ [e] := rfl
@[simp] theorem State.observe_W : (s.observe e).W = s.W := rfl
@[simp] theorem State.observe_capMax : (s.observe e).capMax = s.capMax := rfl

@[simp] theorem State.ended_cfg : (s.ended x c).cfg = s.cfg := rfl
@[simp] theorem State.ended_insts :
    (s.ended x c).insts = s.insts.set s.active { x with status := x.status.ended c } := rfl
@[simp] theorem State.ended_active : (s.ended x c).active = s.active := rfl
@[simp] theorem State.ended_waiting : (s.ended x c).waiting = s.waiting := rfl
@[simp] theorem State.ended_host : (s.ended x c).host = s.host := rfl
@[simp] theorem State.ended_obs : (s.ended x c).obs = s.obs ++ [.completed s.active c] := rfl
@[simp] theorem State.ended_W : (s.ended x c).W = s.W := rfl
@[simp] theorem State.ended_capMax : (s.ended x c).capMax = s.capMax := rfl

@[simp] theorem State.endsAs_cfg : (s.endsAs x).cfg = s.cfg := rfl
@[simp] theorem State.endsAs_insts : (s.endsAs x).insts = s.insts.set s.active x := rfl
@[simp] theorem State.endsAs_active : (s.endsAs x).active = s.active := rfl
@[simp] theorem State.endsAs_waiting : (s.endsAs x).waiting = s.waiting := rfl
@[simp] theorem State.endsAs_host : (s.endsAs x).host = s.host := rfl
@[simp] theorem State.endsAs_obs : (s.endsAs x).obs = s.obs ++ [.completed s.active x.status.code] := rfl

@[simp] theorem Status.ended_code : (st.ended c).code = c := rfl
@[simp] theorem Status.ended_fatal : (st.ended c).fatal = (st.fatal || c.isFatal) := rfl

@[simp] theorem State.W_eq : s.cfg.W = s.W := rfl

/-- Only ALLOC_FAILURE is fatal (R206). -/
theorem Code.isFatal_eq : c.isFatal = decide (c = .allocFailure) := by cases c <;> rfl

/-- The status of a command that ends on an instance that is not halted (R30, R206). -/
theorem Status.ended_of_not_fatal (h : st.fatal = false) : st.ended c = endStatus c := by
  simp [Status.ended, endStatus, h, Code.isFatal_eq]

/-- A halted instance stays halted whatever code a command ends with (R31). -/
theorem Status.ended_of_fatal (h : st.fatal = true) : st.ended c = { code := c, fatal := true } := by
  simp [Status.ended, h]

/-- `State.ended` in the terms claims use. -/
theorem State.ended_eq_endsAs (h : x.status.fatal = false) :
    s.ended x c = s.endsAs { x with status := endStatus c } := by
  simp [State.ended, State.endsAs, State.setInst, State.observe, Status.ended_of_not_fatal _ _ h, endStatus]

end Sys2Proof.Machine
end

