-- ==== Sys2Proof/Laws/Memory.lean ====
section
/-! SUPPORT. Storage: a read after a write, the canonical form, and that a storage in that form is fixed by what it
reads as. -/

namespace Sys2Proof.Machine

@[simp] theorem Memory.read_nil (j : Nat) : Memory.read [] j = 0 := rfl

theorem Memory.read_cons (c : Cell) (m : Memory) (j : Nat) :
    Memory.read (c :: m) j = if c.1 = j then c.2 else Memory.read m j := rfl

theorem Memory.wf_nil : Memory.wf [] := ⟨List.Pairwise.nil, by simp⟩

theorem Memory.wf_tail {c : Cell} {m : Memory} (h : Memory.wf (c :: m)) : Memory.wf m :=
  ⟨(List.pairwise_cons.1 h.1).2, fun d hd => h.2 d (List.mem_cons_of_mem _ hd)⟩

theorem Memory.wf_cons {c : Cell} {m : Memory} (h0 : c.2 ≠ 0) (hlt : ∀ d ∈ m, c.1 < d.1) (h : Memory.wf m) :
    Memory.wf (c :: m) := by
  refine ⟨List.pairwise_cons.2 ⟨hlt, h.1⟩, ?_⟩
  intro d hd
  rcases List.mem_cons.1 hd with rfl | hd
  · exact h0
  · exact h.2 d hd

/-- A word below every listed index is not listed. -/
theorem Memory.read_eq_zero_of_lt {m : Memory} {j : Nat} (h : ∀ d ∈ m, j < d.1) : m.read j = 0 := by
  induction m with
  | nil => rfl
  | cons c m ih =>
    have hc := h c (List.mem_cons_self ..)
    rw [Memory.read_cons, if_neg (by omega)]
    exact ih fun d hd => h d (List.mem_cons_of_mem _ hd)

/-- A word that does not read 0 is listed. -/
theorem Memory.mem_of_read_ne_zero {m : Memory} {j : Nat} (h : m.read j ≠ 0) : (j, m.read j) ∈ m := by
  induction m with
  | nil => simp at h
  | cons c m ih =>
    rw [Memory.read_cons] at h ⊢
    split
    · rename_i hc
      subst hc
      exact List.mem_cons_self ..
    · rename_i hc
      rw [if_neg hc] at h
      exact List.mem_cons_of_mem _ (ih h)

/-- A listed word reads as it is listed. -/
theorem Memory.read_of_mem {m : Memory} (hm : m.wf) {c : Cell} (h : c ∈ m) : m.read c.1 = c.2 := by
  induction m with
  | nil => simp at h
  | cons d m ih =>
    rw [Memory.read_cons]
    rcases List.mem_cons.1 h with rfl | h'
    · simp
    · have := (List.pairwise_cons.1 hm.1).1 c h'
      rw [if_neg (by omega)]
      exact ih (Memory.wf_tail hm) h'

/-- The cells a write may leave. -/
theorem Memory.mem_write {m : Memory} {j : Nat} {v : Word} {c : Cell} (h : c ∈ m.write j v) :
    (c = (j, v) ∧ v ≠ 0) ∨ c ∈ m := by
  induction m with
  | nil =>
    rw [Memory.write] at h
    split at h
    · simp at h
    · rename_i hv
      exact .inl ⟨List.mem_singleton.1 h, hv⟩
  | cons d m ih =>
    rw [Memory.write] at h
    split at h
    · split at h
      · exact .inr h
      · rename_i hv
        rcases List.mem_cons.1 h with h | h
        · exact .inl ⟨h, hv⟩
        · exact .inr h
    · split at h
      · split at h
        · exact .inr (List.mem_cons_of_mem _ h)
        · rename_i hv
          rcases List.mem_cons.1 h with h | h
          · exact .inl ⟨h, hv⟩
          · exact .inr (List.mem_cons_of_mem _ h)
      · rcases List.mem_cons.1 h with h | h
        · exact .inr (h ▸ List.mem_cons_self ..)
        · rcases ih h with h | h
          · exact .inl h
          · exact .inr (List.mem_cons_of_mem _ h)

/-- A write keeps the canonical form. -/
theorem Memory.write_wf {m : Memory} (hm : m.wf) (j : Nat) (v : Word) : (m.write j v).wf := by
  induction m with
  | nil =>
    rw [Memory.write]
    split
    · exact Memory.wf_nil
    · rename_i hv
      exact Memory.wf_cons hv (by simp) Memory.wf_nil
  | cons d m ih =>
    have hd := (List.pairwise_cons.1 hm.1).1
    rw [Memory.write]
    split
    · split
      · exact hm
      · rename_i hj hv
        refine Memory.wf_cons hv ?_ hm
        intro c hc
        rcases List.mem_cons.1 hc with rfl | hc
        · exact hj
        · exact Nat.lt_trans hj (hd c hc)
    · split
      · rename_i hj
        split
        · exact Memory.wf_tail hm
        · rename_i hv
          exact Memory.wf_cons hv (fun c hc => hj ▸ hd c hc) (Memory.wf_tail hm)
      · refine Memory.wf_cons (hm.2 d (List.mem_cons_self ..)) ?_ (ih (Memory.wf_tail hm))
        intro c hc
        rcases Memory.mem_write hc with ⟨rfl, -⟩ | hc
        · simp only
          omega
        · exact hd c hc

/-- A read of the word just written gives the value written. -/
theorem Memory.read_write_same {m : Memory} (hm : m.wf) (j : Nat) (v : Word) : (m.write j v).read j = v := by
  induction m with
  | nil =>
    rw [Memory.write]
    split
    · simp_all
    · simp [Memory.read_cons]
  | cons d m ih =>
    have hd := (List.pairwise_cons.1 hm.1).1
    rw [Memory.write]
    split
    · rename_i hj
      split
      · rename_i hv
        rw [hv]
        apply Memory.read_eq_zero_of_lt
        intro c hc
        rcases List.mem_cons.1 hc with rfl | hc
        · exact hj
        · exact Nat.lt_trans hj (hd c hc)
      · simp [Memory.read_cons]
    · split
      · rename_i hj
        split
        · rename_i hv
          rw [hv]
          exact Memory.read_eq_zero_of_lt fun c hc => hj ▸ hd c hc
        · simp [Memory.read_cons]
      · rw [Memory.read_cons, if_neg (by omega)]
        exact ih (Memory.wf_tail hm)

/-- A write leaves every other word alone. -/
theorem Memory.read_write_other (m : Memory) {i j : Nat} (v : Word) (h : i ≠ j) :
    (m.write j v).read i = m.read i := by
  induction m with
  | nil =>
    rw [Memory.write]
    split
    · rfl
    · simp [Memory.read_cons, Ne.symm h]
  | cons d m ih =>
    rw [Memory.write]
    split
    · split
      · rfl
      · simp [Memory.read_cons, Ne.symm h]
    · split
      · rename_i hj
        subst hj
        split
        · simp [Memory.read_cons, Ne.symm h]
        · simp [Memory.read_cons, Ne.symm h]
      · simp only [Memory.read_cons, ih]

theorem Memory.read_write {m : Memory} (hm : m.wf) (i j : Nat) (v : Word) :
    (m.write j v).read i = if i = j then v else m.read i := by
  split
  · rename_i h
    rw [h, Memory.read_write_same hm]
  · rename_i h
    exact Memory.read_write_other m v h

/-- A storage in canonical form is fixed by what it reads as. -/
theorem Memory.eq_of_read_eq {a b : Memory} (ha : a.wf) (hb : b.wf) (h : ∀ j, a.read j = b.read j) : a = b := by
  induction a generalizing b with
  | nil =>
    cases b with
    | nil => rfl
    | cons d b =>
      have := h d.1
      rw [Memory.read_of_mem hb (List.mem_cons_self ..)] at this
      exact absurd this.symm (hb.2 d (List.mem_cons_self ..))
  | cons c a ih =>
    cases b with
    | nil =>
      have := h c.1
      rw [Memory.read_of_mem ha (List.mem_cons_self ..)] at this
      exact absurd this (ha.2 c (List.mem_cons_self ..))
    | cons d b =>
      have hca := (List.pairwise_cons.1 ha.1).1
      have hdb := (List.pairwise_cons.1 hb.1).1
      have hc0 := ha.2 c (List.mem_cons_self ..)
      have hd0 := hb.2 d (List.mem_cons_self ..)
      have hc := h c.1
      have hd := h d.1
      rw [Memory.read_of_mem ha (List.mem_cons_self ..)] at hc
      rw [Memory.read_of_mem hb (List.mem_cons_self ..)] at hd
      have hkey : c.1 = d.1 := by
        rcases Nat.lt_trichotomy c.1 d.1 with hlt | heq | hgt
        · rw [Memory.read_eq_zero_of_lt (m := d :: b)] at hc
          · exact absurd hc hc0
          · intro e he
            rcases List.mem_cons.1 he with rfl | he
            · exact hlt
            · exact Nat.lt_trans hlt (hdb e he)
        · exact heq
        · rw [Memory.read_eq_zero_of_lt (m := c :: a)] at hd
          · exact absurd hd.symm hd0
          · intro e he
            rcases List.mem_cons.1 he with rfl | he
            · exact hgt
            · exact Nat.lt_trans hgt (hca e he)
      have hcd : c = d := by
        refine Prod.ext hkey ?_
        rw [hc, Memory.read_cons, if_pos hkey.symm]
      subst hcd
      congr 1
      refine ih (Memory.wf_tail ha) (Memory.wf_tail hb) fun j => ?_
      have hj := h j
      rw [Memory.read_cons, Memory.read_cons] at hj
      by_cases hcj : c.1 = j
      · subst hcj
        rw [Memory.read_eq_zero_of_lt hca, Memory.read_eq_zero_of_lt hdb]
      · rwa [if_neg hcj, if_neg hcj] at hj

/-- Words of a narrow storage are W-bit words. -/
theorem Memory.read_lt {W : Nat} {m : Memory} (h : m.Narrow W) (j : Nat) : (m.read j).toNat < 2 ^ W := by
  by_cases h0 : m.read j = 0
  · rw [h0]
    simp
  · exact h _ (Memory.mem_of_read_ne_zero h0)

/-- Bits of a narrow storage at W and above are 0. -/
theorem Memory.read_getLsbD {W : Nat} {m : Memory} (h : m.Narrow W) (j : Nat) {i : Nat} (hi : W ≤ i) :
    (m.read j).getLsbD i = false := by
  rw [← BitVec.testBit_toNat]
  exact Nat.testBit_lt_two_pow (Nat.lt_of_lt_of_le (Memory.read_lt h j) (Nat.pow_le_pow_right (by omega) hi))

theorem Memory.write_narrow {W : Nat} {m : Memory} (h : m.Narrow W) (j : Nat) {v : Word} (hv : v.toNat < 2 ^ W) :
    (m.write j v).Narrow W := by
  intro c hc
  rcases Memory.mem_write hc with ⟨rfl, -⟩ | hc
  · exact hv
  · exact h c hc

theorem Memory.write_below {cap : Nat} {m : Memory} (h : m.Below cap) {j : Nat} (hj : j < cap) (v : Word) :
    (m.write j v).Below cap := by
  intro c hc
  rcases Memory.mem_write hc with ⟨rfl, -⟩ | hc
  · exact hj
  · exact h c hc

/-- A word is fixed by its bits below W, in a narrow storage: equal bits make equal storages (R41). -/
theorem Memory.eq_of_bit_eq {W : Nat} (hW : 0 < W) {a b : Memory} (ha : a.wf) (hb : b.wf)
    (na : a.Narrow W) (nb : b.Narrow W) (h : ∀ j, a.bit W j = b.bit W j) : a = b := by
  refine Memory.eq_of_read_eq ha hb fun k => ?_
  refine BitVec.eq_of_getLsbD_eq fun i _ => ?_
  by_cases hi : i < W
  · have := h (k * W + i)
    rw [Memory.bit, Memory.bit, Nat.mul_comm, Nat.mul_add_div hW, Nat.div_eq_of_lt hi, Nat.mul_add_mod,
      Nat.mod_eq_of_lt hi, Nat.add_zero] at this
    exact this
  · rw [Memory.read_getLsbD na k (by omega), Memory.read_getLsbD nb k (by omega)]

/-- "Every bit outside the ever-written range reads as 0" beyond the capacity (R43). -/
theorem Memory.bit_of_below {W cap : Nat} (hW : 0 < W) {m : Memory} (h : m.Below cap) {j : Nat} (hj : cap * W ≤ j) :
    m.bit W j = false := by
  have hk : m.read (j / W) = 0 := by
    by_contra h0
    have h1 := h _ (Memory.mem_of_read_ne_zero h0)
    have h2 := (Nat.le_div_iff_mul_le hW).2 hj
    simp only at h1
    omega
  simp [Memory.bit, hk]

end Sys2Proof.Machine
end

