-- ==== Sys2Proof/Laws/Masks.lean ====
section
/-! SUPPORT. The masks bit by bit (R80 to R82), and the arithmetic of bit indices (R9, R41). -/

namespace Sys2Proof

theorem Width.bits_pos (w : Width) : 0 < w.bits := by cases w <;> decide

theorem Width.bits_le (w : Width) : w.bits ≤ 32 := by cases w <;> decide

end Sys2Proof

namespace Sys2Proof.Machine

/-- A word is a W-bit word exactly when its bits at W and above are 0. -/
theorem toNat_lt_iff_getLsbD {W : Nat} (v : Word) : v.toNat < 2 ^ W ↔ ∀ i, W ≤ i → v.getLsbD i = false := by
  constructor
  · intro h i hi
    rw [← BitVec.testBit_toNat]
    exact Nat.testBit_lt_two_pow (Nat.lt_of_lt_of_le h (Nat.pow_le_pow_right (by omega) hi))
  · intro h
    apply Nat.lt_pow_two_of_testBit
    intro i hi
    rw [BitVec.testBit_toNat]
    exact h i hi

@[simp] theorem lowmask_getLsbD {n : Nat} (hn : n ≤ 32) (i : Nat) : (lowmask n).getLsbD i = decide (i < n) := by
  rw [lowmask, BitVec.getLsbD_ofNat, Nat.testBit_two_pow_sub_one]
  by_cases h : i < n
  · simp [h]
    omega
  · simp [h]

theorem bitmask_getLsbD {k : Nat} (hk : k < 32) (i : Nat) : (bitmask k).getLsbD i = decide (i = k) := by
  rw [bitmask, BitVec.getLsbD_ofNat, Nat.testBit_two_pow]
  by_cases h : k = i <;> simp [h] <;> omega

theorem shiftLeftW_getLsbD {W : Nat} (hW : W ≤ 32) (a : Word) (s i : Nat) :
    (shiftLeftW W a s).getLsbD i = (decide (s ≤ i) && decide (i < W) && a.getLsbD (i - s)) := by
  rw [shiftLeftW, BitVec.getLsbD_and, BitVec.getLsbD_shiftLeft, lowmask_getLsbD hW]
  by_cases h1 : i < s <;> by_cases h2 : i < W
  · have : ¬ s ≤ i := by omega
    simp [h1, this]
  · simp [h1, h2]
  · have : i < 32 := by omega
    simp [h1, h2, this]
    intro _; omega
  · simp [h2]

theorem notW_getLsbD {W : Nat} (hW : W ≤ 32) (m : Word) {i : Nat} (hi : i < W) :
    (notW W m).getLsbD i = !m.getLsbD i := by
  rw [notW, BitVec.getLsbD_xor, lowmask_getLsbD hW]
  simp [hi]

theorem spanmask_getLsbD {W off n : Nat} (hW : W ≤ 32) (h : off + n ≤ W) (i : Nat) :
    (spanmask W off n).getLsbD i = decide (off ≤ i ∧ i < off + n) := by
  rw [spanmask, BitVec.getLsbD_and, shiftLeftW_getLsbD hW, lowmask_getLsbD hW, lowmask_getLsbD (by omega)]
  by_cases h1 : off ≤ i <;> by_cases h2 : i < off + n
  · have h3 : i < W := by omega
    have h4 : i - off < n := by omega
    simp [h1, h2, h3, h4]
  · have h4 : ¬ i - off < n := by omega
    simp [h1, h2, h4]
  · simp [h1]
  · simp [h1]

theorem highmask_getLsbD {W off : Nat} (hW : W ≤ 32) (h : off ≤ W) (i : Nat) :
    (highmask W off).getLsbD i = decide (off ≤ i ∧ i < W) := by
  rw [highmask, BitVec.getLsbD_xor, lowmask_getLsbD hW, lowmask_getLsbD (by omega)]
  by_cases h1 : i < W <;> by_cases h2 : i < off <;> simp [h1, h2] <;> omega

/-- `blend` takes the masked bits from the new word and the others from the old one (R120). -/
theorem blend_getLsbD {W : Nat} (hW : W ≤ 32) (old mask new : Word) {i : Nat} (hi : i < W) :
    (blend W old mask new).getLsbD i = if mask.getLsbD i then new.getLsbD i else old.getLsbD i := by
  rw [blend, BitVec.getLsbD_or, BitVec.getLsbD_and, BitVec.getLsbD_and, notW_getLsbD hW mask hi]
  cases mask.getLsbD i <;> simp

theorem blend_lt {W : Nat} {old mask : Word} (new : Word) (ho : old.toNat < 2 ^ W)
    (hm : mask.toNat < 2 ^ W) : (blend W old mask new).toNat < 2 ^ W := by
  rw [toNat_lt_iff_getLsbD] at *
  intro i hi
  rw [blend, BitVec.getLsbD_or, BitVec.getLsbD_and, BitVec.getLsbD_and, ho i hi, hm i hi]
  simp

theorem lowmask_lt {W n : Nat} (hn : n ≤ W) (hW : W ≤ 32) : (lowmask n).toNat < 2 ^ W := by
  rw [toNat_lt_iff_getLsbD]
  intro i hi
  rw [lowmask_getLsbD (by omega)]
  simp; omega

theorem spanmask_lt {W off n : Nat} (hW : W ≤ 32) (h : off + n ≤ W) : (spanmask W off n).toNat < 2 ^ W := by
  rw [toNat_lt_iff_getLsbD]
  intro i hi
  rw [spanmask_getLsbD hW h]
  simp; omega

theorem highmask_lt {W off : Nat} (hW : W ≤ 32) (h : off ≤ W) : (highmask W off).toNat < 2 ^ W := by
  rw [toNat_lt_iff_getLsbD]
  intro i hi
  rw [highmask_getLsbD hW h]
  simp; omega

/-! ### Bit indices -/

/-- Bit `k * W + r` is bit r of word k (R41). -/
theorem Memory.bit_at {W r : Nat} (m : Memory) (k : Nat) (hr : r < W) :
    m.bit W (k * W + r) = (m.read k).getLsbD r := by
  have hW : 0 < W := by omega
  rw [Memory.bit, Nat.mul_comm, Nat.mul_add_div hW, Nat.div_eq_of_lt hr, Nat.mul_add_mod, Nat.mod_eq_of_lt hr,
    Nat.add_zero]

/-- Every bit index is a word index and an offset (R9). -/
theorem index_split {W : Nat} (hW : 0 < W) (j : Nat) : ∃ k r, j = k * W + r ∧ r < W :=
  ⟨j / W, j % W, by rw [Nat.mul_comm, Nat.div_add_mod], Nat.mod_lt _ hW⟩

theorem index_div {W r : Nat} (k : Nat) (hr : r < W) : (k * W + r) / W = k := by
  have hW : 0 < W := by omega
  rw [Nat.mul_comm, Nat.mul_add_div hW, Nat.div_eq_of_lt hr, Nat.add_zero]

theorem index_mod {W r : Nat} (k : Nat) (hr : r < W) : (k * W + r) % W = r := by
  rw [Nat.mul_comm, Nat.mul_add_mod, Nat.mod_eq_of_lt hr]

/-- A range inside one word (R9: aligned, or unaligned in a single word). -/
theorem range_in_word {W k off n q r : Nat} (h : off + n ≤ W) (hr : r < W) :
    (k * W + off ≤ q * W + r ∧ q * W + r < k * W + off + n) ↔ (q = k ∧ off ≤ r ∧ r < off + n) := by
  rcases Nat.lt_trichotomy q k with hlt | rfl | hgt
  · have := Nat.mul_le_mul_right W (Nat.succ_le_of_lt hlt)
    rw [Nat.succ_mul] at this
    omega
  · omega
  · have := Nat.mul_le_mul_right W (Nat.succ_le_of_lt hgt)
    rw [Nat.succ_mul] at this
    omega

/-- A range split over two words (R9): "Split holds exactly when `off + n > W`". -/
theorem range_split {W k off n q r : Nat} (ho : off < W) (hn : n ≤ W) (h : W < off + n) (hr : r < W) :
    (k * W + off ≤ q * W + r ∧ q * W + r < k * W + off + n) ↔
      ((q = k ∧ off ≤ r) ∨ (q = k + 1 ∧ r < off + n - W)) := by
  rcases Nat.lt_trichotomy q k with hlt | rfl | hgt
  · have := Nat.mul_le_mul_right W (Nat.succ_le_of_lt hlt)
    rw [Nat.succ_mul] at this
    omega
  · omega
  · rcases Nat.lt_or_ge q (k + 2) with h2 | h2
    · have : q = k + 1 := by omega
      subst this
      rw [Nat.succ_mul]
      omega
    · have := Nat.mul_le_mul_right W h2
      rw [Nat.add_mul] at this
      omega

/-- The end offset of R9 tells the single-word case from the split case. -/
theorem endOffset_ge_iff {W k off n : Nat} (ho : off < W) (h1 : 1 ≤ n) (hn : n ≤ W) :
    off ≤ (k * W + off + n - 1) % W ↔ off + n ≤ W := by
  have hW : 0 < W := by omega
  have he : k * W + off + n - 1 = k * W + (off + n - 1) := by omega
  rw [he, Nat.mul_comm, Nat.mul_add_mod]
  rcases Nat.lt_or_ge (off + n - 1) W with h | h
  · rw [Nat.mod_eq_of_lt h]
    omega
  · rw [Nat.mod_eq_sub_mod h, Nat.mod_eq_of_lt (by omega)]
    omega

theorem State.W_pos (s : State) : 0 < s.W := Width.bits_pos _

theorem State.W_le (s : State) : s.W ≤ 32 := Width.bits_le _

end Sys2Proof.Machine
end

