-- ==== Sys2Proof/Laws/Datapath.lean ====
section
/-! SUPPORT. What each datapath does, bit by bit: one lemma per datapath that says everything it does to the bits, and
one that it keeps the form of the storage (R100, R103, R120, R140, R154). -/

namespace Sys2Proof.Machine

/-! ### One word written -/

/-- Writing word k, read bit by bit. -/
theorem Memory.bit_write {W r : Nat} {m : Memory} (hm : m.wf) (k : Nat) (v : Word) (q : Nat) (hr : r < W) :
    (m.write k v).bit W (q * W + r) = if q = k then v.getLsbD r else m.bit W (q * W + r) := by
  rw [Memory.bit_at _ _ hr, Memory.bit_at _ _ hr, Memory.read_write hm]
  split <;> rfl

/-! ### Extractor -/

/-- The extractor, bit by bit: "Bits n to W − 1 of the result are 0" (R103). -/
theorem extract_getLsbD {W : Nat} (hW0 : 0 < W) (hW : W ≤ 32) {m : Memory} (hm : m.Narrow W) {start n : Nat}
    (h1 : 1 ≤ n) (hn : n ≤ W) (i : Nat) :
    (extract W m start n).getLsbD i = (decide (i < n) && m.bit W (start + i)) := by
  obtain ⟨k, off, rfl, ho⟩ := index_split hW0 start
  rw [extract]
  simp only [index_div k ho, index_mod k ho]
  by_cases hin : i < n
  swap
  · split
    · simp [BitVec.getLsbD_and, lowmask_getLsbD (Nat.le_trans hn hW), hin]
    · split <;> simp [BitVec.getLsbD_and, lowmask_getLsbD (Nat.le_trans hn hW), hin]
  · rw [show k * W + off + i = k * W + (off + i) by omega]
    split
    · rename_i h0
      subst h0
      rw [Memory.bit_at _ _ (by omega), BitVec.getLsbD_and, lowmask_getLsbD (Nat.le_trans hn hW)]
      simp [hin]
    · split
      · rename_i h0 he
        rw [endOffset_ge_iff ho h1 hn] at he
        rw [Memory.bit_at _ _ (by omega), BitVec.getLsbD_and, lowmask_getLsbD (Nat.le_trans hn hW),
          BitVec.getLsbD_ushiftRight]
        simp [hin]
      · rename_i h0 he
        rw [endOffset_ge_iff ho h1 hn] at he
        rw [BitVec.getLsbD_and, lowmask_getLsbD (Nat.le_trans hn hW), BitVec.getLsbD_or, BitVec.getLsbD_ushiftRight,
          shiftLeftW_getLsbD hW]
        rcases Nat.lt_or_ge (off + i) W with h | h
        · rw [Memory.bit_at _ _ h]
          have : ¬ W - off ≤ i := by omega
          simp [hin, this]
        · have hidx : k * W + (off + i) = (k + 1) * W + (off + i - W) := by
            rw [Nat.succ_mul]
            omega
          rw [hidx, Memory.bit_at _ _ (by omega), Memory.read_getLsbD hm _ h]
          have h2 : W - off ≤ i := by omega
          have h3 : i < W := by omega
          have h4 : i - (W - off) = off + i - W := by omega
          simp [hin, h2, h3, h4]

/-! ### Compositor -/

theorem shiftLeftW_field {W off n : Nat} (hW : W ≤ 32) (hn : n ≤ W) (d : Word) (r : Nat) :
    (shiftLeftW W (d &&& lowmask n) off).getLsbD r =
      (decide (off ≤ r ∧ r < W ∧ r < off + n) && d.getLsbD (r - off)) := by
  rw [shiftLeftW_getLsbD hW, BitVec.getLsbD_and, lowmask_getLsbD (Nat.le_trans hn hW)]
  by_cases h1 : off ≤ r
  · have h2 : (r - off < n) ↔ (r < off + n) := by omega
    simp only [h1, h2]
    by_cases h3 : r < W <;> by_cases h4 : r < off + n <;> simp [h3, h4]
  · simp [h1]

/-- The compositor keeps the form of the storage, its word size and its bound (R22, R43, R120). -/
theorem splice_form {W cap : Nat} (hW0 : 0 < W) (hW : W ≤ 32) {m : Memory} (hm : m.wf) (hnar : m.Narrow W)
    (hb : m.Below cap) {start n : Nat} (h1 : 1 ≤ n) (hn : n ≤ W) (hr : start + n ≤ cap * W) (d : Word) :
    (splice W m start d n).wf ∧ (splice W m start d n).Narrow W ∧ (splice W m start d n).Below cap := by
  obtain ⟨k, off, rfl, ho⟩ := index_split hW0 start
  have hk : k < cap := by
    by_contra hc
    have := Nat.mul_le_mul_right W (Nat.le_of_not_lt hc)
    omega
  rw [splice]
  simp only [index_div k ho, index_mod k ho]
  split
  · have hlt := blend_lt (old := m.read k) (d &&& lowmask n) (Memory.read_lt hnar k) (lowmask_lt hn hW)
    exact ⟨Memory.write_wf hm _ _, Memory.write_narrow hnar _ hlt, Memory.write_below hb hk _⟩
  · split
    · rename_i he
      rw [endOffset_ge_iff ho h1 hn] at he
      have hlt := blend_lt (old := m.read k) (shiftLeftW W (d &&& lowmask n) off) (Memory.read_lt hnar k)
        (spanmask_lt hW he)
      exact ⟨Memory.write_wf hm _ _, Memory.write_narrow hnar _ hlt, Memory.write_below hb hk _⟩
    · rename_i he
      rw [endOffset_ge_iff ho h1 hn] at he
      have hk1 : k + 1 < cap := by
        by_contra hc
        have := Nat.mul_le_mul_right W (Nat.le_of_not_lt hc)
        rw [Nat.succ_mul] at this
        omega
      have hlt := blend_lt (old := m.read k) (shiftLeftW W (d &&& lowmask n) off) (Memory.read_lt hnar k)
        (highmask_lt hW (Nat.le_of_lt ho))
      have w0 := Memory.write_wf hm k (blend W (m.read k) (highmask W off) (shiftLeftW W (d &&& lowmask n) off))
      have n0 := Memory.write_narrow hnar k hlt
      have b0 := Memory.write_below hb hk (blend W (m.read k) (highmask W off) (shiftLeftW W (d &&& lowmask n) off))
      exact ⟨Memory.write_wf w0 _ _,
        Memory.write_narrow n0 _ (blend_lt _ (Memory.read_lt n0 _) (lowmask_lt (by omega) hW)),
        Memory.write_below b0 hk1 _⟩

/-- The compositor, bit by bit: bits `[start, start + n)` take the low n bits of the data, and "No bit outside the target
range `[start, start + n)` changes" (R120). -/
theorem splice_bit {W : Nat} (hW0 : 0 < W) (hW : W ≤ 32) {m : Memory} (hm : m.wf) {start n : Nat} (h1 : 1 ≤ n)
    (hn : n ≤ W) (d : Word) (j : Nat) :
    (splice W m start d n).bit W j = replaced W m start n (fun i => d.getLsbD i) j := by
  obtain ⟨k, off, rfl, ho⟩ := index_split hW0 start
  obtain ⟨q, r, rfl, hr⟩ := index_split hW0 j
  have hn32 := Nat.le_trans hn hW
  rw [splice, replaced]
  simp only [index_div k ho, index_mod k ho]
  split
  · rename_i h0
    subst h0
    have hrange := range_in_word (k := k) (off := 0) (n := n) (q := q) (by omega) hr
    simp only [Memory.bit_write hm _ _ _ hr, hrange]
    by_cases hq : q = k
    · subst hq
      rw [if_pos rfl, blend_getLsbD hW _ _ _ hr, lowmask_getLsbD hn32, Memory.bit_at _ _ hr]
      by_cases hrn : r < n
      · have : q * W + r - (q * W + 0) = r := by omega
        simp [hrn, BitVec.getLsbD_and, lowmask_getLsbD hn32]
      · simp [hrn]
    · simp [hq]
  · split
    · rename_i he
      rw [endOffset_ge_iff ho h1 hn] at he
      have hrange := range_in_word (k := k) (q := q) he hr
      simp only [Memory.bit_write hm _ _ _ hr, hrange]
      by_cases hq : q = k
      · subst hq
        rw [if_pos rfl, blend_getLsbD hW _ _ _ hr, spanmask_getLsbD hW he, Memory.bit_at _ _ hr,
          shiftLeftW_field hW hn]
        by_cases h2 : off ≤ r ∧ r < off + n
        · have : q * W + r - (q * W + off) = r - off := by omega
          simp [h2, hr, this]
        · simp [h2]
      · simp [hq]
    · rename_i he
      rw [endOffset_ge_iff ho h1 hn] at he
      have w0 := Memory.write_wf hm k (blend W (m.read k) (highmask W off) (shiftLeftW W (d &&& lowmask n) off))
      have hrange := range_split (k := k) (q := q) ho hn (by omega) hr
      simp only [Memory.bit_write w0 _ _ _ hr, Memory.bit_write hm _ _ _ hr, hrange]
      by_cases hq1 : q = k + 1
      · subst hq1
        rw [if_pos rfl, blend_getLsbD hW _ _ _ hr, lowmask_getLsbD (by omega),
          Memory.read_write_other _ _ (by omega), Memory.bit_at _ _ hr]
        by_cases h2 : r < n - (W - off)
        · have h3 : r < off + n - W := by omega
          have h4 : (k + 1) * W + r - (k * W + off) = W - off + r := by
            rw [Nat.succ_mul]
            omega
          have h5 : W - off + r < n := by omega
          simp [h2, h3, h4, h5, BitVec.getLsbD_and, lowmask_getLsbD hn32]
        · have h3 : ¬ r < off + n - W := by omega
          simp [h2, h3]
      · by_cases hq : q = k
        · subst hq
          rw [if_neg hq1, if_pos rfl, blend_getLsbD hW _ _ _ hr, highmask_getLsbD hW (by omega),
            Memory.bit_at _ _ hr, shiftLeftW_field hW hn]
          by_cases h2 : off ≤ r
          · have h3 : q * W + r - (q * W + off) = r - off := by omega
            have h4 : r < off + n := by omega
            simp [h2, hr, h3, h4]
          · simp [h2]
        · simp [hq, hq1]

/-! ### Bulk write -/

theorem storeWords_form {W cap : Nat} {m : Memory} (hm : m.wf) (hnar : m.Narrow W) (hb : m.Below cap) {k : Nat}
    {e : List Word} (he : ∀ w ∈ e, w.toNat < 2 ^ W) (hk : k + e.length ≤ cap) :
    (storeWords m k e).wf ∧ (storeWords m k e).Narrow W ∧ (storeWords m k e).Below cap := by
  induction e generalizing m k with
  | nil => exact ⟨hm, hnar, hb⟩
  | cons w ws ih =>
    simp only [List.length_cons] at hk
    exact ih (Memory.write_wf hm _ _) (Memory.write_narrow hnar _ (he w (List.mem_cons_self ..)))
      (Memory.write_below hb (by omega) _) (fun v hv => he v (List.mem_cons_of_mem _ hv)) (by omega)

theorem spliceWords_form {W cap : Nat} (hW0 : 0 < W) (hW : W ≤ 32) {m : Memory} (hm : m.wf) (hnar : m.Narrow W)
    (hb : m.Below cap) {start : Nat} {e : List Word} (hr : start + e.length * W ≤ cap * W) :
    (spliceWords W m start e).wf ∧ (spliceWords W m start e).Narrow W ∧ (spliceWords W m start e).Below cap := by
  induction e generalizing m start with
  | nil => exact ⟨hm, hnar, hb⟩
  | cons w ws ih =>
    simp only [List.length_cons, Nat.succ_mul] at hr
    obtain ⟨a, b, c⟩ := splice_form hW0 hW hm hnar hb (start := start) hW0 (Nat.le_refl W) (by omega) w
    exact ih a b c (by omega)

theorem storeWords_bit {W : Nat} (hW0 : 0 < W) {m : Memory} (hm : m.wf) (k : Nat) (e : List Word) (j : Nat) :
    (storeWords m k e).bit W j = replaced W m (k * W) (e.length * W) (arrayBit W e) j := by
  obtain ⟨q, r, rfl, hr⟩ := index_split hW0 j
  induction e generalizing m k with
  | nil =>
    simp only [storeWords, replaced, List.length_nil, Nat.zero_mul]
    rw [if_neg (by omega)]
  | cons w ws ih =>
    have hrw : (k + 1) * W = k * W + W := Nat.succ_mul k W
    rw [storeWords, ih (Memory.write_wf hm _ _), replaced, replaced, Memory.bit_write hm _ _ _ hr, hrw,
      List.length_cons, Nat.succ_mul]
    rcases Nat.lt_trichotomy q k with hlt | rfl | hgt
    · have := Nat.mul_le_mul_right W (Nat.succ_le_of_lt hlt)
      rw [Nat.succ_mul] at this
      rw [if_neg (by omega), if_neg (by omega), if_neg (by omega)]
    · rw [if_neg (by omega), if_pos rfl, if_pos (by omega)]
      have h2 : q * W + r - q * W = 0 * W + r := by omega
      rw [h2, arrayBit, index_div 0 hr, index_mod 0 hr]
      rfl
    · have := Nat.mul_le_mul_right W (Nat.succ_le_of_lt hgt)
      rw [Nat.succ_mul] at this
      rw [if_neg (show ¬ q = k by omega)]
      by_cases hin : q * W + r < k * W + W + ws.length * W
      · rw [if_pos (by omega), if_pos (by omega)]
        have h2 : q * W + r - (k * W + W) = (q - k - 1) * W + r := by
          rw [Nat.sub_mul, Nat.sub_mul]
          omega
        have h3 : q * W + r - k * W = (q - k - 1 + 1) * W + r := by
          rw [Nat.succ_mul, Nat.sub_mul, Nat.sub_mul]
          omega
        rw [h2, h3, arrayBit, arrayBit, index_div _ hr, index_mod _ hr, index_div _ hr, index_mod _ hr]
        rfl
      · rw [if_neg (by omega), if_neg (by omega)]

/-- Two replacements of adjacent ranges are one (R140, R154). -/
theorem replaced_append {W : Nat} {m m1 : Memory} {start a b : Nat} {f g h : Nat → Bool}
    (hm1 : ∀ j, m1.bit W j = replaced W m start a f j)
    (hf : ∀ i, i < a → f i = h i) (hg : ∀ i, i < b → g i = h (a + i)) (j : Nat) :
    replaced W m1 (start + a) b g j = replaced W m start (a + b) h j := by
  rw [replaced, replaced]
  by_cases h2 : start + a ≤ j ∧ j < start + a + b
  · rw [if_pos h2, if_pos (by omega), hg _ (by omega)]
    congr 1
    omega
  · rw [if_neg h2, hm1, replaced]
    by_cases h3 : start ≤ j ∧ j < start + a
    · rw [if_pos h3, if_pos (by omega), hf _ (by omega)]
    · rw [if_neg h3, if_neg (by omega)]

theorem replaced_congr {W : Nat} {m : Memory} {start n : Nat} {f g : Nat → Bool} (h : ∀ i, i < n → f i = g i)
    (j : Nat) : replaced W m start n f j = replaced W m start n g j := by
  rw [replaced, replaced]
  by_cases h2 : start ≤ j ∧ j < start + n
  · rw [if_pos h2, if_pos h2, h _ (by omega)]
  · rw [if_neg h2, if_neg h2]

theorem replaced_zero {W : Nat} {m : Memory} {start : Nat} (f : Nat → Bool) (j : Nat) :
    replaced W m start 0 f j = m.bit W j := by
  rw [replaced, if_neg (by omega)]

theorem arrayBit_cons {W : Nat} (hW0 : 0 < W) (w : Word) (ws : List Word) (i : Nat) :
    arrayBit W (w :: ws) (W + i) = arrayBit W ws i := by
  rw [arrayBit, arrayBit, Nat.add_div_left _ hW0, Nat.add_mod_left]
  rfl

theorem arrayBit_head {W : Nat} (w : Word) (ws : List Word) {i : Nat} (hi : i < W) :
    arrayBit W (w :: ws) i = w.getLsbD i := by
  rw [arrayBit, Nat.div_eq_of_lt hi, Nat.mod_eq_of_lt hi]
  rfl

theorem splice_wf {W : Nat} {m : Memory} (hm : m.wf) (start : Nat) (d : Word) (n : Nat) :
    (splice W m start d n).wf := by
  rw [splice]
  split
  · exact Memory.write_wf hm _ _
  · split
    · exact Memory.write_wf hm _ _
    · exact Memory.write_wf (Memory.write_wf hm _ _) _ _

theorem storeWords_wf {m : Memory} (hm : m.wf) (k : Nat) (e : List Word) : (storeWords m k e).wf := by
  induction e generalizing m k with
  | nil => exact hm
  | cons w ws ih => exact ih (Memory.write_wf hm _ _) _

theorem spliceWords_wf {W : Nat} {m : Memory} (hm : m.wf) (start : Nat) (e : List Word) :
    (spliceWords W m start e).wf := by
  induction e generalizing m start with
  | nil => exact hm
  | cons w ws ih => exact ih (splice_wf hm _ _ _) _

theorem spliceWords_bit {W : Nat} (hW0 : 0 < W) (hW : W ≤ 32) {m : Memory} (hm : m.wf) (start : Nat) (e : List Word)
    (j : Nat) : (spliceWords W m start e).bit W j = replaced W m start (e.length * W) (arrayBit W e) j := by
  induction e generalizing m start with
  | nil => rw [spliceWords, List.length_nil, Nat.zero_mul, replaced_zero]
  | cons w ws ih =>
    rw [spliceWords, ih (splice_wf hm _ _ _), List.length_cons, Nat.succ_mul, Nat.add_comm (ws.length * W) W]
    exact replaced_append (splice_bit hW0 hW hm hW0 (Nat.le_refl W) w)
      (fun i hi => (arrayBit_head w ws hi).symm) (fun i _ => (arrayBit_cons hW0 w ws i).symm) j

theorem arrayBit_take {W q : Nat} (e : List Word) {i : Nat} (hi : i < q * W) :
    arrayBit W (e.take q) i = arrayBit W e i := by
  have hq : i / W < q := Nat.div_lt_of_lt_mul (by rwa [Nat.mul_comm] at hi)
  rw [arrayBit, arrayBit, List.getD_eq_getElem?_getD, List.getD_eq_getElem?_getD, List.getElem?_take_of_lt hq]

theorem wordsFor_ge {n W : Nat} (hW0 : 0 < W) : n / W ≤ wordsFor n W := by
  rw [wordsFor]
  exact Nat.div_le_div_right (by omega)

/-- The bulk write keeps the form of the storage, its word size and its bound (R140). -/
theorem bulkWrite_form {W cap : Nat} (hW0 : 0 < W) (hW : W ≤ 32) {m : Memory} (hm : m.wf) (hnar : m.Narrow W)
    (hb : m.Below cap) {start n : Nat} (hr : start + n ≤ cap * W) {e : List Word} (he : ∀ w ∈ e, w.toNat < 2 ^ W) :
    (bulkWrite W m start e n).wf ∧ (bulkWrite W m start e n).Narrow W ∧ (bulkWrite W m start e n).Below cap := by
  have hdm : n / W * W + n % W = n := by
    rw [Nat.mul_comm]
    exact Nat.div_add_mod n W
  have hlen : (e.take (n / W)).length * W ≤ n / W * W :=
    Nat.mul_le_mul_right W (by rw [List.length_take]; exact Nat.min_le_left ..)
  have hwhole : ∀ w : Memory, w = (if start % W = 0 then storeWords m (start / W) (e.take (n / W))
      else spliceWords W m start (e.take (n / W))) → w.wf ∧ w.Narrow W ∧ w.Below cap := by
    rintro w rfl
    split
    · rename_i h0
      refine storeWords_form hm hnar hb (fun v hv => he v (List.mem_of_mem_take hv)) ?_
      have hs : start / W * W = start := Nat.div_mul_cancel (Nat.dvd_of_mod_eq_zero h0)
      refine Nat.le_of_mul_le_mul_right ?_ hW0
      rw [Nat.add_mul, hs]
      omega
    · exact spliceWords_form hW0 hW hm hnar hb (by omega)
  obtain ⟨a, b, c⟩ := hwhole _ rfl
  rw [bulkWrite]
  split
  · exact ⟨a, b, c⟩
  · exact splice_form hW0 hW a b c (by omega) (Nat.le_of_lt (Nat.mod_lt _ hW0)) (by omega) _

theorem bulkWrite_wf {W : Nat} {m : Memory} (hm : m.wf) (start : Nat) (e : List Word) (n : Nat) :
    (bulkWrite W m start e n).wf := by
  have hwhole : ∀ w : Memory, w = (if start % W = 0 then storeWords m (start / W) (e.take (n / W))
      else spliceWords W m start (e.take (n / W))) → w.wf := by
    rintro w rfl
    split
    · exact storeWords_wf hm _ _
    · exact spliceWords_wf hm _ _
  rw [bulkWrite]
  split
  · exact hwhole _ rfl
  · exact splice_wf (hwhole _ rfl) _ _ _

/-- The bulk write, bit by bit: "`for i in 0 .. n-1:  Bit(start + i) <- e[i div W][i mod W]`", and every other bit
unchanged (R140). -/
theorem bulkWrite_bit {W : Nat} (hW0 : 0 < W) (hW : W ≤ 32) {m : Memory} (hm : m.wf) {start n : Nat} {e : List Word}
    (hlen : n / W ≤ e.length) (j : Nat) :
    (bulkWrite W m start e n).bit W j = replaced W m start n (arrayBit W e) j := by
  have hdm : n / W * W + n % W = n := by
    rw [Nat.mul_comm]
    exact Nat.div_add_mod n W
  have htake : (e.take (n / W)).length = n / W := by
    rw [List.length_take]
    omega
  have hwhole : ∀ w : Memory, w = (if start % W = 0 then storeWords m (start / W) (e.take (n / W))
      else spliceWords W m start (e.take (n / W))) →
      w.wf ∧ ∀ j, w.bit W j = replaced W m start (n / W * W) (arrayBit W e) j := by
    rintro w rfl
    split
    · rename_i h0
      have hs : start / W * W = start := Nat.div_mul_cancel (Nat.dvd_of_mod_eq_zero h0)
      refine ⟨storeWords_wf hm _ _, fun j => ?_⟩
      rw [storeWords_bit hW0 hm, htake, hs]
      exact replaced_congr (fun i hi => arrayBit_take e hi) j
    · refine ⟨spliceWords_wf hm _ _, fun j => ?_⟩
      rw [spliceWords_bit hW0 hW hm, htake]
      exact replaced_congr (fun i hi => arrayBit_take e hi) j
  obtain ⟨hwf, hbit⟩ := hwhole _ rfl
  rw [bulkWrite]
  split
  · rename_i h0
    rw [hbit, show n / W * W = n by omega]
  · have hr := Nat.mod_lt n hW0
    rw [splice_bit hW0 hW hwf (by omega) (Nat.le_of_lt hr)]
    conv => rhs; rw [← hdm]
    refine replaced_append hbit (fun _ _ => rfl) (fun i hi => ?_) j
    have hi' : i < W := by omega
    rw [arrayBit, index_div _ hi', index_mod _ hi']

/-! ### Stream copy -/

theorem copyWords_wf {W : Nat} {src : Memory} (count : Nat) {m : Memory} (hm : m.wf) (d k : Nat) :
    (copyWords W src count m d k).wf := by
  induction count generalizing m d k with
  | zero => exact hm
  | succ c ih => exact ih (splice_wf hm _ _ _) _ _

theorem copyWords_form {W cap : Nat} (hW0 : 0 < W) (hW : W ≤ 32) {src : Memory} (count : Nat) {m : Memory} (hm : m.wf)
    (hnar : m.Narrow W) (hb : m.Below cap) {d : Nat} (hr : d + count * W ≤ cap * W) (k : Nat) :
    (copyWords W src count m d k).wf ∧ (copyWords W src count m d k).Narrow W ∧
      (copyWords W src count m d k).Below cap := by
  induction count generalizing m d k with
  | zero => exact ⟨hm, hnar, hb⟩
  | succ c ih =>
    rw [Nat.succ_mul] at hr
    obtain ⟨x, y, z⟩ := splice_form hW0 hW hm hnar hb (start := d) hW0 (Nat.le_refl W) (by omega) (src.read k)
    exact ih x y z (by omega) _

theorem copyWords_bit {W : Nat} (hW0 : 0 < W) (hW : W ≤ 32) {src : Memory} (count : Nat) {m : Memory} (hm : m.wf)
    (d k : Nat) (j : Nat) :
    (copyWords W src count m d k).bit W j = replaced W m d (count * W) (fun i => src.bit W (k * W + i)) j := by
  induction count generalizing m d k with
  | zero => rw [copyWords, Nat.zero_mul, replaced_zero]
  | succ c ih =>
    rw [copyWords, ih (splice_wf hm _ _ _), Nat.succ_mul c, Nat.add_comm (c * W) W]
    refine replaced_append (splice_bit hW0 hW hm hW0 (Nat.le_refl W) _) (fun i hi => ?_) (fun i _ => ?_) j
    · rw [Memory.bit_at _ _ hi]
    · rw [Nat.succ_mul, Nat.add_assoc]

/-- After the prefix of R154 the source index is word-aligned, unless the whole copy is the prefix. -/
theorem prefix_aligned {W : Nat} (hW0 : 0 < W) (s n : Nat) (h : min n ((W - s % W) % W) < n) :
    (s + min n ((W - s % W) % W)) / W * W = s + min n ((W - s % W) % W) := by
  refine Nat.div_mul_cancel ?_
  obtain ⟨k, off, rfl, ho⟩ := index_split hW0 s
  rw [index_mod k ho] at *
  have hp : min n ((W - off) % W) = (W - off) % W := by omega
  rw [hp]
  rcases Nat.eq_zero_or_pos off with rfl | hpos
  · simp
  · rw [Nat.mod_eq_of_lt (by omega), show k * W + off + (W - off) = (k + 1) * W by rw [Nat.succ_mul]; omega]
    exact Nat.dvd_mul_left ..

theorem streamCopy_wf {W : Nat} {m : Memory} (hm : m.wf) (src : Memory) (d s n : Nat) :
    (streamCopy W m src d s n).wf := by
  rw [streamCopy]
  have h1 : ∀ w : Memory, w = (if min n ((W - s % W) % W) = 0 then m
      else splice W m d (extract W src s (min n ((W - s % W) % W))) (min n ((W - s % W) % W))) → w.wf := by
    rintro w rfl
    split
    · exact hm
    · exact splice_wf hm _ _ _
  split
  · exact copyWords_wf _ (h1 _ rfl) _ _
  · exact splice_wf (copyWords_wf _ (h1 _ rfl) _ _) _ _ _

/-- The stream copy keeps the form of the destination's storage, its word size and its bound (R154). -/
theorem streamCopy_form {W cap : Nat} (hW0 : 0 < W) (hW : W ≤ 32) {m : Memory} (hm : m.wf) (hnar : m.Narrow W)
    (hb : m.Below cap) (src : Memory) {d n : Nat} (hr : d + n ≤ cap * W) (s : Nat) :
    (streamCopy W m src d s n).wf ∧ (streamCopy W m src d s n).Narrow W ∧ (streamCopy W m src d s n).Below cap := by
  rw [streamCopy]
  have hp : min n ((W - s % W) % W) ≤ n := Nat.min_le_left ..
  have hpW : min n ((W - s % W) % W) < W := Nat.lt_of_le_of_lt (Nat.min_le_right ..) (Nat.mod_lt _ hW0)
  generalize min n ((W - s % W) % W) = p at *
  have h1 : ∀ w : Memory, w = (if p = 0 then m else splice W m d (extract W src s p) p) →
      w.wf ∧ w.Narrow W ∧ w.Below cap := by
    rintro w rfl
    split
    · exact ⟨hm, hnar, hb⟩
    · exact splice_form hW0 hW hm hnar hb (by omega) (by omega) (by omega) _
  have hdm : (n - p) / W * W + (n - p) % W = n - p := by
    rw [Nat.mul_comm]
    exact Nat.div_add_mod _ W
  obtain ⟨a, b, c⟩ := h1 _ rfl
  obtain ⟨a2, b2, c2⟩ := copyWords_form (src := src) hW0 hW ((n - p) / W) a b c (d := d + p) (by omega) ((s + p) / W)
  split
  · exact ⟨a2, b2, c2⟩
  · exact splice_form hW0 hW a2 b2 c2 (by omega) (Nat.le_of_lt (Nat.mod_lt _ hW0)) (by omega) _

/-- The stream copy, bit by bit: "`for i in 0 .. n-1:  Bit(d + i) <- src.Bit(s + i)`", and every other bit of the
destination unchanged (R154). -/
theorem streamCopy_bit {W : Nat} (hW0 : 0 < W) (hW : W ≤ 32) {m : Memory} (hm : m.wf) {src : Memory}
    (hsrc : src.Narrow W) (d s n : Nat) (j : Nat) :
    (streamCopy W m src d s n).bit W j = replaced W m d n (fun i => src.bit W (s + i)) j := by
  rw [streamCopy]
  have hp : min n ((W - s % W) % W) ≤ n := Nat.min_le_left ..
  have hpW : min n ((W - s % W) % W) < W := Nat.lt_of_le_of_lt (Nat.min_le_right ..) (Nat.mod_lt _ hW0)
  have hal := prefix_aligned hW0 s n
  generalize min n ((W - s % W) % W) = p at *
  have h1 : ∀ w : Memory, w = (if p = 0 then m else splice W m d (extract W src s p) p) →
      w.wf ∧ ∀ j, w.bit W j = replaced W m d p (fun i => src.bit W (s + i)) j := by
    rintro w rfl
    split
    · rename_i h0
      subst h0
      exact ⟨hm, fun j => (replaced_zero _ j).symm⟩
    · refine ⟨splice_wf hm _ _ _, fun j => ?_⟩
      rw [splice_bit hW0 hW hm (by omega) (by omega)]
      refine replaced_congr (fun i hi => ?_) j
      rw [extract_getLsbD hW0 hW hsrc (by omega) (by omega)]
      simp [hi]
  obtain ⟨hw1, hb1⟩ := h1 _ rfl
  generalize (if p = 0 then m else splice W m d (extract W src s p) p) = m1 at *
  rcases Nat.lt_or_ge p n with hlt | hge
  · have hal := hal hlt
    have hdm : (n - p) / W * W + (n - p) % W = n - p := by
      rw [Nat.mul_comm]
      exact Nat.div_add_mod _ W
    have hb2 : ∀ j, (copyWords W src ((n - p) / W) m1 (d + p) ((s + p) / W)).bit W j =
        replaced W m d (p + (n - p) / W * W) (fun i => src.bit W (s + i)) j := by
      intro j
      rw [copyWords_bit hW0 hW _ hw1]
      refine replaced_append hb1 (fun _ _ => rfl) (fun i _ => ?_) j
      rw [hal, Nat.add_assoc]
    split
    · rename_i h0
      rw [hb2, show p + (n - p) / W * W = n by omega]
    · have hr := Nat.mod_lt (n - p) hW0
      rw [splice_bit hW0 hW (copyWords_wf _ hw1 _ _) (by omega) (Nat.le_of_lt hr), Nat.add_assoc d]
      conv => rhs; rw [show n = p + (n - p) / W * W + (n - p) % W by omega]
      refine replaced_append hb2 (fun _ _ => rfl) (fun i hi => ?_) j
      have hi' : i < W := by omega
      have hidx : s + (p + (n - p) / W * W + i) = ((s + p) / W + (n - p) / W) * W + i := by
        rw [Nat.add_mul, hal]
        omega
      rw [hidx, Memory.bit_at _ _ hi', BitVec.getLsbD_and, lowmask_getLsbD (by omega)]
      simp [hi]
  · have hpn : p = n := by omega
    subst hpn
    simp [hb1, copyWords]

/-! ### Field values -/

/-- The number of R42 has the field's bits. -/
theorem fieldValue_testBit {W : Nat} (m : Memory) (start n i : Nat) :
    (fieldValue W m start n).testBit i = (decide (i < n) && m.bit W (start + i)) ∧
      fieldValue W m start n < 2 ^ n := by
  induction n generalizing i with
  | zero => simp [fieldValue]
  | succ n ih =>
    have hlt := (ih 0).2
    have hb := (ih i).1
    rw [fieldValue]
    cases hbit : m.bit W (start + n)
    · refine ⟨?_, ?_⟩
      · simp only [Bool.false_eq_true, if_false, Nat.add_zero, hb]
        by_cases h1 : i < n
        · have : i < n + 1 := by omega
          simp [h1, this]
        · by_cases h2 : i = n
          · subst h2
            simp [hbit]
          · have : ¬ i < n + 1 := by omega
            simp [h1, this]
      · simp only [Bool.false_eq_true, if_false, Nat.pow_succ]
        omega
    · have hlt1 : fieldValue W m start n + 2 ^ n < 2 ^ (n + 1) := by
        rw [Nat.pow_succ]
        omega
      refine ⟨?_, by simpa using hlt1⟩
      simp only [if_true]
      rcases Nat.lt_trichotomy i n with h1 | rfl | h1
      · have : i < n + 1 := by omega
        rw [Nat.add_comm, Nat.testBit_two_pow_add_gt h1, hb]
        simp [h1, this]
      · rw [Nat.add_comm, Nat.testBit_two_pow_add_eq, hb]
        simp [hbit]
      · have : ¬ i < n + 1 := by omega
        rw [Nat.testBit_lt_two_pow (Nat.lt_of_lt_of_le hlt1 (Nat.pow_le_pow_right (by omega) h1))]
        simp [this]

/-- The extractor law: "`Extract(start, n) = Σ_{i<n} Bit(start + i) × 2^i`" (R103), as a consequence of its bits. -/
theorem toNat_eq_fieldValue {W : Nat} (m : Memory) {start n : Nat} {v : Word}
    (h : ∀ i, v.getLsbD i = (decide (i < n) && m.bit W (start + i))) : v.toNat = fieldValue W m start n := by
  apply Nat.eq_of_testBit_eq
  intro i
  rw [BitVec.testBit_toNat, h, (fieldValue_testBit m start n i).1]

end Sys2Proof.Machine
end

