-- ==== Sys2Proof/Laws/Growth.lean ====
section
/-! SUPPORT. Growth as the spec words it (20_memory.md R47): the capacity the operation computes is the one of `GrowsTo`,
and it computes none exactly where `GrowFails`. -/

namespace Sys2Proof.Machine

theorem LeastDoublings.unique {W cap R d e : Nat} (hd : LeastDoublings W cap R d) (he : LeastDoublings W cap R e) :
    d = e :=
  Nat.le_antisymm (hd.2.2 e he.1 he.2.1) (he.2.2 d hd.1 hd.2.1)

theorem doubledUntil_some {W R fuel cap c : Nat} (h : doubledUntil W R fuel cap = some c) :
    ∃ d, c = cap * 2 ^ d ∧ R ≤ cap * 2 ^ d * W ∧ ∀ d', d' < d → cap * 2 ^ d' * W < R := by
  induction fuel generalizing cap with
  | zero => simp [doubledUntil] at h
  | succ f ih =>
    rw [doubledUntil] at h
    split at h
    · rename_i hR
      refine ⟨0, by simpa using h.symm, by simpa using hR, by simp⟩
    · rename_i hR
      obtain ⟨d, hc, hd, hmin⟩ := ih h
      refine ⟨d + 1, by rw [hc, Nat.pow_succ]; ring, by rw [Nat.pow_succ]; convert hd using 2; ring, ?_⟩
      intro d' hd'
      cases d' with
      | zero => simpa using Nat.lt_of_not_le hR
      | succ d' =>
        have := hmin d' (by omega)
        rw [Nat.pow_succ]
        convert this using 2
        ring

theorem doubledUntil_none {W R fuel cap : Nat} (h : doubledUntil W R (fuel + 1) cap = none) :
    cap * 2 ^ fuel * W < R := by
  induction fuel generalizing cap with
  | zero =>
    rw [doubledUntil] at h
    split at h
    · simp at h
    · rename_i hR
      simpa using Nat.lt_of_not_le hR
  | succ f ih =>
    rw [doubledUntil] at h
    split at h
    · simp at h
    · have := ih h
      rw [Nat.pow_succ]
      convert this using 2
      ring

/-- The tests of `grownCapacity` suffice from any capacity of at least one word. -/
theorem doubledUntil_ne_none {W R cap : Nat} (hW : 0 < W) (hcap : 1 ≤ cap) :
    doubledUntil W R (Nat.log2 R + 2) cap ≠ none := by
  intro h
  have h1 := doubledUntil_none h
  have h2 : R < 2 ^ (Nat.log2 R + 1) := Nat.lt_log2_self
  have h3 : 2 ^ (Nat.log2 R + 1) ≤ cap * 2 ^ (Nat.log2 R + 1) * W :=
    Nat.le_trans (Nat.le_mul_of_pos_left _ hcap) (Nat.le_mul_of_pos_right _ hW)
  omega

/-- Where growth is needed, it doubles as often as R47 says. -/
theorem doubledUntil_least {W R cap c : Nat} (hgt : cap * W < R)
    (h : doubledUntil W R (Nat.log2 R + 2) cap = some c) : ∃ d, LeastDoublings W cap R d ∧ c = cap * 2 ^ d := by
  obtain ⟨d, hc, hd, hmin⟩ := doubledUntil_some h
  refine ⟨d, ⟨?_, hd, ?_⟩, hc⟩
  · rcases Nat.eq_zero_or_pos d with rfl | h0
    · simp at hd
      omega
    · exact h0
  · intro d' _ hd'
    by_contra hlt
    have := hmin d' (by omega)
    omega

/-- `Grow(R)` (R47). -/
theorem grownCapacity_eq_some_iff {W capMax cap R c : Nat} (hW : 0 < W) (hcap : 1 ≤ cap) :
    grownCapacity W capMax cap R = some c ↔ GrowsTo W capMax cap R c := by
  rw [grownCapacity, GrowsTo]
  split
  · rename_i hR
    constructor
    · intro h
      exact .inl ⟨hR, (Option.some.inj h).symm⟩
    · rintro (⟨-, rfl⟩ | ⟨hlt, -⟩)
      · rfl
      · omega
  · rename_i hR
    cases hd : doubledUntil W R (Nat.log2 R + 2) cap with
    | none => exact absurd hd (doubledUntil_ne_none hW hcap)
    | some g =>
      obtain ⟨d, hl, hg⟩ := doubledUntil_least (Nat.lt_of_not_le hR) hd
      simp only
      constructor
      · intro h
        split at h
        · rename_i hle
          cases h
          exact .inr ⟨Nat.lt_of_not_le hR, d, hl, hg, hle⟩
        · simp at h
      · rintro (⟨hle, -⟩ | ⟨-, d', hl', rfl, hle⟩)
        · omega
        · have := hl.unique hl'
          subst this
          rw [hg, if_pos hle]

/-- `GrowFails(R)` (R47). -/
theorem grownCapacity_eq_none_iff {W capMax cap R : Nat} (hW : 0 < W) (hcap : 1 ≤ cap) :
    grownCapacity W capMax cap R = none ↔ GrowFails W capMax cap R := by
  rw [grownCapacity, GrowFails]
  split
  · rename_i hR
    constructor
    · intro h
      simp at h
    · rintro ⟨hlt, -⟩
      omega
  · rename_i hR
    cases hd : doubledUntil W R (Nat.log2 R + 2) cap with
    | none => exact absurd hd (doubledUntil_ne_none hW hcap)
    | some g =>
      obtain ⟨d, hl, hg⟩ := doubledUntil_least (Nat.lt_of_not_le hR) hd
      simp only
      constructor
      · intro h
        split at h
        · simp at h
        · rename_i hle
          exact ⟨Nat.lt_of_not_le hR, d, hl, by omega⟩
      · rintro ⟨-, d', hl', hlt⟩
        have := hl.unique hl'
        subst this
        rw [if_neg (by omega)]

/-- What a growth that completes gives: room for R bits, no smaller a capacity, and none above CAP_MAX (R47, R48). -/
theorem grownCapacity_spec {W capMax cap R c : Nat} (h : grownCapacity W capMax cap R = some c) :
    R ≤ c * W ∧ cap ≤ c ∧ (cap ≤ capMax → c ≤ capMax) := by
  rw [grownCapacity] at h
  split at h
  · rename_i hR
    cases h
    exact ⟨hR, Nat.le_refl _, id⟩
  · split at h
    · rename_i g hg
      split at h
      · rename_i hle
        cases h
        obtain ⟨d, rfl, hd, -⟩ := doubledUntil_some hg
        exact ⟨hd, Nat.le_mul_of_pos_right _ (Nat.two_pow_pos d), fun _ => hle⟩
      · simp at h
    · simp at h

end Sys2Proof.Machine
end

