-- ==== Sys2Proof/Laws/Ops.lean ====
section
/-! SUPPORT. For each operation the commands share: what it answers when its condition is known, and, if it answers a
next state, the cases that holds in. Provers cite these and do not unfold the operations. -/

namespace Sys2Proof.Machine

/-! ### Ending a command -/

theorem raise_eq (c : Code) (x : Inst) (s : State) : raise c x s = .next (s.ended x c) := rfl

theorem complete_eq (x : Inst) (s : State) : complete x s = .next (s.ended x .ok) := rfl

/-- An error on an instance that is not halted, in the terms claims use (R203). -/
theorem raise_fails {x : Inst} {s : State} (h : x.status.fatal = false) (c : Code) :
    raise c x s = .next (s.fails x c) := by
  rw [raise_eq, State.ended_eq_endsAs _ _ _ h]
  rfl

/-- OK on an instance that is not halted, in the terms claims use. -/
theorem complete_endsAs {x : Inst} {s : State} (h : x.status.fatal = false) :
    complete x s = .next (s.endsAs { x with status := endStatus .ok }) := by
  rw [complete_eq, State.ended_eq_endsAs _ _ _ h]

/-! ### The frame of a command -/

theorem command_runs {legal : Bool} {s : State} {x : Inst} (h : s.Runs x) (body : Inst → Result) :
    command legal s body = if legal then body x else raise .illegalCommand x s := by
  rw [command, h.1]
  simp [h.2]

theorem command_legal {s : State} {x : Inst} (h : s.Runs x) (body : Inst → Result) :
    command true s body = body x := by
  rw [command_runs h]
  rfl

theorem command_halted {legal : Bool} {s : State} {x : Inst} (h : s.insts[s.active]? = some x)
    (hf : x.status.fatal = true) (body : Inst → Result) : command legal s body = raise .halted x s := by
  rw [command, h]
  simp [hf]

theorem command_missing {legal : Bool} {s : State} (h : s.insts[s.active]? = none) (body : Inst → Result) :
    command legal s body = .fault .noSuchInstance := by
  rw [command, h]

theorem command_next {legal : Bool} {s t : State} {body : Inst → Result} (h : command legal s body = .next t) :
    ∃ x, s.insts[s.active]? = some x ∧
      ((x.status.fatal = true ∧ t = s.ended x .halted) ∨
       (x.status.fatal = false ∧ legal = false ∧ t = s.ended x .illegalCommand) ∨
       (x.status.fatal = false ∧ legal = true ∧ body x = .next t)) := by
  rw [command] at h
  split at h
  · simp at h
  · rename_i x hx
    refine ⟨x, hx, ?_⟩
    split at h
    · rename_i hf
      exact .inl ⟨hf, by rw [raise_eq] at h; exact (Host.Outcome.next.inj h).symm⟩
    · rename_i hf
      split at h
      · rename_i hl
        exact .inr (.inr ⟨by simpa using hf, hl, h⟩)
      · rename_i hl
        exact .inr (.inl ⟨by simpa using hf, by simpa using hl, by
          rw [raise_eq] at h; exact (Host.Outcome.next.inj h).symm⟩)

/-- The field checks a command makes are the well-formedness of its syntax (R63, R64). -/
theorem countLegal_eq_wf (s : State) (n : BitVec 6) :
    countLegal s n = (Instr.readWordIdx n).wf s.cfg ∧ countLegal s n = (Instr.readWordCur n).wf s.cfg ∧
    countLegal s n = (Instr.writeWordIdx n).wf s.cfg ∧ countLegal s n = (Instr.writeWordCur n).wf s.cfg :=
  ⟨rfl, rfl, rfl, rfl⟩

theorem sourceLegal_eq_wf (s : State) (src : BitVec 3) :
    sourceLegal s src = (Instr.writeStreamII src).wf s.cfg ∧ sourceLegal s src = (Instr.writeStreamCI src).wf s.cfg ∧
    sourceLegal s src = (Instr.writeStreamCC src).wf s.cfg :=
  ⟨rfl, rfl, rfl⟩

/-! ### Growth -/

theorem growing_of_growsTo {R c : Nat} {x : Inst} {s : State} (hcap : 1 ≤ x.capacity)
    (h : GrowsTo s.W s.capMax x.capacity R c) (body : Inst → Result) :
    growing R x s body = body { x with capacity := c } := by
  rw [growing, (grownCapacity_eq_some_iff s.W_pos hcap).2 h]

theorem growing_of_growFails {R : Nat} {x : Inst} {s : State} (hcap : 1 ≤ x.capacity)
    (h : GrowFails s.W s.capMax x.capacity R) (body : Inst → Result) :
    growing R x s body = raise .allocFailure x s := by
  rw [growing, (grownCapacity_eq_none_iff s.W_pos hcap).2 h]

theorem growing_next {R : Nat} {x : Inst} {s t : State} {body : Inst → Result} (h : growing R x s body = .next t) :
    t = s.ended x .allocFailure ∨
      ∃ c, grownCapacity s.W s.capMax x.capacity R = some c ∧ body { x with capacity := c } = .next t := by
  rw [growing] at h
  split at h
  · exact .inl (by rw [raise_eq] at h; exact (Host.Outcome.next.inj h).symm)
  · rename_i c hc
    exact .inr ⟨c, hc, h⟩

/-! ### EXT_IN -/

theorem popping_enough {i : Instr} {q : Nat} {x : Inst} {s : State} (h : q ≤ x.extIn.length)
    (body : List Word → Inst → Result) :
    popping i q x s body = body (x.extIn.take q) { x with extIn := x.extIn.drop q } := by
  rw [popping, if_neg (by omega)]

theorem popping_short {i : Instr} {q : Nat} {x : Inst} {s : State} (h : x.extIn.length < q)
    (body : List Word → Inst → Result) : popping i q x s body = .next { s with waiting := some i } := by
  rw [popping, if_pos h]

theorem popping_next {i : Instr} {q : Nat} {x : Inst} {s t : State} {body : List Word → Inst → Result}
    (h : popping i q x s body = .next t) :
    (x.extIn.length < q ∧ t = { s with waiting := some i }) ∨
      (q ≤ x.extIn.length ∧ body (x.extIn.take q) { x with extIn := x.extIn.drop q } = .next t) := by
  rw [popping] at h
  split at h
  · rename_i hq
    exact .inl ⟨hq, (Host.Outcome.next.inj h).symm⟩
  · exact .inr ⟨by omega, h⟩

/-! ### Stream copies -/

theorem withSource_eq {src : BitVec 3} {s : State} {y : Inst} (h : s.insts[sourceOf src]? = some y)
    (body : Inst → Result) : withSource src s body = body y := by
  rw [withSource, h]

theorem withSource_next {src : BitVec 3} {s t : State} {body : Inst → Result}
    (h : withSource src s body = .next t) : ∃ y, s.insts[sourceOf src]? = some y ∧ body y = .next t := by
  rw [withSource] at h
  split at h
  · simp at h
  · rename_i y hy
    exact ⟨y, hy, h⟩

theorem streamCheck_aliased {src : BitVec 3} {y x : Inst} {start n : Nat} {s : State} (h : sourceOf src = s.active)
    (body : Result) : streamCheck src y start n x s body = raise .aliasedCopy x s := by
  rw [streamCheck, if_pos h]

theorem streamCheck_zero {src : BitVec 3} {y x : Inst} {start : Nat} {s : State} (h : sourceOf src ≠ s.active)
    (body : Result) : streamCheck src y start 0 x s body = complete x s := by
  rw [streamCheck, if_neg h, if_pos rfl]

theorem streamCheck_exceeded {src : BitVec 3} {y x : Inst} {start n : Nat} {s : State} (h : sourceOf src ≠ s.active)
    (hn : n ≠ 0) (hr : y.bits s.W < start + n) (body : Result) :
    streamCheck src y start n x s body = raise .srcRangeExceeded x s := by
  rw [streamCheck, if_neg h, if_neg hn, if_pos hr]

theorem streamCheck_passes {src : BitVec 3} {y x : Inst} {start n : Nat} {s : State} (h : sourceOf src ≠ s.active)
    (hn : n ≠ 0) (hr : start + n ≤ y.bits s.W) (body : Result) : streamCheck src y start n x s body = body := by
  rw [streamCheck, if_neg h, if_neg hn, if_neg (by omega)]

theorem streamCheck_next {src : BitVec 3} {y x : Inst} {start n : Nat} {s t : State} {body : Result}
    (h : streamCheck src y start n x s body = .next t) :
    (sourceOf src = s.active ∧ t = s.ended x .aliasedCopy) ∨
    (sourceOf src ≠ s.active ∧ n = 0 ∧ t = s.ended x .ok) ∨
    (sourceOf src ≠ s.active ∧ n ≠ 0 ∧ y.bits s.W < start + n ∧ t = s.ended x .srcRangeExceeded) ∨
    (sourceOf src ≠ s.active ∧ n ≠ 0 ∧ start + n ≤ y.bits s.W ∧ body = .next t) := by
  rw [streamCheck] at h
  split at h
  · rename_i ha
    exact .inl ⟨ha, (Host.Outcome.next.inj h).symm⟩
  · rename_i ha
    split at h
    · rename_i hn
      exact .inr (.inl ⟨ha, hn, (Host.Outcome.next.inj h).symm⟩)
    · rename_i hn
      split at h
      · rename_i hr
        exact .inr (.inr (.inl ⟨ha, hn, hr, (Host.Outcome.next.inj h).symm⟩))
      · rename_i hr
        exact .inr (.inr (.inr ⟨ha, hn, by omega, h⟩))

/-! ### Host operations -/

theorem withInst_eq {k : Nat} {s : State} {x : Inst} (h : s.insts[k]? = some x) (body : Inst → Result) :
    withInst k s body = body x := by
  rw [withInst, h]

theorem withInst_next {k : Nat} {s t : State} {body : Inst → Result} (h : withInst k s body = .next t) :
    ∃ x, s.insts[k]? = some x ∧ body x = .next t := by
  rw [withInst] at h
  split at h
  · simp at h
  · rename_i x hx
    exact ⟨x, hx, h⟩

end Sys2Proof.Machine
end

