-- ==== Sys2Proof/Laws/Exec.lean ====
section
/-! SUPPORT. Once for all commands: everything the next state of a command can be (`exec_cases`). The whole-machine
invariants are case analyses on it. -/

namespace Sys2Proof.Machine

/-- What a command that completes with OK may do to its own instance, from x to x' (R20, R26 to R32). -/
structure Effect (i : Instr) (s : State) (x x' : Inst) : Prop where
  cmd : x'.cmd = x.cmd
  arg0 : x'.arg0 = x.arg0
  arg1 : x'.arg1 = x.arg1
  arg2 : x'.arg2 = x.arg2
  data : x'.data = x.data
  status : x'.status = x.status
  result : writesResult i = true ∨ x'.result = x.result
  extIn : x'.extIn = x.extIn ∨
    ((i = .writeBufferIdx ∨ i = .writeBufferCur) ∧ x.arg1.toNat ≠ 0 ∧
      wordsFor x.arg1.toNat s.W ≤ x.extIn.length ∧ x'.extIn = x.extIn.drop (wordsFor x.arg1.toNat s.W))
  capacity : i = .flush ∨ x.capacity ≤ x'.capacity
  form : x.Wf s.W s.capMax → x'.Wf s.W s.capMax

/-- How a command that completes with OK leaves the system: its own instance as x', and besides it only the source's
cursor (WRITE_STREAM_CC) or a delivery on FLUSH_OUT (FLUSH). -/
def EndsOk (i : Instr) (s : State) (x : Inst) (t : State) : Prop :=
  ∃ x', Effect i s x x' ∧
    (t = s.ended x' .ok ∨
     (∃ src y, i = .writeStreamCC src ∧ sourceOf src ≠ s.active ∧ s.insts[sourceOf src]? = some y ∧
        y.cursor + x.arg2.toNat ≤ y.bits s.W ∧
        t = (s.setInst (sourceOf src) { y with cursor := y.cursor + x.arg2.toNat }).ended x' .ok) ∨
     (i = .flush ∧ ∃ ws, t = (s.observe (.flushOut s.active ws)).ended x' .ok))

/-- A command of instance x that was not refused at decode: it ends with an error, waits, or completes (R203, R244). -/
def Outcomes (i : Instr) (s : State) (x : Inst) (t : State) : Prop :=
  (∃ c, c ≠ .ok ∧ c ≠ .halted ∧ t = s.ended x c) ∨
  ((i = .writeBufferIdx ∨ i = .writeBufferCur) ∧ x.arg1.toNat ≠ 0 ∧
    x.extIn.length < wordsFor x.arg1.toNat s.W ∧ t = { s with waiting := some i }) ∨
  EndsOk i s x t

theorem Effect.refl (i : Instr) (s : State) (x : Inst) : Effect i s x x :=
  ⟨rfl, rfl, rfl, rfl, rfl, rfl, .inr rfl, .inl rfl, .inr (Nat.le_refl _), id⟩

theorem outcomes_error {i : Instr} {s t : State} {x : Inst} {c : Code} (hc : c ≠ .ok) (hh : c ≠ .halted)
    (h : t = s.ended x c) : Outcomes i s x t := .inl ⟨c, hc, hh, h⟩

theorem outcomes_raise {i : Instr} {s t : State} {x : Inst} {c : Code} (hc : c ≠ .ok) (hh : c ≠ .halted)
    (h : raise c x s = .next t) : Outcomes i s x t :=
  outcomes_error hc hh (Host.Outcome.next.inj h).symm

theorem outcomes_complete {i : Instr} {s t : State} {x x' : Inst} (he : Effect i s x x')
    (h : complete x' s = .next t) : Outcomes i s x t :=
  .inr (.inr ⟨x', he, .inl (Host.Outcome.next.inj h).symm⟩)

/-- An effect on RESULT and the cursor alone. -/
theorem Effect.of_result_cursor {i : Instr} {s : State} {x : Inst} (r : Reg) (cur : Nat)
    (hr : writesResult i = true ∨ r = x.result) (hc : cur ≤ x.capacity * s.W ∨ cur = x.cursor) :
    Effect i s x { x with result := r, cursor := cur } := by
  refine ⟨rfl, rfl, rfl, rfl, rfl, rfl, hr, .inl rfl, .inr (Nat.le_refl _), ?_⟩
  rintro ⟨h1, h2, h3, h4, h5, h6, h7⟩
  refine ⟨h1, h2, ?_, h4, h5, h6, h7⟩
  rcases hc with hc | rfl
  · exact hc
  · exact h3

/-- An effect on storage, capacity and the cursor. -/
theorem Effect.of_store {i : Instr} {s : State} {x : Inst} {m : Memory} {c cur : Nat} (hcap : x.capacity ≤ c)
    (hmax : x.capacity ≤ s.capMax → c ≤ s.capMax) (hcur : cur ≤ c * s.W ∨ cur = x.cursor)
    (hm : x.words.wf → x.words.Narrow s.W → x.words.Below c → m.wf ∧ m.Narrow s.W ∧ m.Below c) :
    Effect i s x { x with words := m, capacity := c, cursor := cur } := by
  refine ⟨rfl, rfl, rfl, rfl, rfl, rfl, .inr rfl, .inl rfl, .inr hcap, ?_⟩
  rintro ⟨h1, h2, h3, h4, h5, h6, h7⟩
  obtain ⟨a, b, d⟩ := hm h4 h5 (fun e he => Nat.lt_of_lt_of_le (h6 e he) hcap)
  refine ⟨Nat.le_trans h1 hcap, hmax h2, ?_, a, b, d, h7⟩
  rcases hcur with hcur | rfl
  · exact hcur
  · exact Nat.le_trans h3 (Nat.mul_le_mul_right _ hcap)

theorem mod_bit_lt {W : Nat} {v : Word} (hv : v.toNat < 2 ^ W) {k : Nat} (hk : k < W) (hW : W ≤ 32) :
    (v ||| bitmask k).toNat < 2 ^ W := by
  rw [toNat_lt_iff_getLsbD] at *
  intro i hi
  rw [BitVec.getLsbD_or, hv i hi, bitmask_getLsbD (by omega)]
  simp
  omega

theorem and_lt {W : Nat} {v : Word} (hv : v.toNat < 2 ^ W) (u : Word) : (v &&& u).toNat < 2 ^ W := by
  rw [toNat_lt_iff_getLsbD] at *
  intro i hi
  rw [BitVec.getLsbD_and, hv i hi]
  rfl

theorem word_index_lt {W cap idx : Nat} (h : ¬ cap * W ≤ idx) : idx / W < cap :=
  Nat.div_lt_of_lt_mul (by rw [Nat.mul_comm]; omega)

theorem execGetBit_cases {s t : State} {x : Inst} (hx : s.Runs x) (h : execGetBit s = .next t) :
    Outcomes .getBit s x t := by
  rw [execGetBit, command_legal hx] at h
  dsimp only at h
  split at h
  · exact outcomes_raise (by decide) (by decide) h
  · exact outcomes_complete (Effect.of_result_cursor _ _ (.inl rfl) (.inr rfl)) h

theorem execSetBit_cases {s t : State} {x : Inst} (hx : s.Runs x) (h : execSetBit s = .next t) :
    Outcomes .setBit s x t := by
  rw [execSetBit, command_legal hx] at h
  dsimp only at h
  split at h
  · exact outcomes_raise (by decide) (by decide) h
  · rename_i hin
    refine outcomes_complete (Effect.of_store (Nat.le_refl _) id (.inr rfl) fun h4 h5 h6 => ?_) h
    exact ⟨Memory.write_wf h4 _ _,
      Memory.write_narrow h5 _ (mod_bit_lt (Memory.read_lt h5 _) (Nat.mod_lt _ s.W_pos) s.W_le),
      Memory.write_below h6 (word_index_lt hin) _⟩

theorem execClearBit_cases {s t : State} {x : Inst} (hx : s.Runs x) (h : execClearBit s = .next t) :
    Outcomes .clearBit s x t := by
  rw [execClearBit, command_legal hx] at h
  dsimp only at h
  split at h
  · exact outcomes_raise (by decide) (by decide) h
  · rename_i hin
    refine outcomes_complete (Effect.of_store (Nat.le_refl _) id (.inr rfl) fun h4 h5 h6 => ?_) h
    exact ⟨Memory.write_wf h4 _ _, Memory.write_narrow h5 _ (and_lt (Memory.read_lt h5 _) _),
      Memory.write_below h6 (word_index_lt hin) _⟩

theorem execReadWordIdx_cases {s t : State} {x : Inst} {n : BitVec 6} (hx : s.Runs x)
    (h : execReadWordIdx n s = .next t) : Outcomes (.readWordIdx n) s x t := by
  rw [execReadWordIdx, command_runs hx] at h
  split at h
  · dsimp only at h
    split at h
    · exact outcomes_raise (by decide) (by decide) h
    · exact outcomes_complete (Effect.of_result_cursor _ _ (.inl rfl) (.inr rfl)) h
  · exact outcomes_raise (by decide) (by decide) h

theorem execReadWordCur_cases {s t : State} {x : Inst} {n : BitVec 6} (hx : s.Runs x)
    (h : execReadWordCur n s = .next t) : Outcomes (.readWordCur n) s x t := by
  rw [execReadWordCur, command_runs hx] at h
  split at h
  · dsimp only at h
    split at h
    · exact outcomes_raise (by decide) (by decide) h
    · rename_i hin
      exact outcomes_complete (Effect.of_result_cursor _ _ (.inl rfl) (.inl (Nat.le_of_not_lt hin))) h
  · exact outcomes_raise (by decide) (by decide) h

theorem execWriteWordIdx_cases {s t : State} {x : Inst} {n : BitVec 6} (hx : s.Runs x)
    (h : execWriteWordIdx n s = .next t) : Outcomes (.writeWordIdx n) s x t := by
  rw [execWriteWordIdx, command_runs hx] at h
  split at h
  · rename_i hl
    simp only [countLegal, decide_eq_true_eq] at hl
    rcases growing_next h with h | ⟨c, hc, h⟩
    · exact outcomes_error (by decide) (by decide) h
    · obtain ⟨hr, hcap, hmax⟩ := grownCapacity_spec hc
      exact outcomes_complete (Effect.of_store hcap hmax (.inr rfl)
        fun h4 h5 h6 => splice_form s.W_pos s.W_le h4 h5 h6 hl.1 hl.2 hr _) h
  · exact outcomes_raise (by decide) (by decide) h

theorem execWriteWordCur_cases {s t : State} {x : Inst} {n : BitVec 6} (hx : s.Runs x)
    (h : execWriteWordCur n s = .next t) : Outcomes (.writeWordCur n) s x t := by
  rw [execWriteWordCur, command_runs hx] at h
  split at h
  · rename_i hl
    simp only [countLegal, decide_eq_true_eq] at hl
    rcases growing_next h with h | ⟨c, hc, h⟩
    · exact outcomes_error (by decide) (by decide) h
    · obtain ⟨hr, hcap, hmax⟩ := grownCapacity_spec hc
      exact outcomes_complete (Effect.of_store hcap hmax (.inl hr)
        fun h4 h5 h6 => splice_form s.W_pos s.W_le h4 h5 h6 hl.1 hl.2 hr _) h
  · exact outcomes_raise (by decide) (by decide) h

/-- The effect of a bulk write (R140 to R142). -/
theorem Effect.of_bulk {i : Instr} {s : State} {x : Inst} {c cur start : Nat}
    (hi : i = .writeBufferIdx ∨ i = .writeBufferCur) (hn : x.arg1.toNat ≠ 0)
    (hq : wordsFor x.arg1.toNat s.W ≤ x.extIn.length) (hcap : x.capacity ≤ c)
    (hmax : x.capacity ≤ s.capMax → c ≤ s.capMax) (hcur : cur ≤ c * s.W ∨ cur = x.cursor)
    (hr : start + x.arg1.toNat ≤ c * s.W) :
    Effect i s x
      { x with
        words := bulkWrite s.W x.words start (x.extIn.take (wordsFor x.arg1.toNat s.W)) x.arg1.toNat
        capacity := c
        cursor := cur
        extIn := x.extIn.drop (wordsFor x.arg1.toNat s.W) } := by
  refine ⟨rfl, rfl, rfl, rfl, rfl, rfl, .inr rfl, .inr ⟨hi, hn, hq, rfl⟩, .inr hcap, ?_⟩
  rintro ⟨h1, h2, h3, h4, h5, h6, h7⟩
  rw [List.forall_mem_map] at h7
  obtain ⟨a, b, d⟩ := bulkWrite_form s.W_pos s.W_le h4 h5 (fun e he => Nat.lt_of_lt_of_le (h6 e he) hcap) hr
    (e := x.extIn.take (wordsFor x.arg1.toNat s.W)) (fun w hw => h7 w (List.mem_of_mem_take hw))
  refine ⟨Nat.le_trans h1 hcap, hmax h2, ?_, a, b, d, List.forall_mem_map.2 fun w hw => h7 w (List.mem_of_mem_drop hw)⟩
  rcases hcur with hcur | rfl
  · exact hcur
  · exact Nat.le_trans h3 (Nat.mul_le_mul_right _ hcap)

theorem execWriteBufferIdx_cases {s t : State} {x : Inst} (hx : s.Runs x) (h : execWriteBufferIdx s = .next t) :
    Outcomes .writeBufferIdx s x t := by
  rw [execWriteBufferIdx, command_legal hx] at h
  dsimp only at h
  split at h
  · exact outcomes_complete (Effect.refl _ _ _) h
  · rename_i hn
    rcases growing_next h with h | ⟨c, hc, h⟩
    · exact outcomes_error (by decide) (by decide) h
    · obtain ⟨hr, hcap, hmax⟩ := grownCapacity_spec hc
      rcases popping_next h with ⟨hq, h⟩ | ⟨hq, h⟩
      · exact .inr (.inl ⟨.inl rfl, hn, hq, h⟩)
      · exact outcomes_complete (Effect.of_bulk (.inl rfl) hn hq hcap hmax (.inr rfl) hr) h

theorem execWriteBufferCur_cases {s t : State} {x : Inst} (hx : s.Runs x) (h : execWriteBufferCur s = .next t) :
    Outcomes .writeBufferCur s x t := by
  rw [execWriteBufferCur, command_legal hx] at h
  dsimp only at h
  split at h
  · exact outcomes_complete (Effect.refl _ _ _) h
  · rename_i hn
    rcases growing_next h with h | ⟨c, hc, h⟩
    · exact outcomes_error (by decide) (by decide) h
    · obtain ⟨hr, hcap, hmax⟩ := grownCapacity_spec hc
      rcases popping_next h with ⟨hq, h⟩ | ⟨hq, h⟩
      · exact .inr (.inl ⟨.inr rfl, hn, hq, h⟩)
      · exact outcomes_complete (Effect.of_bulk (.inr rfl) hn hq hcap hmax (.inl hr) hr) h

theorem execWriteStreamII_cases {s t : State} {x : Inst} {src : BitVec 3} (hx : s.Runs x)
    (h : execWriteStreamII src s = .next t) : Outcomes (.writeStreamII src) s x t := by
  rw [execWriteStreamII, command_runs hx] at h
  split at h
  · obtain ⟨y, hy, h⟩ := withSource_next h
    rcases streamCheck_next h with ⟨-, h⟩ | ⟨-, -, h⟩ | ⟨-, -, -, h⟩ | ⟨-, -, -, h⟩
    · exact outcomes_error (by decide) (by decide) h
    · exact outcomes_complete (Effect.refl _ _ _) (h ▸ rfl)
    · exact outcomes_error (by decide) (by decide) h
    · rcases growing_next h with h | ⟨c, hc, h⟩
      · exact outcomes_error (by decide) (by decide) h
      · obtain ⟨hr, hcap, hmax⟩ := grownCapacity_spec hc
        exact outcomes_complete (Effect.of_store hcap hmax (.inr rfl)
          fun h4 h5 h6 => streamCopy_form s.W_pos s.W_le h4 h5 h6 _ hr _) h
  · exact outcomes_raise (by decide) (by decide) h

theorem execWriteStreamCI_cases {s t : State} {x : Inst} {src : BitVec 3} (hx : s.Runs x)
    (h : execWriteStreamCI src s = .next t) : Outcomes (.writeStreamCI src) s x t := by
  rw [execWriteStreamCI, command_runs hx] at h
  split at h
  · obtain ⟨y, hy, h⟩ := withSource_next h
    rcases streamCheck_next h with ⟨-, h⟩ | ⟨-, -, h⟩ | ⟨-, -, -, h⟩ | ⟨-, -, -, h⟩
    · exact outcomes_error (by decide) (by decide) h
    · exact outcomes_complete (Effect.refl _ _ _) (h ▸ rfl)
    · exact outcomes_error (by decide) (by decide) h
    · rcases growing_next h with h | ⟨c, hc, h⟩
      · exact outcomes_error (by decide) (by decide) h
      · obtain ⟨hr, hcap, hmax⟩ := grownCapacity_spec hc
        exact outcomes_complete (Effect.of_store hcap hmax (.inl hr)
          fun h4 h5 h6 => streamCopy_form s.W_pos s.W_le h4 h5 h6 _ hr _) h
  · exact outcomes_raise (by decide) (by decide) h

theorem execWriteStreamCC_cases {s t : State} {x : Inst} {src : BitVec 3} (hx : s.Runs x)
    (h : execWriteStreamCC src s = .next t) : Outcomes (.writeStreamCC src) s x t := by
  rw [execWriteStreamCC, command_runs hx] at h
  split at h
  · obtain ⟨y, hy, h⟩ := withSource_next h
    rcases streamCheck_next h with ⟨-, h⟩ | ⟨-, -, h⟩ | ⟨-, -, -, h⟩ | ⟨ha, -, hs, h⟩
    · exact outcomes_error (by decide) (by decide) h
    · exact outcomes_complete (Effect.refl _ _ _) (h ▸ rfl)
    · exact outcomes_error (by decide) (by decide) h
    · rcases growing_next h with h | ⟨c, hc, h⟩
      · exact outcomes_error (by decide) (by decide) h
      · obtain ⟨hr, hcap, hmax⟩ := grownCapacity_spec hc
        refine .inr (.inr ⟨_, Effect.of_store (i := .writeStreamCC src) hcap hmax (.inl hr)
          (fun h4 h5 h6 => streamCopy_form s.W_pos s.W_le h4 h5 h6 y.words hr y.cursor), .inr (.inl ?_)⟩)
        exact ⟨src, y, rfl, ha, hy, hs, (Host.Outcome.next.inj h).symm⟩
  · exact outcomes_raise (by decide) (by decide) h

theorem execDoubleCapacity_cases {s t : State} {x : Inst} (hx : s.Runs x) (h : execDoubleCapacity s = .next t) :
    Outcomes .doubleCapacity s x t := by
  rw [execDoubleCapacity, command_legal hx] at h
  split at h
  · exact outcomes_raise (by decide) (by decide) h
  · exact outcomes_complete (Effect.of_store (by omega) (fun _ => by omega) (.inr rfl) fun h4 h5 h6 => ⟨h4, h5, h6⟩) h

theorem execAdvance_cases {s t : State} {x : Inst} (hx : s.Runs x) (h : execAdvance s = .next t) :
    Outcomes .advance s x t := by
  rw [execAdvance, command_legal hx] at h
  exact outcomes_complete (Effect.of_result_cursor _ _ (.inr rfl) (.inl (Nat.min_le_right ..))) h

theorem execRetreat_cases {s t : State} {x : Inst} (hx : s.Runs x) (h : execRetreat s = .next t) :
    Outcomes .retreat s x t := by
  rw [execRetreat, command_legal hx] at h
  by_cases hc : x.cursor ≤ x.argument0
  · simp only [hc, if_true] at h
    exact outcomes_complete (Effect.of_result_cursor _ 0 (.inr rfl) (.inl (Nat.zero_le _))) h
  · simp only [hc, if_false] at h
    refine outcomes_complete (x' := { x with cursor := x.cursor - x.argument0 })
      ⟨rfl, rfl, rfl, rfl, rfl, rfl, .inr rfl, .inl rfl, .inr (Nat.le_refl _), ?_⟩ h
    rintro ⟨h1, h2, h3, h4⟩
    exact ⟨h1, h2, Nat.le_trans (Nat.sub_le ..) h3, h4⟩

theorem execSeek_cases {s t : State} {x : Inst} (hx : s.Runs x) (h : execSeek s = .next t) :
    Outcomes .seek s x t := by
  rw [execSeek, command_legal hx] at h
  exact outcomes_complete (Effect.of_result_cursor _ _ (.inr rfl) (.inl (Nat.min_le_right ..))) h

theorem execPosition_cases {s t : State} {x : Inst} (hx : s.Runs x) (h : execPosition s = .next t) :
    Outcomes .position s x t := by
  rw [execPosition, command_legal hx] at h
  exact outcomes_complete (Effect.of_result_cursor _ _ (.inl rfl) (.inr rfl)) h

theorem execCapacityBits_cases {s t : State} {x : Inst} (hx : s.Runs x) (h : execCapacityBits s = .next t) :
    Outcomes .capacityBits s x t := by
  rw [execCapacityBits, command_legal hx] at h
  exact outcomes_complete (Effect.of_result_cursor _ _ (.inl rfl) (.inr rfl)) h

theorem execFlush_cases {s t : State} {x : Inst} (hx : s.Runs x) (h : execFlush s = .next t) :
    Outcomes .flush s x t := by
  rw [execFlush, command_legal hx] at h
  dsimp only at h
  split at h
  · exact outcomes_raise (by decide) (by decide) h
  · rename_i hmax
    refine .inr (.inr ⟨{ x with words := [], capacity := max 1 x.argument0, cursor := 0,
                                 result := resultOf x.capacity }, ?_,
      .inr (.inr ⟨rfl, _, (Host.Outcome.next.inj h).symm⟩)⟩)
    refine ⟨rfl, rfl, rfl, rfl, rfl, rfl, .inl rfl, .inl rfl, .inl rfl, ?_⟩
    rintro ⟨-, -, -, -, -, -, h7⟩
    exact ⟨Nat.le_max_left .., Nat.le_of_not_lt hmax, Nat.zero_le _, Memory.wf_nil, by simp, by simp, h7⟩

/-- Everything the next state of a command can be: HALTED where FATAL is set, and else one of `Outcomes`. -/
theorem exec_cases {i : Instr} {s t : State} (h : exec i s = .next t) :
    ∃ x, s.insts[s.active]? = some x ∧
      ((x.status.fatal = true ∧ t = s.ended x .halted) ∨ (x.status.fatal = false ∧ Outcomes i s x t)) := by
  have hx : ∃ x, s.insts[s.active]? = some x := by
    cases hg : s.insts[s.active]? with
    | some x => exact ⟨x, rfl⟩
    | none =>
      cases i <;>
        simp [exec, execGetBit, execSetBit, execClearBit, execReadWordIdx, execReadWordCur, execWriteWordIdx,
          execWriteWordCur, execWriteBufferIdx, execWriteBufferCur, execWriteStreamII, execWriteStreamCI,
          execWriteStreamCC, execDoubleCapacity, execAdvance, execRetreat, execSeek, execPosition,
          execCapacityBits, execFlush, command_missing hg] at h
  obtain ⟨x, hx⟩ := hx
  refine ⟨x, hx, ?_⟩
  cases hf : x.status.fatal with
  | true =>
    left
    refine ⟨rfl, ?_⟩
    cases i <;>
      simp only [exec, execGetBit, execSetBit, execClearBit, execReadWordIdx, execReadWordCur, execWriteWordIdx,
        execWriteWordCur, execWriteBufferIdx, execWriteBufferCur, execWriteStreamII, execWriteStreamCI,
        execWriteStreamCC, execDoubleCapacity, execAdvance, execRetreat, execSeek, execPosition,
        execCapacityBits, execFlush, command_halted hx hf] at h <;>
      exact (Host.Outcome.next.inj h).symm
  | false =>
    right
    refine ⟨rfl, ?_⟩
    have hr : s.Runs x := ⟨hx, hf⟩
    cases i with
    | getBit => exact execGetBit_cases hr h
    | setBit => exact execSetBit_cases hr h
    | clearBit => exact execClearBit_cases hr h
    | readWordIdx n => exact execReadWordIdx_cases hr h
    | readWordCur n => exact execReadWordCur_cases hr h
    | writeWordIdx n => exact execWriteWordIdx_cases hr h
    | writeWordCur n => exact execWriteWordCur_cases hr h
    | writeBufferIdx => exact execWriteBufferIdx_cases hr h
    | writeBufferCur => exact execWriteBufferCur_cases hr h
    | writeStreamII src => exact execWriteStreamII_cases hr h
    | writeStreamCI src => exact execWriteStreamCI_cases hr h
    | writeStreamCC src => exact execWriteStreamCC_cases hr h
    | doubleCapacity => exact execDoubleCapacity_cases hr h
    | advance => exact execAdvance_cases hr h
    | retreat => exact execRetreat_cases hr h
    | seek => exact execSeek_cases hr h
    | position => exact execPosition_cases hr h
    | capacityBits => exact execCapacityBits_cases hr h
    | flush => exact execFlush_cases hr h

end Sys2Proof.Machine
end

