-- ==== Sys2Proof/Laws/PerInstr.lean ====
section
/-! SUPPORT. Laws of the commands as syntax, one lemma per constructor. Family TableWord: the encoder against the
opcode table's own mask and match values (opcode_table.json), which the encoder is not written from. -/

namespace Sys2Proof.Laws.TableWord

/-- A row of the opcode table: its mask, and the value its word has under it. -/
structure Row where
  mask : BitVec 32
  value : BitVec 32

/-- The opcode table's rows. -/
def row : Instr → Row
  | .getBit => ⟨0xFFFFFFFF, 0x00000001⟩
  | .setBit => ⟨0xFFFFFFFF, 0x00000002⟩
  | .clearBit => ⟨0xFFFFFFFF, 0x00000003⟩
  | .readWordIdx _ => ⟨0xFFFFF81F, 0x00000004⟩
  | .readWordCur _ => ⟨0xFFFFF81F, 0x00000005⟩
  | .writeWordIdx _ => ⟨0xFFFFF81F, 0x00000006⟩
  | .writeWordCur _ => ⟨0xFFFFF81F, 0x00000007⟩
  | .writeBufferIdx => ⟨0xFFFFFFFF, 0x00000008⟩
  | .writeBufferCur => ⟨0xFFFFFFFF, 0x00000009⟩
  | .writeStreamII _ => ⟨0xFFFFC7FF, 0x0000000A⟩
  | .writeStreamCI _ => ⟨0xFFFFC7FF, 0x0000000B⟩
  | .writeStreamCC _ => ⟨0xFFFFC7FF, 0x0000000C⟩
  | .doubleCapacity => ⟨0xFFFFFFFF, 0x0000000D⟩
  | .advance => ⟨0xFFFFFFFF, 0x0000000E⟩
  | .retreat => ⟨0xFFFFFFFF, 0x0000000F⟩
  | .seek => ⟨0xFFFFFFFF, 0x00000010⟩
  | .position => ⟨0xFFFFFFFF, 0x00000011⟩
  | .capacityBits => ⟨0xFFFFFFFF, 0x00000012⟩
  | .flush => ⟨0xFFFFFFFF, 0x00000013⟩

/-- The encoded command has the row's fixed bits, and its other bits are the fields N at bit 5 and SRC at bit 11. -/
def Statement (i : Instr) : Prop :=
  encode i &&& (row i).mask = (row i).value ∧
  encode i &&& ~~~(row i).mask = (i.countField.setWidth 32 <<< 5) ||| (i.sourceField.setWidth 32 <<< 11)

theorem getBit : Statement .getBit := by
  unfold Statement
  decide

theorem setBit : Statement .setBit := by
  unfold Statement
  decide

theorem clearBit : Statement .clearBit := by
  unfold Statement
  decide

theorem readWordIdx (n : BitVec 6) : Statement (.readWordIdx n) := by
  revert n
  unfold Statement
  decide

theorem readWordCur (n : BitVec 6) : Statement (.readWordCur n) := by
  revert n
  unfold Statement
  decide

theorem writeWordIdx (n : BitVec 6) : Statement (.writeWordIdx n) := by
  revert n
  unfold Statement
  decide

theorem writeWordCur (n : BitVec 6) : Statement (.writeWordCur n) := by
  revert n
  unfold Statement
  decide

theorem writeBufferIdx : Statement .writeBufferIdx := by
  unfold Statement
  decide

theorem writeBufferCur : Statement .writeBufferCur := by
  unfold Statement
  decide

theorem writeStreamII (src : BitVec 3) : Statement (.writeStreamII src) := by
  revert src
  unfold Statement
  decide

theorem writeStreamCI (src : BitVec 3) : Statement (.writeStreamCI src) := by
  revert src
  unfold Statement
  decide

theorem writeStreamCC (src : BitVec 3) : Statement (.writeStreamCC src) := by
  revert src
  unfold Statement
  decide

theorem doubleCapacity : Statement .doubleCapacity := by
  unfold Statement
  decide

theorem advance : Statement .advance := by
  unfold Statement
  decide

theorem retreat : Statement .retreat := by
  unfold Statement
  decide

theorem seek : Statement .seek := by
  unfold Statement
  decide

theorem position : Statement .position := by
  unfold Statement
  decide

theorem capacityBits : Statement .capacityBits := by
  unfold Statement
  decide

theorem flush : Statement .flush := by
  unfold Statement
  decide

end Sys2Proof.Laws.TableWord
end

