-- ==== Sys2Proof/Laws/Step.lean ====
section
/-! SUPPORT. Everything a step can be (`step_cases`), a host action (`hostAct_cases`) and an issued CMD value
(`execWord_cases`); and what a step answers where its condition is known. -/

namespace Sys2Proof.Machine

theorem wordsMissing_iff (s : State) (x : Inst) :
    wordsMissing s x = true ↔ x.extIn.length < wordsFor x.arg1.toNat s.W := by
  rw [wordsMissing, Inst.argument1]
  exact decide_eq_true_iff

/-- An issued CMD value: a command, or a value that encodes none (R66). -/
theorem execWord_cases {c : Reg} {s t : State} (h : execWord c s = .next t) :
    (∃ i, decode c = .ok i ∧ exec i s = .next t) ∨
    (∃ e x, decode c = .error e ∧ s.insts[s.active]? = some x ∧
      ((x.status.fatal = true ∧ t = s.ended x .halted) ∨ (x.status.fatal = false ∧ t = s.ended x .illegalCommand))) := by
  rw [execWord] at h
  split at h
  · rename_i i hi
    exact .inl ⟨i, hi, h⟩
  · rename_i e he
    rw [execIllegal] at h
    obtain ⟨x, hx, hc⟩ := command_next h
    rcases hc with ⟨hf, h⟩ | ⟨hf, -, h⟩ | ⟨-, hl, -⟩
    · exact .inr ⟨e, x, he, hx, .inl ⟨hf, h⟩⟩
    · exact .inr ⟨e, x, he, hx, .inr ⟨hf, h⟩⟩
    · simp at hl

/-- The state in which the command of a CMD write executes: CMD holds the value and instance k executes (R26, R60). -/
def issued (k : Nat) (c : Reg) (x : Inst) (s : State) : State :=
  { s.setInst k { x with cmd := c } with active := k }

theorem hostWrite_cmd {k : Nat} {c : Reg} {s : State} {x : Inst} (h : s.insts[k]? = some x) :
    hostWrite k .cmd c s = execWord c (issued k c x s) := by
  rw [hostWrite, withInst_eq h]
  rfl

theorem hostWrite_other {k : Nat} {r : HostReg} {v : Reg} {s : State} {x : Inst} (h : s.insts[k]? = some x)
    (hr : r ≠ .cmd) : hostWrite k r v s = .next (s.setInst k (x.writeReg r v)) := by
  rw [hostWrite, withInst_eq h]
  cases r <;> first | rfl | exact absurd rfl hr

/-- Everything a host action can be. -/
theorem hostAct_cases {a : HostAction} {s t : State} (h : hostAct a s = .next t) :
    (∃ k c x, a = .write k .cmd c ∧ s.insts[k]? = some x ∧ execWord c (issued k c x s) = .next t) ∨
    (∃ k r v x, a = .write k r v ∧ r ≠ .cmd ∧ s.insts[k]? = some x ∧ t = s.setInst k (x.writeReg r v)) ∨
    (∃ k w x, a = .push k w ∧ s.insts[k]? = some x ∧
      t = s.setInst k { x with extIn := x.extIn ++ [w &&& lowmask s.W] }) ∨
    (∃ k r x, a = .read k r ∧ s.insts[k]? = some x ∧ t = s.observe (.registerRead k r (x.readReg r))) ∨
    (∃ k p, a = .reset k ∧ s.cfg.insts[k]? = some p ∧ t = s.setInst k (Inst.reset s.W p)) ∨
    (a = .systemReset ∧ t = { s with insts := s.cfg.insts.map (Inst.reset s.W) }) := by
  cases a with
  | write k r v =>
    rw [hostAct] at h
    have h' := h
    rw [hostWrite] at h'
    obtain ⟨x, hx, -⟩ := withInst_next h'
    by_cases hr : r = .cmd
    · subst hr
      rw [hostWrite_cmd hx] at h
      exact .inl ⟨k, v, x, rfl, hx, h⟩
    · rw [hostWrite_other hx hr] at h
      exact .inr (.inl ⟨k, r, v, x, rfl, hr, hx, (Host.Outcome.next.inj h).symm⟩)
  | push k w =>
    obtain ⟨x, hx, h⟩ := withInst_next h
    exact .inr (.inr (.inl ⟨k, w, x, rfl, hx, (Host.Outcome.next.inj h).symm⟩))
  | read k r =>
    obtain ⟨x, hx, h⟩ := withInst_next h
    exact .inr (.inr (.inr (.inl ⟨k, r, x, rfl, hx, (Host.Outcome.next.inj h).symm⟩)))
  | reset k =>
    rw [hostAct, hostReset] at h
    split at h
    · simp at h
    · rename_i p hp
      exact .inr (.inr (.inr (.inr (.inl ⟨k, p, rfl, hp, (Host.Outcome.next.inj h).symm⟩))))
  | systemReset => exact .inr (.inr (.inr (.inr (.inr ⟨rfl, (Host.Outcome.next.inj h).symm⟩))))

/-- The host actions that may be taken while a command executes (R32, R241, R242). -/
theorem allowedWhileExecuting_iff (active : Nat) (a : HostAction) :
    allowedWhileExecuting active a = true ↔ a.MayBeTaken active := by
  cases a with
  | write k r v => cases r <;> simp [allowedWhileExecuting, HostAction.MayBeTaken]
  | _ => simp [allowedWhileExecuting, HostAction.MayBeTaken]

/-- Everything a step can be. -/
theorem step_cases {s t : State} (h : step s = .next t) :
    s.cfg.Valid ∧
      ((s.waiting = none ∧ s.host = [] ∧ t = s) ∨
       (∃ a rest, s.waiting = none ∧ s.host = a :: rest ∧ hostAct a { s with host := rest } = .next t) ∨
       (∃ i x, s.waiting = some i ∧ s.insts[s.active]? = some x ∧ wordsFor x.arg1.toNat s.W ≤ x.extIn.length ∧
          exec i { s with waiting := none } = .next t) ∨
       (∃ i a rest, s.waiting = some i ∧ s.host = a :: rest ∧ a.MayBeTaken s.active ∧
          hostAct a { s with host := rest } = .next t)) := by
  rw [step] at h
  split at h
  · rename_i hv
    refine ⟨hv, ?_⟩
    rw [systemStep] at h
    split at h
    · rename_i i hi
      obtain ⟨x, hx, h⟩ := withInst_next h
      split at h
      · rename_i hm
        rw [hostActWaiting] at h
        split at h
        · simp at h
        · rename_i a rest hh
          split at h
          · rename_i ha
            exact .inr (.inr (.inr ⟨i, a, rest, hi, hh, (allowedWhileExecuting_iff _ _).1 ha, h⟩))
          · simp at h
      · rename_i hm
        refine .inr (.inr (.inl ⟨i, x, hi, hx, ?_, h⟩))
        rw [wordsMissing_iff] at hm
        omega
    · rename_i hi
      split at h
      · rename_i hh
        exact .inl ⟨hi, hh, (Host.Outcome.next.inj h).symm⟩
      · rename_i a rest hh
        exact .inr (.inl ⟨a, rest, hi, hh, h⟩)
  · simp at h

/-- The step that takes a host action. -/
theorem step_next {s : State} {a : HostAction} {rest : List HostAction} (h : s.Next a rest) :
    step s = hostAct a { s with host := rest } := by
  rw [step, if_pos h.1, systemStep, h.2.1, h.2.2]

/-- The step that issues a CMD value (R26, R60). -/
theorem step_issues {s : State} {k : Nat} {c : Reg} {rest : List HostAction} {x : Inst}
    (h : s.Next (.write k .cmd c) rest) (hx : s.insts[k]? = some x) :
    step s = execWord c (issued k c x { s with host := rest }) := by
  rw [step_next h, hostAct, hostWrite_cmd (by exact hx)]

/-- The step of a waiting command whose words are present (R141). -/
theorem step_waiting_goes_on {s : State} {i : Instr} {x : Inst} (hv : s.cfg.Valid) (hi : s.waiting = some i)
    (hx : s.insts[s.active]? = some x) (hq : wordsFor x.arg1.toNat s.W ≤ x.extIn.length) :
    step s = exec i { s with waiting := none } := by
  rw [step, if_pos hv, systemStep, hi]
  simp only
  rw [withInst_eq hx, if_neg]
  rw [wordsMissing_iff]
  omega

/-- The step of a waiting command whose words are missing (R244). -/
theorem step_waiting_short {s : State} {i : Instr} {x : Inst} (hv : s.cfg.Valid) (hi : s.waiting = some i)
    (hx : s.insts[s.active]? = some x) (hq : x.extIn.length < wordsFor x.arg1.toNat s.W) :
    step s = hostActWaiting s := by
  rw [step, if_pos hv, systemStep, hi]
  simp only
  rw [withInst_eq hx, if_pos]
  exact (wordsMissing_iff s x).2 hq

end Sys2Proof.Machine
end

