-- ==== Sys2Proof/Tests/Slice0.lean ====
section
/-! SUPPORT. The model's own tests, each of one step or one command, their expected results from 95_test_vectors.md or
from the examples of the rules; and, for each statement with hypotheses, a witness that meets them. -/

namespace Sys2Proof.Tests

-- One theorem at a time: checked all at once, the many small kernel evaluations below hold a thread each.
set_option Elab.async false

open Sys2Proof.Machine

/-! ### Well-formedness: an ill-formed command for each check (R63, R64) -/

def cfg8 : Config :=
  { width := .w8
    insts := [{ capMax := 4, initHintBits := 0, extInDepth := 1 }, { capMax := 4, initHintBits := 9, extInDepth := 1 }] }

theorem test_wf_count_zero : ∀ i ∈ [Instr.readWordIdx 0, .readWordCur 0, .writeWordIdx 0, .writeWordCur 0],
    i.wf cfg8 = false := by decide

theorem test_wf_count_above_width : ∀ i ∈ [Instr.readWordIdx 9, .readWordCur 9, .writeWordIdx 9, .writeWordCur 9],
    i.wf cfg8 = false := by decide

theorem test_wf_no_such_source : ∀ i ∈ [Instr.writeStreamII 2, .writeStreamCI 2, .writeStreamCC 2],
    i.wf cfg8 = false := by decide

theorem test_wf_boundaries : ∀ i ∈ [Instr.readWordIdx 1, .readWordCur 8, .writeWordIdx 8, .writeWordCur 1,
    .writeStreamII 1, .writeStreamCI 0, .writeStreamCC 1], i.wf cfg8 = true := by decide

/-! ### Decoding words written out bit by bit: RSV, SRC, N, OP (R61, R62) -/

theorem test_decode_plain :
    decode 0b000000000000000000_000_000000_00001 = .ok .getBit ∧
    decode 0b000000000000000000_000_000000_00010 = .ok .setBit ∧
    decode 0b000000000000000000_000_000000_00011 = .ok .clearBit ∧
    decode 0b000000000000000000_000_000000_01000 = .ok .writeBufferIdx ∧
    decode 0b000000000000000000_000_000000_01001 = .ok .writeBufferCur ∧
    decode 0b000000000000000000_000_000000_01101 = .ok .doubleCapacity ∧
    decode 0b000000000000000000_000_000000_01110 = .ok .advance ∧
    decode 0b000000000000000000_000_000000_01111 = .ok .retreat ∧
    decode 0b000000000000000000_000_000000_10000 = .ok .seek ∧
    decode 0b000000000000000000_000_000000_10001 = .ok .position ∧
    decode 0b000000000000000000_000_000000_10010 = .ok .capacityBits ∧
    decode 0b000000000000000000_000_000000_10011 = .ok .flush := by decide

theorem test_decode_counted :
    decode 0b000000000000000000_000_000101_00100 = .ok (.readWordIdx 5) ∧
    decode 0b000000000000000000_000_100000_00101 = .ok (.readWordCur 32) ∧
    decode 0b000000000000000000_000_000101_00110 = .ok (.writeWordIdx 5) ∧
    decode 0b000000000000000000_000_111111_00111 = .ok (.writeWordCur 63) := by decide

theorem test_decode_sourced :
    decode 0b000000000000000000_001_000000_01010 = .ok (.writeStreamII 1) ∧
    decode 0b000000000000000000_100_000000_01011 = .ok (.writeStreamCI 4) ∧
    decode 0b000000000000000000_111_000000_01100 = .ok (.writeStreamCC 7) := by decide

/-- X40: the values that encode no command, whatever the configuration. -/
theorem test_decode_rejects :
    decode 0x00000000 = .error .reservedOpcode ∧ decode 0x00000014 = .error .reservedOpcode ∧
    decode 0x0000001F = .error .reservedOpcode ∧ decode 0x00004011 = .error .reservedBits ∧
    decode 0x80000001 = .error .reservedBits ∧ decode 0x000000A1 = .error .countNotZero ∧
    decode 0x00000811 = .error .sourceNotZero ∧ decode 0x00000804 = .error .sourceNotZero ∧
    decode 0x0000002A = .error .countNotZero := by decide

theorem test_encode :
    encode (.writeWordIdx 5) = 0x000000A6 ∧ encode (.readWordCur 32) = 0x00000405 ∧
    encode (.writeStreamCI 1) = 0x0000080B := by decide

theorem test_decodeTableWord :
    decodeTableWord 32 0x0000080C = some (.writeStreamCC 1) ∧ decodeTableWord 32 0x00004011 = none := by decide

/-! ### Small systems -/

/-- An instance with these words, capacity, cursor and operands; the rest as after reset. -/
def buf (words : Memory) (capacity cursor : Nat) (arg0 arg1 arg2 data : Reg := 0) (extIn : List Word := []) : Inst :=
  { words, capacity, cursor, cmd := 0, arg0, arg1, arg2, data, result := 0
    status := { code := .ok, fatal := false }, extIn }

/-- Two instances of CAP_MAX words, instance 0 executing. -/
def sys (w : Width) (capMax : Nat) (x y : Inst) : State :=
  { cfg := { width := w, insts := [⟨capMax, 0, 1⟩, ⟨capMax, 0, 1⟩] }
    insts := [x, y]
    active := 0
    waiting := none
    host := []
    obs := [] }

/-- The other instance as the vectors leave it: in its reset state. -/
def idle : Inst := buf [] 1 0

/-- What the vectors show of an instance: words, capacity, cursor, RESULT, STATUS. -/
structure Shown where
  words : Memory
  capacity : Nat
  cursor : Nat
  result : Reg
  status : Reg
deriving DecidableEq, Repr

/-- What instance k shows after a step. -/
def left (k : Nat) : Host.Outcome State Fault Refusal → Option Shown
  | .next t => t.insts[k]?.map fun x => ⟨x.words, x.capacity, x.cursor, x.result, x.status.word⟩
  | _ => none

/-! ### One command each -/

/-- X1: the last valid bit, and the index just past it. -/
theorem test_get_bit :
    left 0 (exec .getBit (sys .w8 64 (buf [(0, 0xB0)] 1 0 7) idle)) = some ⟨[(0, 0xB0)], 1, 0, 1, 0⟩ ∧
    left 0 (exec .getBit (sys .w8 64 (buf [(0, 0xB0)] 1 0 8) idle)) = some ⟨[(0, 0xB0)], 1, 0, 0, 1⟩ := by decide

/-- X2: the top bit of the last word, and one past it, which does not grow. -/
theorem test_set_bit :
    left 0 (exec .setBit (sys .w16 64 (buf [] 2 0 31) idle)) = some ⟨[(1, 0x8000)], 2, 0, 0, 0⟩ ∧
    left 0 (exec .setBit (sys .w16 64 (buf [] 2 0 32) idle)) = some ⟨[], 2, 0, 0, 1⟩ := by decide

/-- X3, and clearing a word's only bit, which leaves no listed word. -/
theorem test_clear_bit :
    left 0 (exec .clearBit (sys .w8 64 (buf [(0, 0xFF)] 1 0 0) idle)) = some ⟨[(0, 0xFE)], 1, 0, 0, 0⟩ ∧
    left 0 (exec .clearBit (sys .w8 64 (buf [(0, 0x80)] 1 0 7) idle)) = some ⟨[], 1, 0, 0, 0⟩ := by decide

/-- X5 (split, n = W = 32) and X7 (where the original's end offset would fail). -/
theorem test_read_word_idx :
    left 0 (exec (.readWordIdx 32) (sys .w32 64 (buf [(0, 0xDEADBEEF), (1, 0x12345678)] 2 0 4) idle)) =
      some ⟨[(0, 0xDEADBEEF), (1, 0x12345678)], 2, 0, 0x8DEADBEE, 0⟩ ∧
    left 0 (exec (.readWordIdx 4) (sys .w8 64 (buf [(0, 0xC0), (1, 0x03)] 2 0 6) idle)) =
      some ⟨[(0, 0xC0), (1, 0x03)], 2, 0, 0xF, 0⟩ := by decide

/-- X9: the end of the buffer, and one bit too many. -/
theorem test_read_word_cur :
    left 0 (exec (.readWordCur 2) (sys .w16 64 (buf [(0, 0xABCD), (1, 0xD234)] 2 30) idle)) =
      some ⟨[(0, 0xABCD), (1, 0xD234)], 2, 32, 3, 0⟩ ∧
    left 0 (exec (.readWordCur 3) (sys .w16 64 (buf [(0, 0xABCD), (1, 0xD234)] 2 30) idle)) =
      some ⟨[(0, 0xABCD), (1, 0xD234)], 2, 30, 0, 1⟩ := by decide

/-- X11 (split, neighbours kept) and X14 (ALLOC_FAILURE: STATUS 0x13, no partial growth). -/
theorem test_write_word_idx :
    left 0 (exec (.writeWordIdx 4) (sys .w8 64 (buf [(0, 0xFF), (1, 0xFF)] 2 0 6) idle)) =
      some ⟨[(0, 0x3F), (1, 0xFC)], 2, 0, 0, 0⟩ ∧
    left 0 (exec (.writeWordIdx 8) (sys .w8 4 (buf [] 1 0 40 0 0 0xFF) idle)) = some ⟨[], 1, 0, 0, 0x13⟩ := by decide

/-- R122's example: the buffer grows by one doubling. X12: bits of DATA at n and above are ignored. -/
theorem test_write_word_cur :
    left 0 (exec (.writeWordCur 4) (sys .w8 64 (buf [] 1 5 0 0 0 0b1111) idle)) =
      some ⟨[(0, 0xE0), (1, 0x01)], 2, 9, 0, 0⟩ ∧
    left 0 (exec (.writeWordCur 8) (sys .w16 64 (buf [(0, 0x2345)] 1 4 0 0 0 0xFFFFFFF0) idle)) =
      some ⟨[(0, 0x2F05)], 1, 12, 0, 0⟩ := by decide

/-- X23 (W = 32, unaligned, several words) and X22 (short of words: nothing changes, the command waits). -/
theorem test_write_buffer_idx :
    left 0 (exec .writeBufferIdx
        (sys .w32 64 (buf [(0, 0xFFFFFFFF)] 1 0 3 70 0 0 [0x89ABCDEF, 0x01234567, 0x0000003F]) idle)) =
      some ⟨[(0, 0x4D5E6F7F), (1, 0x091A2B3C), (2, 0x000001F8)], 4, 0, 0, 0⟩ ∧
    exec .writeBufferIdx (sys .w8 64 (buf [] 1 0 0 9 0 0 [0x11]) idle) =
      .next { sys .w8 64 (buf [] 1 0 0 9 0 0 [0x11]) idle with waiting := some .writeBufferIdx } :=
  ⟨by decide, rfl⟩

/-- X18 (aligned) and X20 (n = 0). -/
theorem test_write_buffer_cur :
    left 0 (exec .writeBufferCur (sys .w16 64 (buf [] 1 0 0 20 0 0 [0x1234, 0xFFFF]) idle)) =
      some ⟨[(0, 0x1234), (1, 0x000F)], 2, 20, 0, 0⟩ ∧
    left 0 (exec .writeBufferCur (sys .w8 64 (buf [(0, 0xFF)] 1 3) idle)) = some ⟨[(0, 0xFF)], 1, 3, 0, 0⟩ := by decide

/-- X31 (source and destination unaligned) and X29 (SRC_RANGE_EXCEEDED before ALLOC_FAILURE). -/
theorem test_write_stream_ii :
    left 0 (exec (.writeStreamII 1) (sys .w16 64 (buf [(0, 0xFFFF), (1, 0xFFFF), (2, 0xFFFF)] 4 0 5 3 37)
        (buf [(0, 0x1234), (1, 0x5678), (2, 0x9ABC)] 4 0))) =
      some ⟨[(0, 0x48DF), (1, 0x59E0), (2, 0xFEF1)], 4, 0, 0, 0⟩ ∧
    left 0 (exec (.writeStreamII 1) (sys .w8 4 (buf [] 1 0 64 4 8) (buf [(0, 0xF0)] 1 0))) =
      some ⟨[], 1, 0, 0, 2⟩ := by decide

/-- X25, and X28's priority of ALIASED_COPY over n = 0. -/
theorem test_write_stream_ci :
    left 0 (exec (.writeStreamCI 1) (sys .w8 64 (buf [] 1 0 0 0 8) (buf [(0, 0xA5)] 1 0))) =
      some ⟨[(0, 0xA5)], 1, 8, 0, 0⟩ ∧
    left 0 (exec (.writeStreamCI 0) (sys .w8 64 (buf [] 1 0) idle)) = some ⟨[], 1, 0, 0, 5⟩ := by decide

/-- X26: both cursors advance, and the source keeps its storage and STATUS. -/
theorem test_write_stream_cc :
    left 0 (exec (.writeStreamCC 1) (sys .w8 64 (buf [] 1 0 0 0 4) (buf [(0, 0xF0)] 1 4))) =
      some ⟨[(0, 0x0F)], 1, 4, 0, 0⟩ ∧
    left 1 (exec (.writeStreamCC 1) (sys .w8 64 (buf [] 1 0 0 0 4) (buf [(0, 0xF0)] 1 4))) =
      some ⟨[(0, 0xF0)], 1, 8, 0, 0⟩ := by decide

/-- X33 (a capacity that is no power of two) and X34 (beyond CAP_MAX). -/
theorem test_double_capacity :
    left 0 (exec .doubleCapacity (sys .w32 64 (buf [] 3 70) idle)) = some ⟨[], 6, 70, 0, 0⟩ ∧
    left 0 (exec .doubleCapacity (sys .w8 4 (buf [(0, 0x5A)] 4 0) idle)) = some ⟨[(0, 0x5A)], 4, 0, 0, 0x13⟩ := by
  decide

/-- X35: the sum is exact, so the largest operand clamps and does not wrap. -/
theorem test_advance :
    left 0 (exec .advance (sys .w8 64 (buf [] 2 10 9) idle)) = some ⟨[], 2, 16, 0, 0⟩ ∧
    left 0 (exec .advance (sys .w8 64 (buf [] 2 10 0xFFFFFFFF) idle)) = some ⟨[], 2, 16, 0, 0⟩ := by decide

/-- X35: an operand above the cursor gives 0. -/
theorem test_retreat :
    left 0 (exec .retreat (sys .w8 64 (buf [] 2 16 7) idle)) = some ⟨[], 2, 9, 0, 0⟩ ∧
    left 0 (exec .retreat (sys .w8 64 (buf [] 2 9 100) idle)) = some ⟨[], 2, 0, 0, 0⟩ := by decide

/-- X36. -/
theorem test_seek :
    left 0 (exec .seek (sys .w16 64 (buf [] 1 0 100) idle)) = some ⟨[], 1, 16, 0, 0⟩ ∧
    left 0 (exec .seek (sys .w16 64 (buf [] 1 16 0) idle)) = some ⟨[], 1, 0, 0, 0⟩ := by decide

/-- X33. -/
theorem test_position : left 0 (exec .position (sys .w32 64 (buf [] 6 70) idle)) = some ⟨[], 6, 70, 70, 0⟩ := by decide

/-- X33. -/
theorem test_capacity_bits :
    left 0 (exec .capacityBits (sys .w32 64 (buf [] 6 70) idle)) = some ⟨[], 6, 70, 192, 0⟩ := by decide

/-- What the host has seen after a step. -/
def seen : Host.Outcome State Fault Refusal → Option (List Event)
  | .next t => some t.obs
  | _ => none

/-- X37 (the delivery, in order, with the fresh store) and X39 (beyond CAP_MAX: no delivery). -/
theorem test_flush :
    (left 0 (exec .flush (sys .w8 64 (buf [(0, 0xB0), (1, 0x01)] 2 9 1) idle)) = some ⟨[], 1, 0, 2, 0⟩ ∧
     seen (exec .flush (sys .w8 64 (buf [(0, 0xB0), (1, 0x01)] 2 9 1) idle)) =
       some [.flushOut 0 [0xB0, 0x01], .completed 0 .ok]) ∧
    (left 0 (exec .flush (sys .w8 4 (buf [(0, 0xAA)] 1 5 5) idle)) = some ⟨[(0, 0xAA)], 1, 5, 0, 0x13⟩ ∧
     seen (exec .flush (sys .w8 4 (buf [(0, 0xAA)] 1 5 5) idle)) = some [.completed 0 .allocFailure]) := by decide

/-! ### The step -/

/-- The first step after reset runs the command placed for it: CAPACITY_BITS of the reference configuration. -/
theorem test_first_command :
    left 0 (step (State.reset.withFetchWord 32 0x12)) = some ⟨[], 1, 0, 32, 0⟩ := by decide

/-- X40, X41: N = W + 1 and SRC = NUM_INST complete with ILLEGAL_COMMAND. -/
theorem test_illegal_fields :
    left 0 (step (State.reset.withFetchWord 32 0x424)) = some ⟨[], 1, 0, 0, 4⟩ ∧
    left 0 (step (State.reset.withFetchWord 32 0x100A)) = some ⟨[], 1, 0, 0, 4⟩ := by decide

/-- R206, R207: after an ALLOC_FAILURE the next command reads back as HALTED, STATUS = 0x16. -/
theorem test_halted :
    left 0 (step { sys .w8 4 { buf [] 1 0 with status := { code := .allocFailure, fatal := true } } idle with
      host := [.write 0 .cmd 0x11] }) = some ⟨[], 1, 0, 0, 0x16⟩ := by decide

/-- X42: the reset capacities. -/
theorem test_reset_capacity :
    (Inst.reset 8 ⟨64, 0, 1⟩).capacity = 1 ∧ (Inst.reset 8 ⟨64, 8, 1⟩).capacity = 1 ∧
    (Inst.reset 8 ⟨64, 9, 1⟩).capacity = 2 ∧ (Inst.reset 16 ⟨64, 100, 1⟩).capacity = 7 ∧
    (Inst.reset 32 ⟨64, 64, 1⟩).capacity = 2 := by decide

/-- X4: the mask values. -/
theorem test_masks :
    lowmask 0 = 0x00 ∧ lowmask 5 = 0x1F ∧ lowmask 16 = 0xFFFF ∧ lowmask 32 = 0xFFFFFFFF ∧
    spanmask 8 3 5 = 0xF8 ∧ spanmask 8 5 3 = 0xE0 ∧ spanmask 8 0 8 = 0xFF ∧
    highmask 8 1 = 0xFE ∧ highmask 8 7 = 0x80 ∧ highmask 32 31 = 0x80000000 := by decide

/-! ### The assembler (R69, R70, R71) -/

theorem test_assemble_write_word :
    assemble 8 ["write_word 3, 0b10110, 5"] =
      some [.write 0 .arg0 3, .write 0 .data 0x16, .write 0 .cmd 0x000000A6] := by decide

theorem test_assemble_prefix_and_form :
    assemble 8 ["@1: write_stream 12, 4, @0", "rewind"] =
      some [.write 1 .arg1 12, .write 1 .arg2 4, .write 1 .cmd 0x0000000B, .write 0 .arg0 0, .write 0 .cmd 0x10] := by
  decide

/-! ### Witnesses: what each statement assumes holds of a concrete state, at the boundary of each clause -/

theorem grows_of {W capMax cap R c : Nat} (h : 0 < W ∧ 1 ≤ cap ∧ grownCapacity W capMax cap R = some c) :
    GrowsTo W capMax cap R c := (grownCapacity_eq_some_iff h.1 h.2.1).1 h.2.2

theorem growFails_of {W capMax cap R : Nat} (h : 0 < W ∧ 1 ≤ cap ∧ grownCapacity W capMax cap R = none) :
    GrowFails W capMax cap R := (grownCapacity_eq_none_iff h.1 h.2.1).1 h.2.2

theorem inv_of {s : State} (hv : s.cfg.Valid) (hl : s.insts.length = s.cfg.numInst)
    (hw : ∀ p ∈ s.insts.zipIdx, p.1.Wf s.W (s.cfg.capMax p.2)) (hn : s.waiting = none) : s.Inv := by
  refine ⟨hv, hl, fun k x hx => hw (x, k) ?_, fun i hi => by rw [hn] at hi; cases hi⟩
  exact List.mk_mem_zipIdx_iff_getElem?.2 hx

/-- W = 8, CAP_MAX = 4: the executing instance holds 16 bits with the cursor at 9, the other 8 bits with it at 4. -/
def two (arg0 arg1 arg2 data : Reg := 0) (extIn : List Word := []) : State :=
  sys .w8 4 (buf [(0, 0xB0), (1, 0x01)] 2 9 arg0 arg1 arg2 data extIn) (buf [(0, 0xF0)] 1 4)

/-- Its executing instance. -/
def mine (arg0 arg1 arg2 data : Reg := 0) (extIn : List Word := []) : Inst :=
  buf [(0, 0xB0), (1, 0x01)] 2 9 arg0 arg1 arg2 data extIn

/-- The other instance. -/
def other : Inst := buf [(0, 0xF0)] 1 4

/-- The instance after an ALLOC_FAILURE. -/
def stopped : Inst := { mine with status := { code := .allocFailure, fatal := true } }

/-- `two` with the host about to act. -/
def acting (acts : List HostAction) : State := { two with host := acts }

/-- `two` with a halted executing instance and the host about to act. -/
def haltedAnd (acts : List HostAction) : State := { sys .w8 4 stopped other with host := acts }

/-- A WRITE_BUFFER of 9 bits waits, with the words given, for 2. -/
def waitingFor (words : List Word) (acts : List HostAction) : State :=
  { two 0 9 0 0 words with waiting := some .writeBufferIdx, host := acts }

theorem witness_StepRunsTheIssuedCommand :
    (acting [.write 1 .cmd 0xA6]).Next (.write 1 .cmd 0xA6) [] ∧ (acting [.write 1 .cmd 0xA6]).insts[1]? = some other ∧
    decode 0xA6 = .ok (.writeWordIdx 5) := by decide +kernel

theorem witness_EncodingExamples :
    (acting [.write 0 .cmd 0xA1]).Next (.write 0 .cmd 0xA1) [] ∧ (acting [.write 0 .cmd 0x14]).Next (.write 0 .cmd 0x14) [] ∧
    (acting []).insts[0]? = some mine ∧ mine.status.fatal = false := by decide +kernel

theorem witness_IllegalWordChangesOnlyCode :
    ∀ c ∈ [(0x00000000 : Reg), 0x00000014, 0x0000001F, 0x00004011, 0x80000001, 0x000000A1, 0x00000004, 0x00000124,
        0x00000811, 0x0000100A],
      (acting [.write 0 .cmd c]).Next (.write 0 .cmd c) [] ∧ (acting [.write 0 .cmd c]).insts[0]? = some mine ∧
      mine.status.fatal = false ∧ IllegalWord (acting [.write 0 .cmd c]).cfg c.toNat := by
  unfold IllegalWord
  intro c hc
  simp only [List.mem_cons, List.not_mem_nil, or_false] at hc
  rcases hc with rfl | rfl | rfl | rfl | rfl | rfl | rfl | rfl | rfl | rfl <;> decide +kernel

theorem witness_HaltedInstanceExecutesNoWord :
    (haltedAnd [.write 0 .cmd 0x11]).Next (.write 0 .cmd 0x11) [] ∧
    (haltedAnd [.write 0 .cmd 0x11]).insts[0]? = some stopped ∧ stopped.status.fatal = true := by decide +kernel

theorem witness_FatalFlagRule :
    seen (exec .flush (two 5)) = some [.completed 0 .allocFailure] ∧
    (left 0 (step (haltedAnd [.reset 0]))).map (·.status) = some 0 ∧
    (left 0 (step (haltedAnd [.systemReset]))).map (·.status) = some 0 ∧
    (left 0 (step (haltedAnd [.write 0 .cmd 0x11]))).map (·.status) = some 0x16 ∧
    (haltedAnd []).insts[(haltedAnd []).active]? = some stopped ∧ stopped.status.fatal = true := by decide +kernel

theorem witness_NoStepChangesTheParameters : (left 0 (step (acting [.write 0 .cmd 0x10]))).isSome = true := by
  decide +kernel

/-- `CAP_MAX × W` one above the limit; no instance; nine instances; a hint above CAP_MAX. -/
theorem witness_InvalidConfigurationIsRefused :
    ∀ insts ∈ [[⟨2 ^ 29, 0, 1⟩], [], List.replicate 9 ⟨4, 0, 1⟩, [⟨4, 33, 1⟩]],
      ¬ ({ two with cfg := { width := .w8, insts } } : State).cfg.Valid := by decide +kernel

/-- The limits themselves are valid. -/
theorem witness_valid_limits :
    Config.Valid { width := .w8, insts := List.replicate 8 ⟨2 ^ 29 - 1, 0, 1⟩ } ∧
    Config.Valid { width := .w8, insts := [⟨4, 32, 1⟩] } := by decide +kernel

theorem witness_IdleSystemChangesNothing :
    State.reset.cfg.Valid ∧ State.reset.waiting = none ∧ State.reset.host = [] := by decide +kernel

theorem witness_HostAccessToRegistersAndExtIn :
    (∀ r ∈ [HostReg.arg0, .arg1, .arg2, .data, .result, .status],
      (acting [.write 1 r 7]).Next (.write 1 r 7) [] ∧ (acting [.write 1 r 7]).insts[1]? = some other) ∧
    (∀ r ∈ [HostReg.cmd, .arg0, .arg1, .arg2, .data, .result, .status],
      (acting [.read 0 r]).Next (.read 0 r) [] ∧ (acting [.read 0 r]).insts[0]? = some mine) ∧
    (acting [.push 0 0x1FF]).Next (.push 0 0x1FF) [] ∧ (acting [.push 0 0x1FF]).insts[0]? = some mine := by
  decide +kernel

/-- No action left, a reset, a command, and an operand of the executing instance: none may be taken. -/
theorem witness_ShortWriteBufferIsStuck :
    ∀ acts ∈ [[], [HostAction.systemReset], [.reset 0], [.write 1 .cmd 0x11], [.write 0 .arg1 0]],
      (waitingFor [0x11] acts).cfg.Valid ∧ (waitingFor [0x11] acts).waiting = some .writeBufferIdx ∧
      (waitingFor [0x11] acts).insts[0]? = some (mine 0 9 0 0 [0x11]) ∧
      (mine 0 9 0 0 [0x11]).extIn.length < wordsFor (mine 0 9 0 0 [0x11]).arg1.toNat 8 ∧
      ∀ a ∈ acts.head?, ¬ a.MayBeTaken 0 := by
  simp only [← allowedWhileExecuting_iff]
  decide +kernel

theorem witness_WaitingWriteBufferGoesOn :
    (∀ a ∈ [HostAction.push 0 0x22, .read 0 .status, .write 1 .arg0 3, .write 0 .result 3],
      (waitingFor [0x11] [a]).cfg.Valid ∧ (waitingFor [0x11] [a]).waiting = some .writeBufferIdx ∧
      (waitingFor [0x11] [a]).insts[0]? = some (mine 0 9 0 0 [0x11]) ∧
      (mine 0 9 0 0 [0x11]).extIn.length < wordsFor (mine 0 9 0 0 [0x11]).arg1.toNat 8 ∧ a.MayBeTaken 0 ∧
      (left 0 (step { waitingFor [0x11] [a] with waiting := none })).isSome = true) ∧
    (waitingFor [0x11, 0x22] []).insts[0]? = some (mine 0 9 0 0 [0x11, 0x22]) ∧
    wordsFor (mine 0 9 0 0 [0x11, 0x22]).arg1.toNat 8 ≤ (mine 0 9 0 0 [0x11, 0x22]).extIn.length := by
  simp only [← allowedWhileExecuting_iff]
  decide +kernel

theorem witness_ResetResetsInstances :
    (haltedAnd [.reset 1]).Next (.reset 1) [] ∧ (haltedAnd [.reset 1]).cfg.insts[1]? = some ⟨4, 0, 1⟩ ∧
    (haltedAnd [.systemReset]).Next .systemReset [] := by decide +kernel

theorem witness_ResetMeetsTheInvariant : Config.reference.Valid ∧ cfg8.Valid := by decide +kernel

theorem two_wf (a b c d : Reg) : (mine a b c d).Wf 8 4 := by
  have h : (mine 0 0 0 0).Wf 8 4 := by decide +kernel
  obtain ⟨h1, h2, h3, h4, h5, h6, h7⟩ := h
  exact ⟨h1, h2, h3, h4, h5, h6, h7⟩
/-- The configuration of `two`. -/
def cfg4 : Config := { width := .w8, insts := [⟨4, 0, 1⟩, ⟨4, 0, 1⟩] }

theorem cfg4_valid : cfg4.Valid := by decide +kernel
theorem other_wf : other.Wf 8 4 := by decide +kernel

theorem two_inv (a b c d : Reg) : (two a b c d).Inv := by
  have hc : (two a b c d).cfg = cfg4 := rfl
  have hi : (two a b c d).insts = [mine a b c d, other] := rfl
  refine inv_of (by rw [hc]; exact cfg4_valid) (by rw [hc, hi]; rfl) ?_ rfl
  intro p hp
  rw [hi] at hp
  rw [State.W, hc, show cfg4.W = 8 from rfl]
  simp only [List.zipIdx_cons, List.zipIdx_nil, List.mem_cons, List.not_mem_nil, or_false] at hp
  rcases hp with rfl | rfl
  · rw [show cfg4.capMax 0 = 4 from rfl]
    exact two_wf a b c d
  · rw [show cfg4.capMax 1 = 4 from rfl]
    exact other_wf


theorem witness_StepKeepsTheInvariant : (two 17).Inv ∧ (acting [.write 0 .cmd 0x13]).Inv ∧
    (left 0 (step (acting [.write 0 .cmd 0x13]))).isSome = true :=
  ⟨two_inv _ _ _ _, two_inv 0 0 0 0, by decide +kernel⟩

/-- One state for each outcome: a next state, a host action on an instance that does not exist, and a stuck wait. -/
theorem witness_StepsFailOnlyAsNamed :
    (acting [.push 2 0]).Inv ∧ (waitingFor [0x11] []).Inv :=
  ⟨two_inv 0 0 0 0, by decide +kernel, rfl, (two_inv 0 0 0 0).2.2.1 |> fun _ => by
      intro k x hx
      have h : ∀ p ∈ (waitingFor [0x11] []).insts.zipIdx,
          p.1.Wf (waitingFor [0x11] []).W ((waitingFor [0x11] []).cfg.capMax p.2) := by decide +kernel
      exact h (x, k) (List.mk_mem_zipIdx_iff_getElem?.2 hx),
    fun i hi => ⟨.inl (Option.some.inj hi).symm, mine 0 9 0 0 [0x11], rfl, rfl, by decide +kernel⟩⟩

theorem witness_MaskValues : ∀ w ∈ [Width.w8, .w16, .w32],
    w.bits ≤ w.bits ∧ w.bits - 1 < w.bits ∧ (1 ≤ w.bits ∧ 0 + w.bits ≤ w.bits) ∧
    (1 ≤ w.bits - 1 ∧ w.bits - 1 < w.bits) := by decide +kernel

theorem witness_GetBitReadsTheAddressedBit :
    (two 15).Runs (mine 15) ∧ (mine 15).arg0.toNat < (mine 15).capacity * (two 15).W ∧
    (two 16).Runs (mine 16) ∧ (mine 16).capacity * (two 16).W ≤ (mine 16).arg0.toNat := by decide +kernel

theorem witness_SetBitSetsOnlyTheAddressedBit :
    ((two 15).Runs (mine 15) ∧ (mine 15).Wf (two 15).W (two 15).capMax ∧
      (mine 15).arg0.toNat < (mine 15).capacity * (two 15).W) ∧
    ((two 16).Runs (mine 16) ∧ (mine 16).Wf (two 16).W (two 16).capMax ∧
      (mine 16).capacity * (two 16).W ≤ (mine 16).arg0.toNat) := by decide +kernel

theorem witness_ClearBitClearsOnlyTheAddressedBit :
    ((two 4).Runs (mine 4) ∧ (mine 4).Wf (two 4).W (two 4).capMax ∧
      (mine 4).arg0.toNat < (mine 4).capacity * (two 4).W) ∧
    ((two 16).Runs (mine 16) ∧ (mine 16).Wf (two 16).W (two 16).capMax ∧
      (mine 16).capacity * (two 16).W ≤ (mine 16).arg0.toNat) := by decide +kernel

theorem witness_SingleBitLaws :
    (two 8).Runs (mine 8) ∧ (mine 8).Wf (two 8).W (two 8).capMax ∧
    (mine 8).arg0.toNat < (mine 8).capacity * (two 8).W := by decide +kernel

theorem witness_ExtractorLaw :
    Memory.Narrow Width.w8.bits [(0, 0xC0), (1,
    0x03)] ∧ 1 ≤ 8 ∧ 8 ≤ Width.w8.bits ∧ 1 ≤ Width.w8.bits := by decide +kernel

/-- n = W ending at the last bit, one bit further, and the two illegal values of N next to the legal ones. -/
theorem witness_ReadWordIdxExtractsTheField :
    ((two 8).Runs (mine 8) ∧ (mine 8).Wf (two 8).W (two 8).capMax ∧ 1 ≤ (8 : BitVec 6).toNat ∧
      (8 : BitVec 6).toNat ≤ (two 8).W ∧ (mine 8).arg0.toNat + (8 : BitVec 6).toNat ≤ (mine 8).capacity * (two 8).W) ∧
    ((two 9).Runs (mine 9) ∧ (mine 9).Wf (two 9).W (two 9).capMax ∧
      (mine 9).capacity * (two 9).W < (mine 9).arg0.toNat + (8 : BitVec 6).toNat) ∧
    (0 : BitVec 6).toNat = 0 ∧ (two 8).W < (9 : BitVec 6).toNat := by decide +kernel

theorem witness_ReadWordCurExtractsAndAdvances :
    ((two).Runs mine ∧ mine.Wf (two).W (two).capMax ∧ 1 ≤ (7 : BitVec 6).toNat ∧ (7 : BitVec 6).toNat ≤ (two).W ∧
      mine.cursor + (7 : BitVec 6).toNat ≤ mine.capacity * (two).W) ∧
    mine.capacity * (two).W < mine.cursor + (8 : BitVec 6).toNat ∧
    (0 : BitVec 6).toNat = 0 ∧ (two).W < (9 : BitVec 6).toNat := by decide +kernel

theorem witness_GrowthFollowsTheDoublingRule :
    GrowsTo Width.w8.bits 4 1 8 1 ∧ GrowsTo Width.w8.bits 4 1 9 2 ∧ GrowsTo Width.w8.bits 4 1 32 4 ∧
    GrowFails Width.w8.bits 4 1 33 := by
  refine ⟨grows_of ?_, grows_of ?_, grows_of ?_, growFails_of ?_⟩ <;> decide +kernel

/-- Ending at the last bit, one bit further, at the last bit CAP_MAX allows, and one bit further. -/
theorem witness_WriteWordIdxSplicesTheField :
    (∀ a ∈ [8, 9, 25], (two (.ofNat 32 a)).Runs (mine (.ofNat 32 a)) ∧ (mine (.ofNat 32 a)).Wf 8 4) ∧
    (two 8).W < (9 : BitVec 6).toNat ∧ GrowsTo 8 4 2 (8 + 8) 2 ∧ GrowsTo 8 4 2 (9 + 8) 4 ∧ GrowFails 8 4 2 (25 + 8) := by
  refine ⟨?_, ?_, grows_of ?_, grows_of ?_, growFails_of ?_⟩ <;> decide +kernel

/-- A capacity of 1 whose doubling exceeds CAP_MAX = 1. -/
def full : Inst := buf [(0, 0xAA)] 1 8 0 8 8 0x1FF [0x12]

/-- The system of it. -/
def tight : State := sys .w8 1 full other

theorem witness_WriteWordCurSplicesAndAdvances :
    ((two).Runs mine ∧ mine.Wf (two).W (two).capMax ∧ (two).W < (9 : BitVec 6).toNat) ∧
    (tight.Runs full ∧ full.Wf tight.W tight.capMax) ∧
    GrowsTo 8 4 2 (9 + 7) 2 ∧ GrowsTo 8 4 2 (9 + 8) 4 ∧ GrowFails 8 1 1 (8 + 1) := by
  refine ⟨?_, ?_, grows_of ?_, grows_of ?_, growFails_of ?_⟩ <;> decide +kernel

theorem witness_WriteThenReadReturnsTheData :
    ((two 10).Runs (mine 10) ∧ (mine 10).Wf 8 4 ∧ (8 : BitVec 6).toNat ≤ (two 10).W ∧ (mine 10).arg0.toNat = 10 ∧
      (mine 10).cursor = (9 : Reg).toNat) ∧
    GrowsTo 8 4 2 (10 + 8) 4 ∧ GrowsTo 8 4 2 (9 + 8) 4 := by
  refine ⟨?_, grows_of ?_, grows_of ?_⟩ <;> decide +kernel

/-- The words, capacity, cursor and EXT_IN of instance 0, and the event added, after a command of a state with
nothing seen before. -/
def wrote : Host.Outcome State Fault Refusal → Option ((Memory × Nat × Nat × List Word) × List Event)
  | .next t => t.insts[0]?.map fun x => ((x.words, x.capacity, x.cursor, x.extIn), t.obs)
  | _ => none

/-- The seven write commands: each completes on a store that must grow and on one that is large enough. -/
theorem witness_GrowthDoesNotShowInTheBits :
    ∀ i ∈ [Instr.writeWordIdx 8, .writeWordCur 8, .writeBufferIdx, .writeBufferCur, .writeStreamII 1, .writeStreamCI 1,
        .writeStreamCC 1],
      let small := buf [(0, 0xB0), (1, 0x01)] 2 12 9 8 8 0x5A [0x12]
      let large := { small with capacity := 8 }
      let source := buf [(0, 0xF0), (1, 0x5A)] 2 4
      (writeTarget i small).isSome = true ∧
      (wrote (exec i (sys .w8 4 small source))).map (fun p => (p.1.2.1, p.2)) = some (4, [.completed 0 .ok]) ∧
      (wrote (exec i (sys .w8 8 large source))).map (fun p => (p.1.2.1, p.2)) = some (8, [.completed 0 .ok]) := by
  decide +kernel

/-- n = 0; growth fails; one word short; exactly the words, and one more than the words. -/
theorem witness_WriteBufferIdxCopiesTheArray :
    (∀ p ∈ [(0, []), (29, []), (13, [1]), (13, [1, 2, 3])],
      (two 4 (.ofNat 32 p.1) 0 0 p.2).Runs (mine 4 (.ofNat 32 p.1) 0 0 p.2) ∧ (mine 4 (.ofNat 32 p.1) 0 0 p.2).Wf 8 4) ∧
    (1 < wordsFor 13 8 ∧ [(1 : Word), 2, 3] = [1, 2] ++ [3] ∧ [(1 : Word), 2].length = wordsFor 13 8) ∧
    GrowFails 8 4 2 (4 + 29) ∧ GrowsTo 8 4 2 (4 + 13) 4 := by
  refine ⟨?_, ?_, growFails_of ?_, grows_of ?_⟩ <;> decide +kernel

theorem witness_WriteBufferCurCopiesAndAdvances :
    (∀ p ∈ [(0, []), (24, []), (8, []), (7, [1])],
      (two 0 (.ofNat 32 p.1) 0 0 p.2).Runs (mine 0 (.ofNat 32 p.1) 0 0 p.2) ∧ (mine 0 (.ofNat 32 p.1) 0 0 p.2).Wf 8 4) ∧
    (0 < wordsFor 8 8 ∧ [(1 : Word)] = [1] ++ [] ∧ [(1 : Word)].length = wordsFor 7 8) ∧
    GrowFails 8 4 2 (9 + 24) ∧ GrowsTo 8 4 2 (9 + 8) 4 ∧ GrowsTo 8 4 2 (9 + 7) 2 := by
  refine ⟨?_, ?_, growFails_of ?_, grows_of ?_, grows_of ?_⟩ <;> decide +kernel

theorem witness_WriteBufferReadsBack :
    ((two 4 13 0 0 [1, 2]).Runs (mine 4 13 0 0 [1, 2]) ∧ (mine 4 13 0 0 [1, 2]).Wf 8 4 ∧
      (mine 4 13 0 0 [1, 2]).cursor = 9 ∧ wordsFor 13 8 ≤ [(1 : Word), 2].length ∧ 1 < wordsFor 13 8 ∧
      (12 : Reg).toNat = 4 + 1 * 8 ∧ (17 : Reg).toNat = 9 + 1 * 8 ∧ (5 : BitVec 6).toNat = min 8 (13 - 1 * 8)) ∧
    GrowsTo 8 4 2 (4 + 13) 4 ∧ GrowsTo 8 4 2 (9 + 13) 4 := by
  refine ⟨?_, grows_of ?_, grows_of ?_⟩ <;> decide +kernel

/-- SRC = NUM_INST; SRC = INST_ID; n = 0; one bit beyond the source; growth fails; the source's last bit. -/
theorem witness_WriteStreamIICopiesTheBits :
    (((two).Runs mine ∧ mine.Wf 8 4 ∧ (two).cfg.numInst ≤ (2 : BitVec 3).toNat) ∧
      ((0 : BitVec 3).toNat < (two).cfg.numInst ∧ (two).insts[(0 : BitVec 3).toNat]? = some mine ∧
        mine.words.Narrow 8 ∧ (0 : BitVec 3).toNat = (two).active) ∧
      (1 : BitVec 3).toNat ≠ (two).active ∧ (two).insts[(1 : BitVec 3).toNat]? = some other ∧ other.words.Narrow 8) ∧
    (((two 0 5 4).Runs (mine 0 5 4) ∧ other.capacity * 8 < 5 + 4) ∧
      (two 29 4 4).Runs (mine 29 4 4) ∧ (two 13 4 4).Runs (mine 13 4 4) ∧ 4 + 4 ≤ other.capacity * 8) ∧
    GrowFails 8 4 2 (29 + 4) ∧ GrowsTo 8 4 2 (13 + 4) 4 := by
  refine ⟨?_, ?_, growFails_of ?_, grows_of ?_⟩ <;> decide +kernel

theorem witness_WriteStreamCICopiesAndAdvances :
    ((two).Runs mine ∧ mine.Wf 8 4 ∧ (two).cfg.numInst ≤ (2 : BitVec 3).toNat ∧
      (0 : BitVec 3).toNat = (two).active ∧ (1 : BitVec 3).toNat ≠ (two).active) ∧
    (((two 0 5 4).Runs (mine 0 5 4) ∧ other.capacity * 8 < 5 + 4) ∧
      (tight.Runs full ∧ full.Wf tight.W tight.capMax) ∧ (two 0 0 8).Runs (mine 0 0 8) ∧ 0 + 8 ≤ other.capacity * 8) ∧
    GrowFails 8 1 1 (8 + 8) ∧ GrowsTo 8 4 2 (9 + 8) 4 := by
  refine ⟨?_, ?_, growFails_of ?_, grows_of ?_⟩ <;> decide +kernel

theorem witness_WriteStreamCCCopiesAndAdvancesBoth :
    ((two).Runs mine ∧ mine.Wf 8 4 ∧ (two).cfg.numInst ≤ (2 : BitVec 3).toNat ∧
      (0 : BitVec 3).toNat = (two).active ∧ (1 : BitVec 3).toNat ≠ (two).active) ∧
    (((two 0 0 5).Runs (mine 0 0 5) ∧ other.capacity * 8 < other.cursor + 5) ∧
      (sys .w8 1 (buf [] 1 8 0 0 4) other).Runs (buf [] 1 8 0 0 4) ∧ (two 0 0 4).Runs (mine 0 0 4) ∧
      other.cursor + 4 ≤ other.capacity * 8) ∧
    GrowFails 8 1 1 (8 + 4) ∧ GrowsTo 8 4 2 (9 + 4) 2 := by
  refine ⟨?_, ?_, growFails_of ?_, grows_of ?_⟩ <;> decide +kernel

/-- One system for the three forms: destination 9 for all of them, source 4 for all of them. -/
theorem witness_StreamCopyFidelity :
    ((two 9 4 4).Runs (mine 9 4 4) ∧ (mine 9 4 4).Wf 8 4 ∧ (1 : BitVec 3).toNat < (two 9 4 4).cfg.numInst ∧
      (two 9 4 4).insts[(1 : BitVec 3).toNat]? = some other ∧ other.words.Narrow 8 ∧
      (1 : BitVec 3).toNat ≠ (two 9 4 4).active ∧ (mine 9 4 4).arg0.toNat = 9 ∧ (mine 9 4 4).cursor = 9 ∧
      (mine 9 4 4).arg1.toNat = 4 ∧ other.cursor = 4 ∧ 4 + 4 ≤ other.capacity * 8) ∧
    GrowsTo 8 4 2 (9 + 4) 2 :=
  ⟨by decide +kernel, grows_of (by decide +kernel)⟩

theorem witness_StreamCursorEffects :
    ∀ i ∈ [Instr.writeStreamII 1, .writeStreamCI 1, .writeStreamCC 1],
      (left 0 (exec i (two 9 4 4))).map (·.status) = some 0 ∧ (left 0 (exec i (two 9 5 5))).map (·.status) = some 2 ∧
      (1 : BitVec 3).toNat ≠ (two 9 4 4).active := by decide +kernel

/-- At CAP_MAX after the doubling, and beyond it. -/
theorem witness_DoubleCapacityDoublesOnce :
    ((two).Runs mine ∧ 2 * mine.capacity ≤ (two).capMax) ∧ (tight.Runs full ∧ tight.capMax < 2 * full.capacity) := by
  decide +kernel

theorem witness_RetreatClampsAtZero :
    ((two 9).Runs (mine 9) ∧ (mine 9).cursor ≤ (mine 9).arg0.toNat) ∧
    ((two 8).Runs (mine 8) ∧ (mine 8).cursor = 1 + (mine 8).arg0.toNat) := by decide +kernel

theorem witness_AdvanceClampsAtTheEnd_SeekClampsAtTheEnd : (two 0xFFFFFFFF).Runs (mine 0xFFFFFFFF) := by
  decide +kernel

theorem witness_PositionReadsTheCursor : (two).Runs mine ∧ (two).Inv := ⟨by decide +kernel, two_inv 0 0 0 0⟩

theorem witness_CapacityBitsReadsTheCapacity : (two).Runs mine ∧ (two).Inv := ⟨by decide +kernel, two_inv 0 0 0 0⟩

theorem witness_CursorCommandsDoNotGrow :
    ∀ i ∈ [Instr.advance, .retreat, .seek, .position, .capacityBits],
      (two 17).insts[(two 17).active]? = some (mine 17) ∧ (mine 17).cursor ≤ (mine 17).capacity * (two 17).W ∧
      (left 0 (exec i (two 17))).isSome = true := by decide +kernel

/-- CAP_MAX itself, 0 (taken as 1), and one above CAP_MAX. -/
theorem witness_FlushDeliversAndStartsOver :
    ((two 4).Runs (mine 4) ∧ max 1 (mine 4).arg0.toNat ≤ (two 4).capMax) ∧
    ((two 0).Runs (mine 0) ∧ max 1 (mine 0).arg0.toNat ≤ (two 0).capMax) ∧
    ((two 5).Runs (mine 5) ∧ (two 5).capMax < max 1 (mine 5).arg0.toNat) := by decide +kernel

theorem witness_FlushIsAResetOfTheStore :
    (two 3).Runs (mine 3) ∧ max 1 (mine 3).arg0.toNat ≤ (two 3).capMax ∧
    (⟨4, 24, 1⟩ : InstConfig).initHintBits = max 1 (mine 3).arg0.toNat * (two 3).W := by decide +kernel

/-- An error, an OK and a wait. -/
theorem witness_ErrorsArePrecise :
    (left 0 (exec .getBit (two 16))).map (·.status) = some 1 ∧ (left 0 (exec .flush (two 5))).map (·.status) = some 0x13 ∧
    (left 0 (exec .getBit (two 15))).map (·.status) = some 0 ∧
    (left 0 (exec .writeBufferIdx (two 0 9))).isSome = true := by decide +kernel

theorem witness_ResultIsWrittenOnlyByItsCommands :
    (∀ i ∈ [Instr.getBit, .readWordIdx 8, .position, .capacityBits, .flush],
      (left 0 (exec i (two 4))).map (·.result) ≠ some mine.result) ∧
    (left 0 (exec (.readWordCur 4) (sys .w8 4 (buf [(0, 0xB0)] 1 4) other))).map (·.result) = some 0xB := by
  decide +kernel

theorem witness_CommandsWriteNoOperandRegister : (left 0 (exec (.writeWordIdx 8) (two 8 0 0 1))).isSome = true := by
  decide +kernel

theorem witness_CommandsLeaveOtherInstancesAlone :
    (left 1 (exec (.writeStreamCC 1) (two 0 0 4))).map (·.cursor) = some (other.cursor + 4) ∧
    (left 1 (exec (.writeStreamCI 1) (two 0 0 4))).map (·.cursor) = some other.cursor := by decide +kernel

/-- EXT_IN of instance k after a step. -/
def fifo (k : Nat) : Host.Outcome State Fault Refusal → Option (List Word)
  | .next t => t.insts[k]?.map fun x => x.extIn
  | _ => none

theorem witness_OnlyWriteBufferPopsExtIn :
    fifo 0 (exec .writeBufferIdx (two 4 9 0 0 [1, 2, 3])) = some [3] ∧
    fifo 0 (exec .writeBufferCur (two 4 8 0 0 [1])) = some [] := by decide +kernel

theorem witness_CapacityShrinksOnlyAtFlushAndReset :
    (∀ acts ∈ [[HostAction.write 0 .cmd 0x13], [.reset 0], [.systemReset]],
      (left 0 (step (acting acts))).map (·.capacity) = some 1) ∧
    (acting []).WaitOk :=
  ⟨by decide +kernel, fun _ h => by cases h⟩

theorem witness_UnnamedOperandsHaveNoEffect :
    (two).insts[(two).active]? = some mine ∧
    ∀ p ∈ [(Instr.getBit, HostReg.arg1), (.writeBufferCur, .arg0), (.writeStreamCC 1, .arg1), (.flush, .data)],
      p.2 ∈ [HostReg.arg0, .arg1, .arg2, .data] ∧ readsOperand p.1 p.2 = false := by decide +kernel

/-- Its second clause: NUM_INST says 3, and the third instance is not there. -/
theorem witness_UnnamedOperandsHaveNoEffect_fault :
    exec (.writeStreamII 2) { two with cfg := { width := .w8, insts := List.replicate 3 ⟨4, 0, 1⟩ } } =
      .fault .noSuchInstance := rfl

theorem witness_ReadsNeitherGrowNorStore :
    ∀ i ∈ [Instr.getBit, .setBit, .clearBit, .position, .capacityBits, .readWordIdx 8, .readWordCur 7],
      (two).insts[(two).active]? = some mine ∧ (left 0 (exec i (two))).isSome = true := by decide +kernel

theorem witness_WhatTheHostSawStays : (left 0 (step (acting [.write 0 .cmd 0x13]))).isSome = true := by decide +kernel

end Sys2Proof.Tests
end

/-! PROOFS of family 10_state.md: the reset values (R37), and what sets STATUS.FATAL, what clears it and what it does
(R31). -/

namespace Sys2Proof.Machine

/-! ### Reset values -/

/-- Settles O17: every field of `Inst.reset` is written out in R37's table, and an empty storage reads 0. -/
theorem resetValues : Obligations.ResetValues := by
  unfold Obligations.ResetValues
  intro w p
  exact ⟨Memory.read_nil, rfl, rfl, rfl, rfl, rfl, rfl, rfl, rfl, rfl, rfl, rfl, rfl⟩

/-! ### A halted instance executes nothing -/

/-- Every command runs in the frame of `command`, and the fields it checks are those of its well-formedness (R66). -/
theorem exec_eq_command (i : Instr) (s : State) : ∃ body, exec i s = command (i.wf s.cfg) s body := by
  cases i <;> exact ⟨_, rfl⟩

/-- On a halted instance the code a command ends with is written and FATAL is still 1 (R31). -/
theorem State.ended_eq_endsAs_of_fatal (s : State) {x : Inst} (hf : x.status.fatal = true) (c : Code) :
    s.ended x c = s.endsAs { x with status := { code := c, fatal := true } } := by
  rw [← Status.ended_of_fatal c x.status hf]
  rfl

/-- While FATAL is 1 a command ends with HALTED and changes nothing else (R31, R207). -/
theorem exec_halted {s : State} {x : Inst} (hx : s.insts[s.active]? = some x) (hf : x.status.fatal = true)
    (i : Instr) : exec i s = .next (s.endsAs { x with status := { code := .halted, fatal := true } }) := by
  obtain ⟨body, hexec⟩ := exec_eq_command i s
  rw [hexec, command_halted hx hf, raise_eq, State.ended_eq_endsAs_of_fatal s hf]

/-! ### ALLOC_FAILURE -/

/-- The instance a command has ended in. -/
theorem State.ended_insts_active {s : State} {x : Inst} (hx : s.insts[s.active]? = some x) (x' : Inst) (c : Code) :
    (s.ended x' c).insts[s.active]? = some { x' with status := x'.status.ended c } := by
  rw [State.ended_insts, List.getElem?_set_self (List.getElem?_eq_some_iff.1 hx).1]

/-- A command seen to complete with ALLOC_FAILURE has raised it: neither a wait, an OK nor another error shows it. -/
theorem exec_eq_ended_allocFailure {i : Instr} {s t : State} (h : exec i s = .next t)
    (hobs : .completed s.active .allocFailure ∈ t.obs.drop s.obs.length) :
    ∃ x, s.insts[s.active]? = some x ∧ t = s.ended x .allocFailure := by
  obtain ⟨x, hx, hc⟩ := exec_cases h
  refine ⟨x, hx, ?_⟩
  rcases hc with ⟨-, rfl⟩ | ⟨-, ⟨c, -, -, rfl⟩ | ⟨-, -, -, rfl⟩ |
    ⟨x', -, rfl | ⟨src, y, -, -, -, -, rfl⟩ | ⟨-, ws, rfl⟩⟩⟩
  · simp at hobs
  · have hcode : .allocFailure = c := by simpa using hobs
    rw [hcode]
  · simp at hobs
  · simp at hobs
  · simp at hobs
  · simp at hobs

/-! ### FATAL is sticky -/

/-- From s to t instance k stays, and stays halted where it was halted. -/
def KeepsFatal (k : Nat) (s t : State) : Prop :=
  ∀ x, s.insts[k]? = some x → x.status.fatal = true → ∃ y, t.insts[k]? = some y ∧ y.status.fatal = true

theorem KeepsFatal.of_insts_eq {k : Nat} {s t : State} (h : t.insts = s.insts) : KeepsFatal k s t :=
  fun x hx hf => ⟨x, h ▸ hx, hf⟩

theorem KeepsFatal.trans {k : Nat} {s t u : State} (h : KeepsFatal k s t) (h' : KeepsFatal k t u) :
    KeepsFatal k s u := fun x hx hf =>
  have ⟨y, hy, hfy⟩ := h x hx hf
  h' y hy hfy

/-- Replacing another instance keeps FATAL of instance k. -/
theorem keepsFatal_setInst_of_ne {j k : Nat} (hjk : j ≠ k) (s : State) (y : Inst) :
    KeepsFatal k s (s.setInst j y) := fun x hx hf =>
  ⟨x, by rw [State.setInst_insts, List.getElem?_set_ne hjk, hx], hf⟩

/-- Replacing an instance by one that is halted where it was keeps FATAL everywhere. -/
theorem keepsFatal_setInst {j k : Nat} {s : State} {x y : Inst} (hx : s.insts[j]? = some x)
    (hxy : x.status.fatal = true → y.status.fatal = true) : KeepsFatal k s (s.setInst j y) := by
  by_cases hjk : j = k
  · subst hjk
    intro z hz hf
    obtain rfl : x = z := Option.some.inj (hx.symm.trans hz)
    exact ⟨y, by rw [State.setInst_insts, List.getElem?_set_self (List.getElem?_eq_some_iff.1 hx).1], hxy hf⟩
  · exact keepsFatal_setInst_of_ne hjk s y

/-- The end of a command keeps FATAL, since it only adds to it (R31). -/
theorem keepsFatal_ended {k : Nat} {s : State} {x x' : Inst} (hx : s.insts[s.active]? = some x)
    (hst : x'.status = x.status) (c : Code) : KeepsFatal k s (s.ended x' c) :=
  (keepsFatal_setInst hx (y := { x' with status := x'.status.ended c })
    (fun hf => by simp [hst, hf])).trans (.of_insts_eq rfl)

/-- No command clears FATAL, in its own instance or in its source. -/
theorem exec_keepsFatal {i : Instr} {s t : State} (h : exec i s = .next t) (k : Nat) : KeepsFatal k s t := by
  obtain ⟨x, hx, hc⟩ := exec_cases h
  rcases hc with ⟨-, rfl⟩ | ⟨-, ⟨c, -, -, rfl⟩ | ⟨-, -, -, rfl⟩ |
    ⟨x', heff, rfl | ⟨src, y, -, hne, hy, -, rfl⟩ | ⟨-, ws, rfl⟩⟩⟩
  · exact keepsFatal_ended hx rfl _
  · exact keepsFatal_ended hx rfl c
  · exact .of_insts_eq rfl
  · exact keepsFatal_ended hx heff.status _
  · have hsource : KeepsFatal k s (s.setInst (sourceOf src) { y with cursor := y.cursor + x.arg2.toNat }) :=
      keepsFatal_setInst hy id
    have hx' : (s.setInst (sourceOf src) { y with cursor := y.cursor + x.arg2.toNat }).insts[s.active]? = some x := by
      rw [State.setInst_insts, List.getElem?_set_ne hne, hx]
    exact hsource.trans (keepsFatal_ended hx' heff.status _)
  · exact keepsFatal_ended (s := s.observe (.flushOut s.active ws)) hx heff.status _

theorem execWord_keepsFatal {c : Reg} {s t : State} (h : execWord c s = .next t) (k : Nat) : KeepsFatal k s t := by
  rcases execWord_cases h with ⟨i, -, h⟩ | ⟨e, x, -, hx, ⟨-, rfl⟩ | ⟨-, rfl⟩⟩
  · exact exec_keepsFatal h k
  · exact keepsFatal_ended hx rfl _
  · exact keepsFatal_ended hx rfl _

/-- A host write to a register leaves STATUS alone (R30). -/
@[simp] theorem Inst.writeReg_status (x : Inst) (r : HostReg) (v : Reg) : (x.writeReg r v).status = x.status := by
  cases r <;> rfl

/-- Of the host's actions only a reset clears FATAL (R31). -/
theorem hostAct_keepsFatal {a : HostAction} {s t : State} {k : Nat} (h : hostAct a s = .next t)
    (hreset : a ≠ .reset k) (hsystem : a ≠ .systemReset) : KeepsFatal k s t := by
  rcases hostAct_cases h with ⟨j, c, x, -, hx, h⟩ | ⟨j, r, v, x, -, -, hx, rfl⟩ | ⟨j, w, x, -, hx, rfl⟩ |
    ⟨j, r, x, -, -, rfl⟩ | ⟨j, p, rfl, -, rfl⟩ | ⟨rfl, -⟩
  · have hissued : KeepsFatal k s (issued j c x s) := keepsFatal_setInst (y := { x with cmd := c }) hx id
    exact hissued.trans (execWord_keepsFatal h k)
  · exact keepsFatal_setInst hx (fun hf => by rwa [Inst.writeReg_status])
  · exact keepsFatal_setInst hx id
  · exact .of_insts_eq rfl
  · exact keepsFatal_setInst_of_ne (fun hjk => hreset (congrArg _ hjk)) s _
  · exact absurd rfl hsystem

/-- A step whose host action is no reset of instance k keeps its FATAL (R31). -/
theorem step_keepsFatal {s t : State} {k : Nat} (h : step s = .next t) (hreset : s.host.head? ≠ some (.reset k))
    (hsystem : s.host.head? ≠ some .systemReset) : KeepsFatal k s t := by
  have taken : ∀ a rest, s.host = a :: rest → hostAct a { s with host := rest } = .next t → KeepsFatal k s t := by
    intro a rest hhost ha
    rw [hhost] at hreset hsystem
    exact hostAct_keepsFatal (s := { s with host := rest }) ha (fun h => hreset (h ▸ rfl)) (fun h => hsystem (h ▸ rfl))
  obtain ⟨-, ⟨-, -, rfl⟩ | ⟨a, rest, -, hhost, ha⟩ | ⟨i, x, -, -, -, hexec⟩ | ⟨i, a, rest, -, hhost, -, ha⟩⟩ :=
    step_cases h
  · exact .of_insts_eq rfl
  · exact taken a rest hhost ha
  · exact exec_keepsFatal (s := { s with waiting := none }) hexec k
  · exact taken a rest hhost ha

/-- Settles O9: ALLOC_FAILURE is only ever raised and sets FATAL, no step but a reset clears it (`step_keepsFatal`), and
a halted instance executes no command (`exec_halted`). -/
theorem fatalFlagRule : Obligations.FatalFlagRule := by
  unfold Obligations.FatalFlagRule
  refine ⟨?_, ?_, fun i s x hx hf => exec_halted hx hf i⟩
  · intro i s t h hobs
    obtain ⟨x, hx, rfl⟩ := exec_eq_ended_allocFailure h hobs
    exact ⟨_, State.ended_insts_active hx x .allocFailure, by simp [Code.isFatal]⟩
  · intro s t k x y h hx hf hy hcleared
    by_contra! hno
    obtain ⟨z, hz, hset⟩ := step_keepsFatal h hno.1 hno.2 x hx hf
    obtain rfl : y = z := Option.some.inj (hy.symm.trans hz)
    exact absurd hset (by simp [hcleared])

end Sys2Proof.Machine

/-! PROOFS of family 30_encoding.md: what the fields of a word that decodes are (R61, R62), when such a word is illegal
in a configuration (R63, R64, R67), and the step that takes a word which is no well-formed command (R66, R71). -/

namespace Sys2Proof

/-! ### The fields as numbers (R61) -/

theorem opField_toNat (c : BitVec 32) : (opField c).toNat = c.toNat % 32 := by
  simp [opField, BitVec.extractLsb'_toNat]

theorem nField_toNat (c : BitVec 32) : (nField c).toNat = c.toNat / 32 % 64 := by
  simp [nField, BitVec.extractLsb'_toNat, Nat.shiftRight_eq_div_pow]

theorem srcField_toNat (c : BitVec 32) : (srcField c).toNat = c.toNat / 2048 % 8 := by
  simp [srcField, BitVec.extractLsb'_toNat, Nat.shiftRight_eq_div_pow]

theorem rsvField_toNat (c : BitVec 32) : (rsvField c).toNat = c.toNat / 16384 := by
  have hc : c.toNat < 2 ^ 32 := c.isLt
  simp only [rsvField, BitVec.extractLsb'_toNat, Nat.shiftRight_eq_div_pow]
  omega

/-! ### What a word that decodes holds -/

theorem decodePlain_eq_ok_iff {i j : Instr} {n : BitVec 6} {src : BitVec 3} :
    decodePlain i n src = .ok j ↔ n = 0 ∧ src = 0 ∧ i = j := by
  unfold decodePlain
  split_ifs <;> simp_all

theorem decodeCounted_eq_ok_iff {i : BitVec 6 → Instr} {j : Instr} {n : BitVec 6} {src : BitVec 3} :
    decodeCounted i n src = .ok j ↔ src = 0 ∧ i n = j := by
  unfold decodeCounted
  split_ifs <;> simp_all

theorem decodeSourced_eq_ok_iff {i : BitVec 3 → Instr} {j : Instr} {n : BitVec 6} {src : BitVec 3} :
    decodeSourced i n src = .ok j ↔ n = 0 ∧ i src = j := by
  unfold decodeSourced
  split_ifs <;> simp_all

/-- The opcode map gives a command only from that command's own three fields (R62). -/
theorem fields_of_decodeOp_eq_ok {op : Nat} {n : BitVec 6} {src : BitVec 3} {i : Instr}
    (h : decodeOp op n src = .ok i) : op = i.opcode.toNat ∧ n = i.countField ∧ src = i.sourceField := by
  unfold decodeOp at h
  split at h
  case h_4 | h_5 | h_6 | h_7 =>
    obtain ⟨rfl, rfl⟩ := decodeCounted_eq_ok_iff.1 h
    exact ⟨rfl, rfl, rfl⟩
  case h_10 | h_11 | h_12 =>
    obtain ⟨rfl, rfl⟩ := decodeSourced_eq_ok_iff.1 h
    exact ⟨rfl, rfl, rfl⟩
  case h_20 => cases h
  all_goals
    obtain ⟨rfl, rfl, rfl⟩ := decodePlain_eq_ok_iff.1 h
    exact ⟨rfl, rfl, rfl⟩

/-- A word that decodes holds the command's own fields and no reserved bit (R61, R62). -/
theorem fields_of_decode_eq_ok {c : BitVec 32} {i : Instr} (h : decode c = .ok i) :
    c.toNat / 16384 = 0 ∧ c.toNat % 32 = i.opcode.toNat ∧ c.toNat / 32 % 64 = i.countField.toNat ∧
    c.toNat / 2048 % 8 = i.sourceField.toNat := by
  unfold decode at h
  split at h
  · simp at h
  · next hrsv =>
    obtain ⟨hop, hn, hsrc⟩ := fields_of_decodeOp_eq_ok h
    rw [← rsvField_toNat, ← opField_toNat, ← nField_toNat, ← srcField_toNat]
    exact ⟨congrArg BitVec.toNat (not_not.1 hrsv), hop, congrArg _ hn, congrArg _ hsrc⟩

end Sys2Proof

namespace Sys2Proof.Machine

/-! ### Illegal words -/

/-- A word that decodes is illegal only by a count or a source its command may not have (R63, R64, R67). -/
theorem illegalWord_iff_of_decode_eq_ok {cfg : Config} {c : Reg} {i : Instr} (h : decode c = .ok i) :
    IllegalWord cfg c.toNat ↔ i.wf cfg = false := by
  obtain ⟨hrsv, hop, hn, hsrc⟩ := fields_of_decode_eq_ok h
  rw [IllegalWord, hrsv, hop, hn, hsrc]
  cases i with
  | readWordIdx n | readWordCur n | writeWordIdx n | writeWordCur n =>
    have hcount : n.toNat = 0 ∨ cfg.W < n.toNat ↔ ¬ (1 ≤ n.toNat ∧ n.toNat ≤ cfg.W) := by omega
    simp [Instr.opcode, Instr.countField, Instr.sourceField, Instr.wf, hcount]
  | _ => simp [Instr.opcode, Instr.countField, Instr.sourceField, Instr.wf]

/-- A word that encodes no command which is well formed in the configuration completes with ILLEGAL_COMMAND, whether
the decoder or the command finds it (R66). -/
theorem execWord_illegal {c : Reg} {s : State} {x : Inst} (hx : s.Runs x)
    (hc : ∀ i, decode c = .ok i → i.wf s.cfg = false) : execWord c s = .next (s.fails x .illegalCommand) := by
  rw [← raise_fails hx.2, execWord]
  split
  · next i hi =>
    obtain ⟨body, hexec⟩ := exec_eq_command i s
    rw [hexec, hc i hi, command_runs hx]
    rfl
  · rw [execIllegal, command_runs hx]
    rfl

/-- The state in which an issued command executes has the written instance as its executing one (R26, R60). -/
theorem runs_afterIssue {s : State} {k : Nat} {x : Inst} (hx : s.insts[k]? = some x) (hf : x.status.fatal = false)
    (c : Reg) (rest : List HostAction) : (s.afterIssue k c x rest).Runs { x with cmd := c } :=
  ⟨List.getElem?_set_self (List.getElem?_eq_some_iff.1 hx).1, hf⟩

/-- The step that takes a write to CMD of a word which is no well-formed command (R66, R203). -/
theorem step_issues_illegal {s : State} {k : Nat} {c : Reg} {rest : List HostAction} {x : Inst}
    (h : s.Next (.write k .cmd c) rest) (hx : s.insts[k]? = some x) (hf : x.status.fatal = false)
    (hc : ∀ i, decode c = .ok i → i.wf s.cfg = false) :
    step s = .next ((s.afterIssue k c x rest).fails { x with cmd := c } .illegalCommand) :=
  (step_issues h hx).trans (execWord_illegal (runs_afterIssue hx hf c rest) hc)

/-- Settles O7: a word of R67's lists does not decode, or decodes to a command that is not well formed. -/
theorem illegalWordChangesOnlyCode : Obligations.IllegalWordChangesOnlyCode := by
  unfold Obligations.IllegalWordChangesOnlyCode
  intro s k c rest x h hx hf hill
  exact step_issues_illegal h hx hf fun i hi => (illegalWord_iff_of_decode_eq_ok hi).1 hill

/-- Settles O5: the lines and the words are evaluated, and a word that does not decode is illegal in every
configuration. -/
theorem encodingExamples : Obligations.EncodingExamples := by
  unfold Obligations.EncodingExamples
  refine ⟨fun _ => rfl, fun _ => rfl, fun _ => rfl, rfl, rfl, rfl, fun c hc => ?_⟩
  obtain ⟨e, he⟩ : ∃ e, decode c = .error e := by
    rcases hc with rfl | rfl
    · exact ⟨.countNotZero, rfl⟩
    · exact ⟨.reservedOpcode, rfl⟩
  have noCommand : ∀ i, decode c ≠ .ok i := fun i hi => by simp [he] at hi
  exact ⟨noCommand, fun s k rest x h hx hf => step_issues_illegal h hx hf fun i hi => absurd hi (noCommand i)⟩

end Sys2Proof.Machine

/-! PROOFS of family 40_bit_access.md: the masks (R80 to R82), and the single-bit commands, which share one range check
and, where they store, one rewritten word (R83 to R86). -/

namespace Sys2Proof

/-! ### Encoding (R61, R62) -/

/-- The decoder takes back what the encoder makes (R62). -/
theorem decode_encode (i : Instr) : decode (encode i) = .ok i := by
  cases i with
  | readWordIdx n | readWordCur n | writeWordIdx n | writeWordCur n => revert n; decide
  | writeStreamII src | writeStreamCI src | writeStreamCC src => revert src; decide
  | _ => rfl

/-- A CMD value is a command exactly where it is the number that the command's fields make (R61). -/
theorem decode_eq_ok_iff_toNat {c : BitVec 32} {i : Instr} :
    decode c = .ok i ↔ c.toNat = i.opcode.toNat + 32 * i.countField.toNat + 2048 * i.sourceField.toNat := by
  have fields : ∀ {d : BitVec 32}, decode d = .ok i →
      d.toNat = i.opcode.toNat + 32 * i.countField.toNat + 2048 * i.sourceField.toNat := by
    intro d hd
    obtain ⟨hrsv, hop, hn, hsrc⟩ := fields_of_decode_eq_ok hd
    omega
  constructor
  · exact fields
  · intro hc
    have heq : c = encode i := BitVec.eq_of_toNat_eq (hc.trans (fields (decode_encode i)).symm)
    rw [heq, decode_encode]

end Sys2Proof

namespace Sys2Proof.Machine

/-- Every command follows the template of the instruction rules, with the word its fields make (R61, R66). -/
theorem followsTemplate (i : Instr) :
    FollowsTemplate i (i.opcode.toNat + 32 * i.countField.toNat + 2048 * i.sourceField.toNat) :=
  ⟨fun _ => decode_eq_ok_iff_toNat, fun _ _ hx hf => exec_halted hx hf i⟩

/-! ### Masks -/

theorem lowmask_toNat {n : Nat} (hn : n ≤ 32) : (lowmask n).toNat = 2 ^ n - 1 := by
  have hpow : 2 ^ n ≤ 2 ^ 32 := Nat.pow_le_pow_right (by omega) hn
  rw [lowmask, BitVec.toNat_ofNat, Nat.mod_eq_of_lt (by omega)]

theorem bitmask_toNat {k : Nat} (hk : k < 32) : (bitmask k).toNat = 2 ^ k := by
  rw [bitmask, BitVec.toNat_ofNat, Nat.mod_eq_of_lt (Nat.pow_lt_pow_right (by omega) hk)]

/-- Settles O22: each mask as a number, or bit by bit, at a width of at most 32 bits. -/
theorem maskValues : Obligations.MaskValues := by
  unfold Obligations.MaskValues
  intro w
  have hW := w.bits_le
  refine ⟨fun n hn => ?_, fun k hk => bitmask_toNat (by omega), fun off n _ h => spanmask_getLsbD hW h,
    fun off _ h => highmask_getLsbD hW (by omega)⟩
  exact ⟨lowmask_toNat (by omega), lowmask_getLsbD (by omega)⟩

/-! ### The range check of the single-bit commands -/

/-- Within the buffer a command that only checks ARG0 against it does its work and ends with OK. -/
theorem command_inRange {s : State} {x : Inst} {f : Inst → Inst} (hx : s.Runs x)
    (hin : x.arg0.toNat < x.capacity * s.W) (hf : (f x).status = x.status) :
    command true s (fun x => if x.bits s.W ≤ x.argument0 then raise .outOfRange x s else complete (f x) s) =
      .next (s.endsAs { f x with status := endStatus .ok }) := by
  rw [command_legal hx, if_neg (Nat.not_le.2 hin), complete_endsAs (hf ▸ hx.2)]

/-- Beyond the buffer it only reports OUT_OF_RANGE. -/
theorem command_outOfRange {s : State} {x : Inst} {f : Inst → Inst} (hx : s.Runs x)
    (hout : x.capacity * s.W ≤ x.arg0.toNat) :
    command true s (fun x => if x.bits s.W ≤ x.argument0 then raise .outOfRange x s else complete (f x) s) =
      .next (s.fails x .outOfRange) := by
  rw [command_legal hx, if_pos hout, raise_fails hx.2]

/-! ### GET_BIT -/

/-- Shifting a bit to the bottom and masking it leaves the bit as a number. -/
theorem ushiftRight_and_one (v : Word) (k : Nat) : (v >>> k) &&& 1 = if v.getLsbD k then 1 else 0 := by
  rw [show (1 : Word) = 1#32 from rfl, BitVec.and_one_eq_setWidth_ofBool_getLsbD, BitVec.getLsbD_ushiftRight,
    Nat.add_zero]
  cases v.getLsbD k <;> rfl

theorem exec_getBit_inRange {s : State} {x : Inst} (hx : s.Runs x) (hin : x.arg0.toNat < x.capacity * s.W) :
    exec .getBit s = .next (s.endsAs
      { x with result := if x.words.bit s.W x.arg0.toNat then 1 else 0, status := endStatus .ok }) := by
  rw [Memory.bit, ← ushiftRight_and_one]
  exact command_inRange hx hin rfl

/-- Settles O23: within the buffer the shifted and masked word is the addressed bit (`exec_getBit_inRange`). -/
theorem getBitReadsTheAddressedBit : Obligations.GetBitReadsTheAddressedBit := by
  unfold Obligations.GetBitReadsTheAddressedBit
  exact ⟨followsTemplate .getBit, fun s x hx => ⟨exec_getBit_inRange hx, command_outOfRange hx⟩⟩

/-! ### SET_BIT and CLEAR_BIT -/

/-- The bits of a storage with bit idx made b (R84, R85). -/
def withBit (W : Nat) (m : Memory) (idx : Nat) (b : Bool) (j : Nat) : Bool := if j = idx then b else m.bit W j

/-- Rewriting the word of bit idx with that bit made b, and the word's other bits kept, changes no other bit of
the storage (R86). -/
theorem Memory.write_holds_withBit {W : Nat} {m : Memory} (hm : m.wf) (hnar : m.Narrow W) (hW : 0 < W) {idx : Nat}
    {b : Bool} {v : Word} (hv : v.toNat < 2 ^ W)
    (hbits : ∀ r, r < W → v.getLsbD r = if r = idx % W then b else (m.read (idx / W)).getLsbD r) :
    (m.write (idx / W) v).Holds W (withBit W m idx b) := by
  refine ⟨Memory.write_wf hm _ _, Memory.write_narrow hnar _ hv, fun j => ?_⟩
  rw [withBit, Memory.bit, Memory.bit, Memory.read_write hm]
  by_cases hword : j / W = idx / W
  · have hsame : j % W = idx % W ↔ j = idx := ⟨fun hoff => Nat.ext_div_mod hword hoff, fun h => h ▸ rfl⟩
    rw [if_pos hword, hbits _ (Nat.mod_lt _ hW), hword]
    simp only [hsame]
  · have hne : j ≠ idx := fun h => hword (h ▸ rfl)
    rw [if_neg hword, if_neg hne]

/-- A single-bit command that stores leaves the addressed bit as b and ends with OK. -/
def MakesBit (i : Instr) (b : Bool) (s : State) (x : Inst) : Prop :=
  ∃ m : Memory, m.Holds s.W (withBit s.W x.words x.arg0.toNat b) ∧
    exec i s = .next (s.endsAs { x with words := m, status := endStatus .ok })

theorem setBit_makesBit {s : State} {x : Inst} (hx : s.Runs x) (hwf : x.Wf s.W s.capMax)
    (hin : x.arg0.toNat < x.capacity * s.W) : MakesBit .setBit true s x := by
  obtain ⟨-, -, -, hm, hnar, -, -⟩ := hwf
  have hoff := Nat.mod_lt x.arg0.toNat s.W_pos
  refine ⟨_, Memory.write_holds_withBit hm hnar s.W_pos (mod_bit_lt (Memory.read_lt hnar _) hoff s.W_le) ?_,
    command_inRange hx hin rfl⟩
  intro r hr
  rw [BitVec.getLsbD_or, bitmask_getLsbD (hoff.trans_le s.W_le)]
  by_cases h : r = x.arg0.toNat % s.W <;> simp [h]

theorem clearBit_makesBit {s : State} {x : Inst} (hx : s.Runs x) (hwf : x.Wf s.W s.capMax)
    (hin : x.arg0.toNat < x.capacity * s.W) : MakesBit .clearBit false s x := by
  obtain ⟨-, -, -, hm, hnar, -, -⟩ := hwf
  have hoff := Nat.mod_lt x.arg0.toNat s.W_pos
  refine ⟨_, Memory.write_holds_withBit hm hnar s.W_pos (and_lt (Memory.read_lt hnar _) _) ?_,
    command_inRange hx hin rfl⟩
  intro r hr
  rw [BitVec.getLsbD_and, notW_getLsbD s.W_le _ hr, bitmask_getLsbD (hoff.trans_le s.W_le)]
  by_cases h : r = x.arg0.toNat % s.W <;> simp [h]

/-- Settles O24: the word OR the bit mask is the old word with the addressed bit 1 (`setBit_makesBit`). -/
theorem setBitSetsOnlyTheAddressedBit : Obligations.SetBitSetsOnlyTheAddressedBit := by
  unfold Obligations.SetBitSetsOnlyTheAddressedBit
  exact ⟨followsTemplate .setBit, fun s x hx hwf => ⟨setBit_makesBit hx hwf, command_outOfRange hx⟩⟩

/-- Settles O25: the word AND NOT the bit mask is the old word with the addressed bit 0 (`clearBit_makesBit`). -/
theorem clearBitClearsOnlyTheAddressedBit : Obligations.ClearBitClearsOnlyTheAddressedBit := by
  unfold Obligations.ClearBitClearsOnlyTheAddressedBit
  exact ⟨followsTemplate .clearBit, fun s x hx hwf => ⟨clearBit_makesBit hx hwf, command_outOfRange hx⟩⟩

/-! ### The laws of single-bit access -/

/-- The instance a command has ended in, in the terms claims use. -/
theorem State.endsAs_insts_active {s : State} {x : Inst} (hx : s.insts[s.active]? = some x) (y : Inst) :
    (s.endsAs y).insts[s.active]? = some y :=
  List.getElem?_set_self (List.getElem?_eq_some_iff.1 hx).1

/-- Settles O26: after a command that has made bit ARG0 equal to b, GET_BIT reads b, and the storage in between
differs in that bit alone. -/
theorem singleBitLaws : Obligations.SingleBitLaws := by
  unfold Obligations.SingleBitLaws
  intro s x hx hwf hin i v hiv
  obtain ⟨b, rfl, m, ⟨-, -, hbit⟩, hexec⟩ : ∃ b : Bool, v = (if b then 1 else 0) ∧ MakesBit i b s x := by
    rcases hiv with ⟨rfl, rfl⟩ | ⟨rfl, rfl⟩
    · exact ⟨true, rfl, setBit_makesBit hx hwf hin⟩
    · exact ⟨false, rfl, clearBit_makesBit hx hwf hin⟩
  have hy := State.endsAs_insts_active hx.1 { x with words := m, status := endStatus .ok }
  have hget := exec_getBit_inRange ⟨hy, rfl⟩ hin
  refine ⟨_, _, _, _, hexec, hget, hy, State.endsAs_insts_active hy _, rfl, ?_, fun j hj => ?_⟩
  · have hread : m.bit s.W x.arg0.toNat = b := (hbit _).trans (if_pos rfl)
    change (if m.bit s.W x.arg0.toNat then (1 : Reg) else 0) = _
    rw [hread]
  · exact (hbit j).trans (if_neg hj)

end Sys2Proof.Machine

/-! PROOFS of family 41_word_extract.md: the extracted word is the number of R42 (R103), and the two forms of READ_WORD,
which check and extract in the same way and differ in where they read and in whether the cursor moves (R101, R102). -/

namespace Sys2Proof.Machine

/-! ### Extractor -/

/-- Settles O27: the extracted word is known bit by bit (`extract_getLsbD`), and those are the bits of the sum. -/
theorem extractorLaw : Obligations.ExtractorLaw := by
  unfold Obligations.ExtractorLaw
  intro w m start n hm h1 hn
  have hbits := extract_getLsbD w.bits_pos w.bits_le hm (start := start) h1 hn
  refine ⟨toNat_eq_fieldValue m hbits, fun b hb => ?_⟩
  simp [hbits, Nat.not_lt.2 hb]

/-- The extracted word as RESULT holds it: the field's number, which fits in 32 bits (R29, R42). -/
theorem extract_eq_resultOf {s : State} {m : Memory} (hm : m.Narrow s.W) (start : Nat) {n : Nat} (h1 : 1 ≤ n)
    (hn : n ≤ s.W) : extract s.W m start n = resultOf (fieldValue s.W m start n) := by
  have hvalue : (extract s.W m start n).toNat = fieldValue s.W m start n :=
    (extractorLaw s.cfg.width m start n hm h1 hn).1
  rw [← hvalue, resultOf, BitVec.ofNat_toNat, BitVec.setWidth_eq]

/-! ### The count of the word commands -/

theorem command_countLegal {s : State} {x : Inst} {n : BitVec 6} (hx : s.Runs x) (h1 : 1 ≤ n.toNat)
    (hn : n.toNat ≤ s.W) (body : Inst → Result) : command (countLegal s n) s body = body x := by
  have hlegal : countLegal s n = true := decide_eq_true ⟨h1, hn⟩
  rw [hlegal, command_legal hx]

/-- An N outside 1 to W completes with ILLEGAL_COMMAND, whatever the command (R63). -/
theorem command_countIllegal {s : State} {x : Inst} {n : BitVec 6} (hx : s.Runs x)
    (hn : n.toNat = 0 ∨ s.W < n.toNat) (body : Inst → Result) :
    command (countLegal s n) s body = .next (s.fails x .illegalCommand) := by
  have hnot : ¬ (1 ≤ n.toNat ∧ n.toNat ≤ s.W) := by omega
  have hillegal : countLegal s n = false := decide_eq_false hnot
  rw [command_runs hx, hillegal, ← raise_fails hx.2]
  rfl

/-! ### READ_WORD -/

/-- What the two forms of READ_WORD share: they extract the n bits at `start`, and `leave` says what an instance becomes
when the extracted word is v. -/
def readField (start : Inst → Nat) (leave : Inst → Word → Inst) (n : BitVec 6) (s : State) : Result :=
  command (countLegal s n) s fun x =>
    if x.bits s.W < start x + countOf n then raise .outOfRange x s
    else complete (leave x (extract s.W x.words (start x) (countOf n))) s

theorem exec_readWordIdx (n : BitVec 6) (s : State) :
    exec (.readWordIdx n) s = readField Inst.argument0 (fun x v => { x with result := v }) n s := rfl

theorem exec_readWordCur (n : BitVec 6) (s : State) :
    exec (.readWordCur n) s =
      readField Inst.cursor (fun x v => { x with result := v, cursor := x.cursor + n.toNat }) n s := rfl

section
variable {s : State} {x : Inst} {n : BitVec 6} {start : Inst → Nat} {leave : Inst → Word → Inst}

/-- A field within the buffer is read, as the number of R42, and the command ends with OK. -/
theorem readField_inRange (hx : s.Runs x) (hwf : x.Wf s.W s.capMax) (hleave : ∀ v, (leave x v).status = x.status)
    (h1 : 1 ≤ n.toNat) (hn : n.toNat ≤ s.W) (hin : start x + n.toNat ≤ x.capacity * s.W) :
    readField start leave n s = .next (s.endsAs
      { leave x (resultOf (fieldValue s.W x.words (start x) n.toNat)) with status := endStatus .ok }) := by
  obtain ⟨-, -, -, -, hnar, -, -⟩ := hwf
  rw [readField, command_countLegal hx h1 hn, if_neg (Nat.not_lt.2 hin), extract_eq_resultOf hnar _ h1 hn,
    complete_endsAs ((hleave _).symm ▸ hx.2)]

/-- A field that ends beyond the buffer is only reported (R101, R102). -/
theorem readField_outOfRange (hx : s.Runs x) (h1 : 1 ≤ n.toNat) (hn : n.toNat ≤ s.W)
    (hout : x.capacity * s.W < start x + n.toNat) :
    readField start leave n s = .next (s.fails x .outOfRange) := by
  rw [readField, command_countLegal hx h1 hn, if_pos hout, raise_fails hx.2]

end

/-- Settles O28: READ_WORD_IDX is `readField` at ARG0. -/
theorem readWordIdxExtractsTheField : Obligations.ReadWordIdxExtractsTheField := by
  unfold Obligations.ReadWordIdxExtractsTheField
  refine ⟨fun n => followsTemplate (.readWordIdx n), fun s x n hx hwf => ?_⟩
  rw [exec_readWordIdx]
  exact ⟨readField_inRange (start := Inst.argument0) hx hwf fun _ => rfl,
    readField_outOfRange (start := Inst.argument0) hx, fun hn => command_countIllegal hx hn _⟩

/-- Settles O29: READ_WORD_CUR is `readField` at the cursor, which moves past the field only where it is read. -/
theorem readWordCurExtractsAndAdvances : Obligations.ReadWordCurExtractsAndAdvances := by
  unfold Obligations.ReadWordCurExtractsAndAdvances
  refine ⟨fun n => followsTemplate (.readWordCur n), fun s x n hx hwf => ?_⟩
  rw [exec_readWordCur]
  exact ⟨readField_inRange hx hwf fun _ => rfl, readField_outOfRange hx, fun hn => command_countIllegal hx hn _⟩

end Sys2Proof.Machine

/-! PROOFS of family 42_word_compose.md: the two forms of WRITE_WORD, which check, grow and splice in the same way and
differ in where they write and in whether the cursor moves (R121, R122). -/

namespace Sys2Proof.Machine

/-! ### Storage after growth -/

/-- A growth that completes leaves the storage in form, and bounded by a capacity that holds the R bits asked for: the
words it adds are not listed (R43, R47). -/
theorem storage_of_growsTo {s : State} {x : Inst} {R c : Nat} (hwf : x.Wf s.W s.capMax)
    (hc : GrowsTo s.W s.capMax x.capacity R c) :
    x.words.wf ∧ x.words.Narrow s.W ∧ x.words.Below c ∧ R ≤ c * s.W := by
  obtain ⟨hcap, -, -, hm, hnar, hb, -⟩ := hwf
  obtain ⟨hroom, hle, -⟩ := grownCapacity_spec ((grownCapacity_eq_some_iff s.W_pos hcap).2 hc)
  exact ⟨hm, hnar, fun cell hcell => (hb cell hcell).trans_le hle, hroom⟩

/-- The spliced storage in full: its form, and every bit of it (R120). -/
theorem splice_holds {W cap : Nat} (hW0 : 0 < W) (hW : W ≤ 32) {m : Memory} (hm : m.wf) (hnar : m.Narrow W)
    (hb : m.Below cap) {start n : Nat} (h1 : 1 ≤ n) (hn : n ≤ W) (hr : start + n ≤ cap * W) (d : Word) :
    (splice W m start d n).Holds W (replaced W m start n fun i => d.getLsbD i) := by
  obtain ⟨hwf, hnarrow, -⟩ := splice_form hW0 hW hm hnar hb h1 hn hr d
  exact ⟨hwf, hnarrow, splice_bit hW0 hW hm h1 hn d⟩

/-! ### WRITE_WORD -/

/-- What the two forms of WRITE_WORD share: they grow to hold the n bits at `start` and splice DATA there, and `leave`
says what the grown instance becomes when its storage becomes m. -/
def writeField (start : Inst → Nat) (leave : Inst → Memory → Inst) (n : BitVec 6) (s : State) : Result :=
  command (countLegal s n) s fun x =>
    growing (start x + countOf n) x s fun y =>
      complete (leave y (splice s.W y.words (start x) y.data (countOf n))) s

theorem exec_writeWordIdx (n : BitVec 6) (s : State) :
    exec (.writeWordIdx n) s = writeField Inst.argument0 (fun y m => { y with words := m }) n s := rfl

theorem exec_writeWordCur (n : BitVec 6) (s : State) :
    exec (.writeWordCur n) s =
      writeField Inst.cursor (fun y m => { y with words := m, cursor := y.cursor + n.toNat }) n s := rfl

section
variable {s : State} {x : Inst} {n : BitVec 6} {start : Inst → Nat} {leave : Inst → Memory → Inst}

/-- Where growth completes, the n bits at `start` become the low bits of DATA and the command ends with OK. -/
theorem writeField_grown (hx : s.Runs x) (hwf : x.Wf s.W s.capMax) (hleave : ∀ y m, (leave y m).status = y.status)
    {c : Nat} (h1 : 1 ≤ n.toNat) (hn : n.toNat ≤ s.W)
    (hc : GrowsTo s.W s.capMax x.capacity (start x + n.toNat) c) :
    ∃ m : Memory, m.Holds s.W (replaced s.W x.words (start x) n.toNat fun i => x.data.getLsbD i) ∧
      writeField start leave n s =
        .next (s.endsAs { leave { x with capacity := c } m with status := endStatus .ok }) := by
  obtain ⟨hm, hnar, hb, hroom⟩ := storage_of_growsTo hwf hc
  refine ⟨_, splice_holds s.W_pos s.W_le hm hnar hb h1 hn hroom x.data, ?_⟩
  rw [writeField, command_countLegal hx h1 hn, growing_of_growsTo hwf.1 hc,
    complete_endsAs ((hleave _ _).symm ▸ hx.2)]

/-- Where growth fails the command only reports ALLOC_FAILURE (R121, R122). -/
theorem writeField_growFails (hx : s.Runs x) (hwf : x.Wf s.W s.capMax) (h1 : 1 ≤ n.toNat) (hn : n.toNat ≤ s.W)
    (hfail : GrowFails s.W s.capMax x.capacity (start x + n.toNat)) :
    writeField start leave n s = .next (s.fails x .allocFailure) := by
  rw [writeField, command_countLegal hx h1 hn, growing_of_growFails hwf.1 hfail, raise_fails hx.2]

end

/-- Settles O31: WRITE_WORD_IDX is `writeField` at ARG0. -/
theorem writeWordIdxSplicesTheField : Obligations.WriteWordIdxSplicesTheField := by
  unfold Obligations.WriteWordIdxSplicesTheField
  refine ⟨fun n => followsTemplate (.writeWordIdx n), fun s x n hx hwf => ?_⟩
  rw [exec_writeWordIdx]
  refine ⟨fun _ => writeField_grown (start := Inst.argument0) hx hwf ?_,
    writeField_growFails (start := Inst.argument0) hx hwf, fun hn => command_countIllegal hx hn _⟩
  exact fun _ _ => rfl

/-- Settles O32: WRITE_WORD_CUR is `writeField` at the cursor, which moves past the field only where growth
completes. -/
theorem writeWordCurSplicesAndAdvances : Obligations.WriteWordCurSplicesAndAdvances := by
  unfold Obligations.WriteWordCurSplicesAndAdvances
  refine ⟨fun n => followsTemplate (.writeWordCur n), fun s x n hx hwf => ?_⟩
  rw [exec_writeWordCur]
  refine ⟨fun _ => writeField_grown hx hwf ?_, writeField_growFails hx hwf, fun hn => command_countIllegal hx hn _⟩
  exact fun _ _ => rfl

end Sys2Proof.Machine

/-! PROOFS of family 43_bulk_transfer.md: the two forms of WRITE_BUFFER and the three of WRITE_STREAM. The forms of one
command check, grow and copy in the same way and differ in where they write and read and in which cursors move (R141,
R142, R150 to R156). -/

namespace Sys2Proof.Machine

/-! ### What a transfer leaves -/

/-- How far a transfer of n bits moves a cursor: past the bits where it goes from or to that cursor, and else not at all
(R142, R155). -/
def cursorStep : (moves : Bool) → (n : Nat) → Nat
  | true, n => n
  | false, _ => 0

@[simp] theorem cursorStep_true (n : Nat) : cursorStep true n = n := rfl

@[simp] theorem cursorStep_false (n : Nat) : cursorStep false n = 0 := rfl

@[simp] theorem cursorStep_zero (moves : Bool) : cursorStep moves 0 = 0 := by cases moves <;> rfl

/-- The bits that have been replaced are the new ones. -/
theorem Memory.Holds.bit_replaced {W start n : Nat} {m m' : Memory} {new : Nat → Bool}
    (h : m'.Holds W (replaced W m start n new)) {i : Nat} (hi : i < n) : m'.bit W (start + i) = new i := by
  obtain ⟨-, -, hbit⟩ := h
  rw [hbit, replaced, if_pos (by omega), Nat.add_sub_cancel_left]

/-- A field's number depends on the field's bits alone (R42). -/
theorem fieldValue_congr {W : Nat} {m m' : Memory} {a b n : Nat}
    (h : ∀ i, i < n → m.bit W (a + i) = m'.bit W (b + i)) : fieldValue W m a n = fieldValue W m' b n := by
  induction n with
  | zero => rfl
  | succ n ih => rw [fieldValue, fieldValue, ih fun i hi => h i (by omega), h n (by omega)]

/-- The bulk-written storage in full: its form, and every bit of it (R140). -/
theorem bulkWrite_holds {W cap : Nat} (hW0 : 0 < W) (hW : W ≤ 32) {m : Memory} (hm : m.wf) (hnar : m.Narrow W)
    (hb : m.Below cap) {start n : Nat} (hr : start + n ≤ cap * W) {e : List Word} (he : ∀ w ∈ e, w.toNat < 2 ^ W)
    (hlen : n / W ≤ e.length) : (bulkWrite W m start e n).Holds W (replaced W m start n (arrayBit W e)) := by
  obtain ⟨hwf, hnarrow, -⟩ := bulkWrite_form hW0 hW hm hnar hb hr he
  exact ⟨hwf, hnarrow, bulkWrite_bit hW0 hW hm hlen⟩

/-- The stream-copied storage in full: its form, and every bit of it (R154). -/
theorem streamCopy_holds {W cap : Nat} (hW0 : 0 < W) (hW : W ≤ 32) {m : Memory} (hm : m.wf) (hnar : m.Narrow W)
    (hb : m.Below cap) {src : Memory} (hsrc : src.Narrow W) {d n : Nat} (hr : d + n ≤ cap * W) (start : Nat) :
    (streamCopy W m src d start n).Holds W (replaced W m d n fun i => src.bit W (start + i)) := by
  obtain ⟨hwf, hnarrow, -⟩ := streamCopy_form hW0 hW hm hnar hb src hr start
  exact ⟨hwf, hnarrow, streamCopy_bit hW0 hW hm hsrc d start n⟩

/-! ### WRITE_BUFFER -/

/-- What the two forms i of WRITE_BUFFER share: they grow to hold the n = ARG1 bits at `start`, await the words, and
write their bits there; `advances` says whether the cursor moves past them. -/
def bufferTransfer (i : Instr) (start : Inst → Nat) (advances : Bool) (s : State) : Result :=
  command true s fun x =>
    if x.argument1 = 0 then complete x s
    else
      growing (start x + x.argument1) x s fun y =>
        popping i (wordsFor x.argument1 s.W) y s fun e z =>
          complete
            { z with
              words := bulkWrite s.W z.words (start x) e x.argument1
              cursor := x.cursor + cursorStep advances x.argument1 } s

theorem exec_writeBufferIdx (s : State) :
    exec .writeBufferIdx s = bufferTransfer .writeBufferIdx Inst.argument0 false s := rfl

theorem exec_writeBufferCur (s : State) :
    exec .writeBufferCur s = bufferTransfer .writeBufferCur Inst.cursor true s := rfl

/-- Instance x after its n = ARG1 bits of EXT_IN have been written at bit `start`, with capacity c (R140 to R142). -/
def Inst.buffered (x : Inst) (W start : Nat) (advances : Bool) (c : Nat) : Inst :=
  { x with
    words := bulkWrite W x.words start (x.extIn.take (wordsFor x.argument1 W)) x.argument1
    capacity := c
    cursor := x.cursor + cursorStep advances x.argument1
    extIn := x.extIn.drop (wordsFor x.argument1 W) }

section
variable {s : State} {x : Inst} {i : Instr} {start : Inst → Nat} {advances : Bool} {c : Nat}

/-- A transfer of no bits completes with OK and does nothing (R141). -/
theorem bufferTransfer_zero (hx : s.Runs x) (hn : x.arg1.toNat = 0) :
    bufferTransfer i start advances s = .next (s.endsAs { x with status := endStatus .ok }) := by
  rw [bufferTransfer, command_legal hx, if_pos hn, complete_endsAs hx.2]

/-- Where growth fails the command only reports ALLOC_FAILURE, and pops no word (R141). -/
theorem bufferTransfer_growFails (hx : s.Runs x) (hwf : x.Wf s.W s.capMax) (hn : x.arg1.toNat ≠ 0)
    (hfail : GrowFails s.W s.capMax x.capacity (start x + x.arg1.toNat)) :
    bufferTransfer i start advances s = .next (s.fails x .allocFailure) := by
  rw [bufferTransfer, command_legal hx, if_neg hn, growing_of_growFails hwf.1 hfail, raise_fails hx.2]

/-- Short of words the command waits and changes nothing (R141, R244). -/
theorem bufferTransfer_short (hx : s.Runs x) (hwf : x.Wf s.W s.capMax) (hn : x.arg1.toNat ≠ 0)
    (hc : GrowsTo s.W s.capMax x.capacity (start x + x.arg1.toNat) c)
    (hq : x.extIn.length < wordsFor x.arg1.toNat s.W) :
    bufferTransfer i start advances s = .next { s with waiting := some i } := by
  rw [bufferTransfer, command_legal hx, if_neg hn, growing_of_growsTo hwf.1 hc]
  exact popping_short (x := { x with capacity := c }) hq _

/-- With its words present the command completes with OK (R141). -/
theorem bufferTransfer_enough (hx : s.Runs x) (hwf : x.Wf s.W s.capMax) (hn : x.arg1.toNat ≠ 0)
    (hc : GrowsTo s.W s.capMax x.capacity (start x + x.arg1.toNat) c)
    (hq : wordsFor x.arg1.toNat s.W ≤ x.extIn.length) :
    bufferTransfer i start advances s =
      .next (s.endsAs { x.buffered s.W (start x) advances c with status := endStatus .ok }) := by
  rw [bufferTransfer, command_legal hx, if_neg hn, growing_of_growsTo hwf.1 hc,
    popping_enough (x := { x with capacity := c }) hq]
  exact complete_endsAs (by exact hx.2)

/-- The n bits at `start` are those of the array, and no other bit has changed (R140). -/
theorem buffered_holds {d : Nat} (hwf : x.Wf s.W s.capMax)
    (hc : GrowsTo s.W s.capMax x.capacity (d + x.arg1.toNat) c) (hq : wordsFor x.arg1.toNat s.W ≤ x.extIn.length) :
    (x.buffered s.W d advances c).words.Holds s.W
      (replaced s.W x.words d x.arg1.toNat (arrayBit s.W (x.extIn.take (wordsFor x.arg1.toNat s.W)))) := by
  obtain ⟨hm, hnar, hb, hroom⟩ := storage_of_growsTo hwf hc
  obtain ⟨-, -, -, -, -, -, hext⟩ := hwf
  rw [List.forall_mem_map] at hext
  refine bulkWrite_holds s.W_pos s.W_le hm hnar hb hroom (fun w hw => hext w (List.mem_of_mem_take hw)) ?_
  rw [List.length_take, Nat.min_eq_left hq]
  exact wordsFor_ge s.W_pos

/-- The command with its words e present, in the terms claims use (R141). -/
theorem bufferTransfer_copies (hx : s.Runs x) (hwf : x.Wf s.W s.capMax) {e rest : List Word} (hn : x.arg1.toNat ≠ 0)
    (hc : GrowsTo s.W s.capMax x.capacity (start x + x.arg1.toNat) c) (hext : x.extIn = e ++ rest)
    (hlen : e.length = wordsFor x.arg1.toNat s.W) :
    ∃ m : Memory, m.Holds s.W (replaced s.W x.words (start x) x.arg1.toNat (arrayBit s.W e)) ∧
      bufferTransfer i start advances s = .next (s.endsAs
        { x with
          words := m
          capacity := c
          cursor := x.cursor + cursorStep advances x.arg1.toNat
          extIn := rest
          status := endStatus .ok }) := by
  have hq : wordsFor x.arg1.toNat s.W ≤ x.extIn.length := by
    rw [hext, List.length_append]
    omega
  have htake : x.extIn.take (wordsFor x.arg1.toNat s.W) = e := by rw [hext, List.take_left' hlen]
  have hdrop : x.extIn.drop (wordsFor x.arg1.toNat s.W) = rest := by rw [hext, List.drop_left' hlen]
  have hholds := buffered_holds (advances := advances) hwf hc hq
  rw [htake] at hholds
  refine ⟨_, hholds, ?_⟩
  rw [bufferTransfer_enough hx hwf hn hc hq, ← hdrop]
  rfl

end

/-- Settles O35: WRITE_BUFFER_IDX is `bufferTransfer` at ARG0, with the cursor left where it is. -/
theorem writeBufferIdxCopiesTheArray : Obligations.WriteBufferIdxCopiesTheArray := by
  unfold Obligations.WriteBufferIdxCopiesTheArray
  refine ⟨followsTemplate .writeBufferIdx, fun s x hx hwf => ?_⟩
  rw [exec_writeBufferIdx]
  exact ⟨bufferTransfer_zero hx, bufferTransfer_growFails (start := Inst.argument0) hx hwf,
    fun _ => bufferTransfer_short (start := Inst.argument0) hx hwf,
    fun _ _ _ => bufferTransfer_copies (start := Inst.argument0) hx hwf⟩

/-- Settles O36: WRITE_BUFFER_CUR is `bufferTransfer` at the cursor, which moves past the bits. -/
theorem writeBufferCurCopiesAndAdvances : Obligations.WriteBufferCurCopiesAndAdvances := by
  unfold Obligations.WriteBufferCurCopiesAndAdvances
  refine ⟨followsTemplate .writeBufferCur, fun s x hx hwf => ?_⟩
  rw [exec_writeBufferCur]
  exact ⟨bufferTransfer_zero hx, bufferTransfer_growFails hx hwf, fun _ => bufferTransfer_short hx hwf,
    fun _ _ _ => bufferTransfer_copies hx hwf⟩

/-! ### Reading a WRITE_BUFFER back -/

/-- Word j of `ceil(n / W)` words starts below bit n (R7). -/
theorem mul_lt_of_lt_wordsFor {n W j : Nat} (hW : 0 < W) (hj : j < wordsFor n W) : j * W < n := by
  have hle : (j + 1) * W ≤ n + W - 1 := (Nat.le_div_iff_mul_le hW).1 hj
  rw [Nat.succ_mul] at hle
  omega

/-- The transfer keeps the form of its instance (R25). -/
theorem buffered_wf {s : State} {x : Inst} {i : Instr} {d c : Nat} {advances : Bool}
    (hi : i = .writeBufferIdx ∨ i = .writeBufferCur) (hwf : x.Wf s.W s.capMax) (hn : x.arg1.toNat ≠ 0)
    (hd : advances = true → d = x.cursor) (hc : GrowsTo s.W s.capMax x.capacity (d + x.arg1.toNat) c)
    (hq : wordsFor x.arg1.toNat s.W ≤ x.extIn.length) :
    (x.buffered s.W d advances c).Wf s.W s.capMax := by
  obtain ⟨hroom, hcap, hmax⟩ := grownCapacity_spec ((grownCapacity_eq_some_iff s.W_pos hwf.1).2 hc)
  refine (Effect.of_bulk hi hn hq hcap hmax ?_ hroom).form hwf
  cases advances with
  | true => exact .inl (hd rfl ▸ hroom)
  | false => exact .inr rfl

/-- READ_WORD_IDX at a bit index a the host then writes to ARG0 extracts the field there (R101). -/
theorem exec_readWordIdx_at {s : State} {x : Inst} {n : BitVec 6} {a : Reg} (hx : s.Runs x) (hwf : x.Wf s.W s.capMax)
    (h1 : 1 ≤ n.toNat) (hn : n.toNat ≤ s.W) (hin : a.toNat + n.toNat ≤ x.capacity * s.W) :
    ∃ u z, exec (.readWordIdx n) { s with insts := s.insts.set s.active { x with arg0 := a } } = .next u ∧
      u.insts[s.active]? = some z ∧ z.status.code = .ok ∧ z.result = extract s.W x.words a.toNat n.toNat := by
  have hrun : State.Runs { s with insts := s.insts.set s.active { x with arg0 := a } } { x with arg0 := a } :=
    ⟨State.endsAs_insts_active hx.1 _, hx.2⟩
  have ⟨_, _, _, _, hnar, _, _⟩ := hwf
  obtain ⟨-, hread⟩ := readWordIdxExtractsTheField
  exact ⟨_, _, (hread _ _ n hrun hwf).1 h1 hn hin, State.endsAs_insts_active hrun.1 _, rfl,
    (extract_eq_resultOf hnar _ h1 hn).symm⟩

/-- The field of min(W, n - jW) bits at word j of what a transfer stored is word j of the array (R143). -/
theorem extract_buffered {s : State} {m m' : Memory} {e : List Word} {d j k q N : Nat}
    (hholds : m'.Holds s.W (replaced s.W m d N (arrayBit s.W (e.take q)))) (hj : j < q) (h1 : 1 ≤ k) (hk : k ≤ s.W)
    (hN : j * s.W + k ≤ N) : (extract s.W m' (d + j * s.W) k).toNat = (e.getD j 0).toNat % 2 ^ k := by
  have ⟨_, hnar, _⟩ := hholds
  apply Nat.eq_of_testBit_eq
  intro b
  rw [BitVec.testBit_toNat, extract_getLsbD s.W_pos s.W_le hnar h1 hk, Nat.testBit_mod_two_pow, BitVec.testBit_toNat]
  by_cases hb : b < k
  · have hin : j * s.W + b < q * s.W := by
      have := Nat.mul_le_mul_right s.W hj
      rw [Nat.succ_mul] at this
      omega
    rw [Nat.add_assoc, hholds.bit_replaced (by omega), arrayBit_take e hin, arrayBit, index_div j (by omega),
      index_mod j (by omega)]
  · simp [hb]

/-- After a transfer each word of the array reads back, from where it was put (R143). -/
theorem bufferTransfer_readsBack {s : State} {x : Inst} {i : Instr} {start : Inst → Nat} {advances : Bool} {c : Nat}
    (hi : i = .writeBufferIdx ∨ i = .writeBufferCur) (hx : s.Runs x) (hwf : x.Wf s.W s.capMax)
    (hd : advances = true → start x = x.cursor) (hn : x.arg1.toNat ≠ 0)
    (hc : GrowsTo s.W s.capMax x.capacity (start x + x.arg1.toNat) c)
    (hq : wordsFor x.arg1.toNat s.W ≤ x.extIn.length) :
    ∃ t x', bufferTransfer i start advances s = .next t ∧ t.insts[s.active]? = some x' ∧ x'.status.code = .ok ∧
      ∀ (j : Nat) (a : Reg) (n : BitVec 6), j < wordsFor x.arg1.toNat s.W → a.toNat = start x + j * s.W →
        n.toNat = min s.W (x.arg1.toNat - j * s.W) →
        ∃ u z, exec (.readWordIdx n) { t with insts := t.insts.set s.active { x' with arg0 := a } } = .next u ∧
          u.insts[s.active]? = some z ∧ z.status.code = .ok ∧
          z.result.toNat = (x.extIn.getD j 0).toNat % 2 ^ n.toNat := by
  have hwf' := buffered_wf hi hwf hn hd hc hq
  have hholds := buffered_holds (advances := advances) hwf hc hq
  have hactive := State.endsAs_insts_active hx.1 { x.buffered s.W (start x) advances c with status := endStatus .ok }
  refine ⟨_, _, bufferTransfer_enough hx hwf hn hc hq, hactive, rfl, fun j a n hj ha hnj => ?_⟩
  have hjn := mul_lt_of_lt_wordsFor s.W_pos hj
  have hW := s.W_pos
  obtain ⟨-, -, -, hroom⟩ := storage_of_growsTo hwf hc
  obtain ⟨u, z, hexec, hz, hok, hresult⟩ := exec_readWordIdx_at (n := n) (a := a) ⟨hactive, rfl⟩ hwf'
    (by omega) (show n.toNat ≤ s.W by omega) (show a.toNat + n.toNat ≤ c * s.W by omega)
  refine ⟨u, z, hexec, hz, hok, ?_⟩
  rw [hresult, ha]
  exact extract_buffered (s := s) hholds hj (by omega) (by omega) (by omega)

/-- Settles O37: both forms are `bufferTransfer`, and what it stores reads back (`bufferTransfer_readsBack`). -/
theorem writeBufferReadsBack : Obligations.WriteBufferReadsBack := by
  unfold Obligations.WriteBufferReadsBack
  rintro s x i start c hx hwf (⟨rfl, rfl⟩ | ⟨rfl, rfl⟩) hn hc hq
  · rw [exec_writeBufferIdx]
    exact bufferTransfer_readsBack (start := Inst.argument0) (.inl rfl) hx hwf (fun h => nomatch h) hn hc hq
  · rw [exec_writeBufferCur]
    exact bufferTransfer_readsBack (.inr rfl) hx hwf (fun _ => rfl) hn hc hq

/-! ### WRITE_STREAM -/

/-- What tells the three forms of WRITE_STREAM apart: where they write in the executing instance, where they read in the
source (the second argument of `start`), and which of the two cursors moves past the bits (R151 to R153, R155). -/
structure StreamForm where
  dest : Inst → Nat
  start : Inst → Inst → Nat
  advances : Bool
  sourceAdvances : Bool

/-- WRITE_STREAM_II, from ARG1 to ARG0 (R151). -/
def StreamForm.indexIndex : StreamForm := ⟨Inst.argument0, fun x _ => x.argument1, false, false⟩

/-- WRITE_STREAM_CI, from ARG1 to the destination's cursor (R152). -/
def StreamForm.indexCursor : StreamForm := ⟨Inst.cursor, fun x _ => x.argument1, true, false⟩

/-- WRITE_STREAM_CC, from the source's cursor to the destination's (R153). -/
def StreamForm.cursorCursor : StreamForm := ⟨Inst.cursor, fun _ y => y.cursor, true, true⟩

/-- The source y as a copy of n bits leaves it (R35, R155). -/
def StreamForm.sourceLeft (f : StreamForm) (y : Inst) (n : Nat) : Inst :=
  { y with cursor := y.cursor + cursorStep f.sourceAdvances n }

/-- What the three forms share: the checks, growth, and the copy of n = ARG2 bits (R150, R154). -/
def StreamForm.transfer (f : StreamForm) (src : BitVec 3) (s : State) : Result :=
  command (sourceLegal s src) s fun x =>
    withSource src s fun y =>
      streamCheck src y (f.start x y) x.argument2 x s <|
        growing (f.dest x + x.argument2) x s fun z =>
          complete
            { z with
              words := streamCopy s.W z.words y.words (f.dest x) (f.start x y) x.argument2
              cursor := x.cursor + cursorStep f.advances x.argument2 }
            (s.setInst (sourceOf src) (f.sourceLeft y x.argument2))

/-- An instance put back as it is changes nothing. -/
theorem State.setInst_self {s : State} {k : Nat} {y : Inst} (hy : s.insts[k]? = some y) : s.setInst k y = s := by
  obtain ⟨hk, rfl⟩ := List.getElem?_eq_some_iff.1 hy
  rw [State.setInst, List.set_getElem_self]

theorem withSource_congr {src : BitVec 3} {s : State} {body body' : Inst → Result}
    (h : ∀ y, s.insts[sourceOf src]? = some y → body y = body' y) :
    withSource src s body = withSource src s body' := by
  rw [withSource, withSource]
  split
  · rfl
  · next y hy => exact h y hy

/-- A form that leaves the source's cursor where it is leaves the source as it is. -/
theorem StreamForm.setInst_sourceLeft {f : StreamForm} (hf : f.sourceAdvances = false) {s : State} {k : Nat} {y : Inst}
    (hy : s.insts[k]? = some y) (n : Nat) : s.setInst k (f.sourceLeft y n) = s := by
  rw [sourceLeft, hf]
  exact State.setInst_self hy

theorem exec_writeStreamII (src : BitVec 3) (s : State) :
    exec (.writeStreamII src) s = StreamForm.indexIndex.transfer src s := by
  refine congrArg (command _ s) (funext fun x => withSource_congr fun y hy => ?_)
  rw [StreamForm.setInst_sourceLeft rfl hy]
  rfl

theorem exec_writeStreamCI (src : BitVec 3) (s : State) :
    exec (.writeStreamCI src) s = StreamForm.indexCursor.transfer src s := by
  refine congrArg (command _ s) (funext fun x => withSource_congr fun y hy => ?_)
  rw [StreamForm.setInst_sourceLeft rfl hy]
  rfl

theorem exec_writeStreamCC (src : BitVec 3) (s : State) :
    exec (.writeStreamCC src) s = StreamForm.cursorCursor.transfer src s := rfl

section
variable (f : StreamForm) {s : State} {x y : Inst} {src : BitVec 3} {c : Nat}

/-- With a legal SRC the transfer is what follows `StreamCheck` (R150). -/
theorem StreamForm.transfer_legal (hx : s.Runs x) (hsrc : src.toNat < s.cfg.numInst)
    (hy : s.insts[src.toNat]? = some y) :
    f.transfer src s = streamCheck src y (f.start x y) x.argument2 x s
      (growing (f.dest x + x.argument2) x s fun z =>
        complete
          { z with
            words := streamCopy s.W z.words y.words (f.dest x) (f.start x y) x.argument2
            cursor := x.cursor + cursorStep f.advances x.argument2 }
          (s.setInst (sourceOf src) (f.sourceLeft y x.argument2))) := by
  have hlegal : sourceLegal s src = true := decide_eq_true hsrc
  rw [transfer, hlegal, command_legal hx, withSource_eq hy]

/-- Where every check passes the n bits are copied and the command ends with OK; t is s with the source as the copy
leaves it (R154, R155). -/
theorem StreamForm.transfer_copies {t : State} (hx : s.Runs x) (hwf : x.Wf s.W s.capMax)
    (hsrc : src.toNat < s.cfg.numInst) (hy : s.insts[src.toNat]? = some y)
    (ht : s.setInst src.toNat (f.sourceLeft y x.arg2.toNat) = t) (hnar : y.words.Narrow s.W)
    (ha : src.toNat ≠ s.active) (hn : x.arg2.toNat ≠ 0) (hr : f.start x y + x.arg2.toNat ≤ y.capacity * s.W)
    (hc : GrowsTo s.W s.capMax x.capacity (f.dest x + x.arg2.toNat) c) :
    ∃ m : Memory, m.Holds s.W
        (replaced s.W x.words (f.dest x) x.arg2.toNat fun i => y.words.bit s.W (f.start x y + i)) ∧
      f.transfer src s = .next (t.endsAs
        { x with
          words := m
          capacity := c
          cursor := x.cursor + cursorStep f.advances x.arg2.toNat
          status := endStatus .ok }) := by
  obtain ⟨hm, hxnar, hb, hroom⟩ := storage_of_growsTo hwf hc
  refine ⟨_, streamCopy_holds s.W_pos s.W_le hm hxnar hb hnar hroom _, ?_⟩
  rw [f.transfer_legal hx hsrc hy, streamCheck_passes ha hn hr, growing_of_growsTo hwf.1 hc, ht]
  exact complete_endsAs (by exact hx.2)

/-- The checks of a transfer in their order, each with no change to either instance, and the copy where all pass; t is s
with the source as the copy leaves it (R150 to R154). -/
theorem StreamForm.transfer_spec {t : State} (hx : s.Runs x) (hwf : x.Wf s.W s.capMax)
    (ht : s.insts[src.toNat]? = some y → s.setInst src.toNat (f.sourceLeft y x.arg2.toNat) = t) :
    (s.cfg.numInst ≤ src.toNat → f.transfer src s = .next (s.fails x .illegalCommand)) ∧
    (src.toNat < s.cfg.numInst → s.insts[src.toNat]? = some y → y.words.Narrow s.W →
      (src.toNat = s.active → f.transfer src s = .next (s.fails x .aliasedCopy)) ∧
      (src.toNat ≠ s.active → x.arg2.toNat = 0 →
        f.transfer src s = .next (s.endsAs { x with status := endStatus .ok })) ∧
      (src.toNat ≠ s.active → x.arg2.toNat ≠ 0 → y.capacity * s.W < f.start x y + x.arg2.toNat →
        f.transfer src s = .next (s.fails x .srcRangeExceeded)) ∧
      (src.toNat ≠ s.active → x.arg2.toNat ≠ 0 → f.start x y + x.arg2.toNat ≤ y.capacity * s.W →
        GrowFails s.W s.capMax x.capacity (f.dest x + x.arg2.toNat) →
        f.transfer src s = .next (s.fails x .allocFailure)) ∧
      (∀ c, src.toNat ≠ s.active → x.arg2.toNat ≠ 0 → f.start x y + x.arg2.toNat ≤ y.capacity * s.W →
        GrowsTo s.W s.capMax x.capacity (f.dest x + x.arg2.toNat) c →
        ∃ m : Memory, m.Holds s.W
            (replaced s.W x.words (f.dest x) x.arg2.toNat fun i => y.words.bit s.W (f.start x y + i)) ∧
          f.transfer src s = .next (t.endsAs
            { x with
              words := m
              capacity := c
              cursor := x.cursor + cursorStep f.advances x.arg2.toNat
              status := endStatus .ok }))) := by
  refine ⟨fun hsrc => ?_, fun hsrc hy hnar => ⟨fun ha => ?_, fun ha hn => ?_, fun ha hn hr => ?_,
    fun ha hn hr hfail => ?_, fun c => f.transfer_copies hx hwf hsrc hy (ht hy) hnar⟩⟩
  · have hillegal : sourceLegal s src = false := decide_eq_false (Nat.not_lt.2 hsrc)
    rw [transfer, command_runs hx, hillegal, ← raise_fails hx.2]
    rfl
  · rw [f.transfer_legal hx hsrc hy, streamCheck_aliased ha, raise_fails hx.2]
  · rw [f.transfer_legal hx hsrc hy, Inst.argument2, hn, streamCheck_zero ha, complete_endsAs hx.2]
  · rw [f.transfer_legal hx hsrc hy, streamCheck_exceeded ha hn hr, raise_fails hx.2]
  · rw [f.transfer_legal hx hsrc hy, streamCheck_passes ha hn hr, growing_of_growFails hwf.1 hfail, raise_fails hx.2]

end

/-- Settles O38: WRITE_STREAM_II is the transfer from index to index, which moves no cursor and so leaves the source as
it is. -/
theorem writeStreamIICopiesTheBits : Obligations.WriteStreamIICopiesTheBits := by
  unfold Obligations.WriteStreamIICopiesTheBits
  refine ⟨fun src => followsTemplate (.writeStreamII src), fun s x y src hx hwf => ?_⟩
  rw [exec_writeStreamII]
  exact StreamForm.indexIndex.transfer_spec hx hwf fun hy => StreamForm.setInst_sourceLeft rfl hy _

/-- Settles O39: WRITE_STREAM_CI is the transfer from index to cursor, which moves the destination's cursor alone and so
leaves the source as it is. -/
theorem writeStreamCICopiesAndAdvances : Obligations.WriteStreamCICopiesAndAdvances := by
  unfold Obligations.WriteStreamCICopiesAndAdvances
  refine ⟨fun src => followsTemplate (.writeStreamCI src), fun s x y src hx hwf => ?_⟩
  rw [exec_writeStreamCI]
  exact StreamForm.indexCursor.transfer_spec hx hwf fun hy => StreamForm.setInst_sourceLeft rfl hy _

/-- Settles O40: WRITE_STREAM_CC is the transfer from cursor to cursor, which moves both. -/
theorem writeStreamCCCopiesAndAdvancesBoth : Obligations.WriteStreamCCCopiesAndAdvancesBoth := by
  unfold Obligations.WriteStreamCCCopiesAndAdvancesBoth
  refine ⟨fun src => followsTemplate (.writeStreamCC src), fun s x y src hx hwf => ?_⟩
  rw [exec_writeStreamCC]
  exact StreamForm.cursorCursor.transfer_spec hx hwf fun _ => rfl

/-! ### The cursors and the source of a WRITE_STREAM -/

/-- The executing instance is not the source, so it is where it was when the source has been replaced. -/
theorem State.setInst_insts_active {s : State} {x z : Inst} {k : Nat} (hk : k ≠ s.active)
    (hx : s.insts[s.active]? = some x) : (s.setInst k z).insts[(s.setInst k z).active]? = some x := by
  rw [State.setInst_insts, State.setInst_active, List.getElem?_set_ne hk, hx]

/-- The source, once it has been replaced and the executing instance after it. -/
theorem getElem?_source {s : State} {y z z' : Inst} {k : Nat} (hk : k ≠ s.active) (hy : s.insts[k]? = some y) :
    ((s.setInst k z).insts.set s.active z')[k]? = some z := by
  rw [List.getElem?_set_ne hk.symm, State.setInst_insts, List.getElem?_set_self (List.getElem?_eq_some_iff.1 hy).1]

/-- Ending a command with the executing instance as it found it moves no cursor. -/
theorem State.ended_cursor {s : State} {x z z' : Inst} {c : Code} {k : Nat} (hx : s.insts[s.active]? = some x)
    (hz : s.insts[k]? = some z) (hz' : (s.ended x c).insts[k]? = some z') : z'.cursor = z.cursor := by
  by_cases hk : s.active = k
  · subst hk
    obtain rfl : x = z := Option.some.inj (hx.symm.trans hz)
    obtain rfl := Option.some.inj ((State.ended_insts_active hx x c).symm.trans hz')
    rfl
  · rw [State.ended_insts, List.getElem?_set_ne hk, hz] at hz'
    rw [Option.some.inj hz']

section
variable (f : StreamForm) {s t : State} {x y : Inst} {src : BitVec 3}

/-- Everything a transfer can do: end with the instance as it found it, with OK only where it copies no bits, or copy
them (R150). -/
theorem StreamForm.transfer_next (h : f.transfer src s = .next t) (hx : s.insts[s.active]? = some x)
    (hy : s.insts[src.toNat]? = some y) :
    (∃ c, (c = .ok → x.arg2.toNat = 0) ∧ t = s.ended x c) ∨
      (src.toNat ≠ s.active ∧ ∃ m c, t = (s.setInst src.toNat (f.sourceLeft y x.arg2.toNat)).ended
        { x with words := m, capacity := c, cursor := x.cursor + cursorStep f.advances x.arg2.toNat } .ok) := by
  obtain ⟨x', hx', hcases⟩ := command_next h
  obtain rfl : x = x' := Option.some.inj (hx.symm.trans hx')
  rcases hcases with ⟨-, rfl⟩ | ⟨-, -, rfl⟩ | ⟨-, -, h⟩
  · exact .inl ⟨.halted, nofun, rfl⟩
  · exact .inl ⟨.illegalCommand, nofun, rfl⟩
  rw [withSource_eq hy] at h
  rcases streamCheck_next h with ⟨-, rfl⟩ | ⟨-, hn, rfl⟩ | ⟨-, -, -, rfl⟩ | ⟨ha, -, -, h⟩
  · exact .inl ⟨.aliasedCopy, nofun, rfl⟩
  · exact .inl ⟨.ok, fun _ => hn, rfl⟩
  · exact .inl ⟨.srcRangeExceeded, nofun, rfl⟩
  rcases growing_next h with rfl | ⟨c, -, h⟩
  · exact .inl ⟨.allocFailure, nofun, rfl⟩
  · exact .inr ⟨ha, _, c, (Host.Outcome.next.inj h).symm⟩

/-- The cursors move as the form says where the command completes with OK, and else not at all (R155). -/
theorem StreamForm.transfer_cursors {x' y' : Inst} (h : f.transfer src s = .next t)
    (hx : s.insts[s.active]? = some x) (hy : s.insts[src.toNat]? = some y) (hx' : t.insts[s.active]? = some x')
    (hy' : t.insts[src.toNat]? = some y') :
    (x'.status.code = .ok →
      x'.cursor = x.cursor + cursorStep f.advances x.arg2.toNat ∧
      y'.cursor = y.cursor + cursorStep f.sourceAdvances x.arg2.toNat) ∧
    (x'.status.code ≠ .ok → x'.cursor = x.cursor ∧ y'.cursor = y.cursor) := by
  rcases f.transfer_next h hx hy with ⟨c, hok, rfl⟩ | ⟨ha, m, c, rfl⟩
  · have hstays : x'.cursor = x.cursor ∧ y'.cursor = y.cursor :=
      ⟨State.ended_cursor hx hx hx', State.ended_cursor hx hy hy'⟩
    refine ⟨fun hcode => ?_, fun _ => hstays⟩
    obtain rfl := Option.some.inj ((State.ended_insts_active hx x c).symm.trans hx')
    rw [hok hcode, cursorStep_zero, cursorStep_zero]
    exact hstays
  · obtain rfl := Option.some.inj ((State.ended_insts_active (State.setInst_insts_active ha hx) _ .ok).symm.trans hx')
    obtain rfl := Option.some.inj ((getElem?_source ha hy).symm.trans hy')
    exact ⟨fun _ => ⟨rfl, rfl⟩, fun hcode => absurd rfl hcode⟩

/-- After a copy the destination's field is the source's, as numbers, and the source's storage is what it was (R156). -/
theorem StreamForm.transfer_fidelity {c : Nat} (hx : s.Runs x) (hwf : x.Wf s.W s.capMax)
    (hsrc : src.toNat < s.cfg.numInst) (hy : s.insts[src.toNat]? = some y) (hnar : y.words.Narrow s.W)
    (ha : src.toNat ≠ s.active) (hn : x.arg2.toNat ≠ 0) (hr : f.start x y + x.arg2.toNat ≤ y.capacity * s.W)
    (hc : GrowsTo s.W s.capMax x.capacity (f.dest x + x.arg2.toNat) c) :
    ∃ t x' y', f.transfer src s = .next t ∧ t.insts[s.active]? = some x' ∧ t.insts[src.toNat]? = some y' ∧
      x'.status.code = .ok ∧
      fieldValue s.W x'.words (f.dest x) x.arg2.toNat = fieldValue s.W y.words (f.start x y) x.arg2.toNat ∧
      y'.words = y.words := by
  obtain ⟨m, hholds, hexec⟩ := f.transfer_copies hx hwf hsrc hy rfl hnar ha hn hr hc
  exact ⟨_, _, _, hexec, State.endsAs_insts_active (State.setInst_insts_active ha hx.1) _, getElem?_source ha hy, rfl,
    fieldValue_congr fun i hi => hholds.bit_replaced hi, rfl⟩

end

/-- Settles O41: the cursors move as `StreamForm.transfer_cursors` says for the form of each command. -/
theorem streamCursorEffects : Obligations.StreamCursorEffects := by
  unfold Obligations.StreamCursorEffects
  intro i src s t x y x' y' hi h hx hy hx' hy'
  simp only [List.mem_cons, List.not_mem_nil, or_false] at hi
  rcases hi with rfl | rfl | rfl
  · rw [exec_writeStreamII] at h
    simpa [StreamForm.indexIndex] using StreamForm.indexIndex.transfer_cursors h hx hy hx' hy'
  · rw [exec_writeStreamCI] at h
    simpa [StreamForm.indexCursor] using StreamForm.indexCursor.transfer_cursors h hx hy hx' hy'
  · rw [exec_writeStreamCC] at h
    simpa [StreamForm.cursorCursor] using StreamForm.cursorCursor.transfer_cursors h hx hy hx' hy'

/-- Settles O42: each of the three commands is the transfer of its form (`StreamForm.transfer_fidelity`). -/
theorem streamCopyFidelity : Obligations.StreamCopyFidelity := by
  unfold Obligations.StreamCopyFidelity
  intro s x y src i d start c hx hwf hsrc hy hnar ha hi hn hr hc
  obtain ⟨f, hexec, rfl, rfl⟩ :
      ∃ f : StreamForm, exec i s = f.transfer src s ∧ d = f.dest x ∧ start = f.start x y := by
    rcases hi with ⟨rfl, hd, hstart⟩ | ⟨rfl, hd, hstart⟩ | ⟨rfl, hd, hstart⟩
    · exact ⟨.indexIndex, exec_writeStreamII src s, hd, hstart⟩
    · exact ⟨.indexCursor, exec_writeStreamCI src s, hd, hstart⟩
    · exact ⟨.cursorCursor, exec_writeStreamCC src s, hd, hstart⟩
  rw [hexec]
  exact f.transfer_fidelity hx hwf hsrc hy hnar ha hn hr hc

end Sys2Proof.Machine

/-! PROOFS of family 44_capacity_cursor.md: DOUBLE_CAPACITY and FLUSH, which check a new capacity against CAP_MAX (R170,
R180), and the five commands between them, which check nothing and write only RESULT and the cursor (R172 to R177). -/

namespace Sys2Proof.Machine

/-! ### Values that fit in RESULT (R5, R25) -/

/-- In a valid configuration the bits of an instance of CAP_MAX words are counted in 32 bits (R5). -/
theorem capMax_mul_W_lt_of_valid {c : Config} (h : c.Valid) (k : Nat) : c.capMax k * c.W < 2 ^ 32 := by
  obtain ⟨-, -, hinsts⟩ := h
  unfold Config.capMax
  split
  next p hp =>
    obtain ⟨-, hbits, -, -⟩ := hinsts p (List.mem_of_getElem? hp)
    exact Nat.lt_of_le_pred (by decide) hbits
  next => simp

/-- Under the invariant the cursor lies within the buffer, and the buffer has a positive number of bits, counted in 32
bits (I1, I2). -/
theorem State.Inv.active_bits {s : State} {x : Inst} (hinv : s.Inv) (hx : s.insts[s.active]? = some x) :
    x.cursor ≤ x.capacity * s.W ∧ 0 < x.capacity * s.W ∧ x.capacity * s.W < 2 ^ 32 := by
  obtain ⟨hvalid, -, hwf, -⟩ := hinv
  obtain ⟨hcap, hmax, hcur, -⟩ := hwf s.active x hx
  exact ⟨hcur, Nat.mul_pos hcap s.W_pos,
    (Nat.mul_le_mul_right s.W hmax).trans_lt (capMax_mul_W_lt_of_valid hvalid s.active)⟩

theorem resultOf_toNat {v : Nat} (hv : v < 2 ^ 32) : (resultOf v).toNat = v :=
  (BitVec.toNat_ofNat ..).trans (Nat.mod_eq_of_lt hv)

/-! ### The commands that check nothing -/

/-- A command that checks nothing does its work and ends with OK. -/
theorem command_completes {s : State} {x : Inst} {f : Inst → Inst} (hx : s.Runs x) (hf : (f x).status = x.status) :
    command true s (fun x => complete (f x) s) = .next (s.endsAs { f x with status := endStatus .ok }) := by
  rw [command_legal hx, complete_endsAs (hf ▸ hx.2)]

/-- Settles O44: the command checks nothing, and its clamp is the statement's. -/
theorem advanceClampsAtTheEnd : Obligations.AdvanceClampsAtTheEnd := by
  unfold Obligations.AdvanceClampsAtTheEnd
  exact ⟨followsTemplate .advance, fun s x hx => command_completes hx rfl⟩

/-- Settles O46: the command checks nothing, and its clamp is the statement's. -/
theorem seekClampsAtTheEnd : Obligations.SeekClampsAtTheEnd := by
  unfold Obligations.SeekClampsAtTheEnd
  exact ⟨followsTemplate .seek, fun s x hx => command_completes hx rfl⟩

/-- The clamp of RETREAT at 0 is the difference of natural numbers (R173). -/
theorem exec_retreat {s : State} {x : Inst} (hx : s.Runs x) :
    exec .retreat s = .next (s.endsAs { x with cursor := x.cursor - x.arg0.toNat, status := endStatus .ok }) := by
  have hclamp : (if x.cursor ≤ x.arg0.toNat then 0 else x.cursor - x.arg0.toNat) = x.cursor - x.arg0.toNat := by
    split <;> omega
  rw [← hclamp]
  exact command_completes hx rfl

/-- Settles O45: both clauses are the difference of `exec_retreat`. -/
theorem retreatClampsAtZero : Obligations.RetreatClampsAtZero := by
  unfold Obligations.RetreatClampsAtZero
  refine ⟨followsTemplate .retreat, fun s x hx => ⟨fun hle => ?_, fun d hd => ?_⟩⟩
  · rw [exec_retreat hx, Nat.sub_eq_zero_of_le hle]
  · rw [exec_retreat hx, hd, Nat.add_sub_cancel]

/-- Settles O47: the cursor lies within the buffer, whose bits are counted in 32 bits (`State.Inv.active_bits`). -/
theorem positionReadsTheCursor : Obligations.PositionReadsTheCursor := by
  unfold Obligations.PositionReadsTheCursor
  refine ⟨followsTemplate .position, fun s x hx hinv => ?_⟩
  obtain ⟨hcur, -, hfits⟩ := hinv.active_bits hx.1
  exact ⟨resultOf x.cursor, resultOf_toNat (hcur.trans_lt hfits), command_completes hx rfl⟩

/-- Settles O48: the bits of the buffer are counted in 32 bits (`State.Inv.active_bits`). -/
theorem capacityBitsReadsTheCapacity : Obligations.CapacityBitsReadsTheCapacity := by
  unfold Obligations.CapacityBitsReadsTheCapacity
  refine ⟨followsTemplate .capacityBits, fun s x hx hinv => ?_⟩
  obtain ⟨-, hpos, hfits⟩ := hinv.active_bits hx.1
  have hv : (resultOf (x.bits s.W)).toNat = x.capacity * s.W := resultOf_toNat hfits
  exact ⟨resultOf (x.bits s.W), hv, hv ▸ hpos, command_completes hx rfl⟩

/-- Each of the five commands only writes RESULT and the cursor, and takes a cursor within the buffer to one within the
buffer (R175). -/
theorem exec_eq_of_mem_cursorCommands {i : Instr} (hi : i ∈ [.advance, .retreat, .seek, .position, .capacityBits])
    (s : State) : ∃ (r : Inst → Reg) (cur : Inst → Nat),
      exec i s = command true s (fun x => complete { x with result := r x, cursor := cur x } s) ∧
      ∀ x, x.cursor ≤ x.capacity * s.W → cur x ≤ x.capacity * s.W := by
  simp only [List.mem_cons, List.not_mem_nil, or_false] at hi
  rcases hi with rfl | rfl | rfl | rfl | rfl
  · exact ⟨_, _, rfl, fun x _ => Nat.min_le_right ..⟩
  · refine ⟨_, _, rfl, fun x hcur => ?_⟩
    split
    · exact Nat.zero_le _
    · exact (Nat.sub_le ..).trans hcur
  · exact ⟨_, _, rfl, fun x _ => Nat.min_le_right ..⟩
  · exact ⟨_, _, rfl, fun x hcur => hcur⟩
  · exact ⟨_, _, rfl, fun x hcur => hcur⟩

/-- Settles O49: a halted instance ends as it was found, and any other with only RESULT and the cursor written
(`exec_eq_of_mem_cursorCommands`). -/
theorem cursorCommandsDoNotGrow : Obligations.CursorCommandsDoNotGrow := by
  unfold Obligations.CursorCommandsDoNotGrow
  intro i s t x hi hx hcur h
  obtain ⟨r, cur, hexec, hkeeps⟩ := exec_eq_of_mem_cursorCommands hi s
  rw [hexec] at h
  obtain ⟨x', hx', hcases⟩ := command_next h
  obtain rfl : x = x' := Option.some.inj (hx.symm.trans hx')
  rcases hcases with ⟨-, rfl⟩ | ⟨-, hlegal, -⟩ | ⟨-, -, h⟩
  · exact ⟨_, State.ended_insts_active hx x .halted, rfl, rfl, hcur⟩
  · exact absurd hlegal (by decide)
  · obtain rfl := Host.Outcome.next.inj h
    exact ⟨_, State.ended_insts_active hx _ .ok, rfl, rfl, hkeeps x hcur⟩

/-! ### DOUBLE_CAPACITY -/

/-- Settles O43: the command only checks the doubled capacity against CAP_MAX. -/
theorem doubleCapacityDoublesOnce : Obligations.DoubleCapacityDoublesOnce := by
  unfold Obligations.DoubleCapacityDoublesOnce
  refine ⟨followsTemplate .doubleCapacity, fun s x hx => ?_⟩
  rw [exec, execDoubleCapacity, command_legal hx]
  refine ⟨fun hfits => ?_, fun hover => ?_⟩
  · rw [if_neg (Nat.not_lt.2 hfits), complete_endsAs (by exact hx.2)]
  · rw [if_pos hover, raise_fails hx.2]

/-! ### FLUSH -/

@[simp] theorem deliveredWords_length (x : Inst) : (deliveredWords x).length = x.capacity := by
  simp [deliveredWords]

/-- Word j of the delivery is word j of the store (R56). -/
theorem deliveredWords_getElem? (x : Inst) {j : Nat} (hj : j < x.capacity) :
    (deliveredWords x)[j]? = some (x.words.read j) := by
  simp [deliveredWords, hj]

/-- Where the new capacity fits, FLUSH delivers the old words and then ends with OK on an empty store (R180). -/
theorem exec_flush_fits {s : State} {x : Inst} (hx : s.Runs x) (hfits : max 1 x.arg0.toNat ≤ s.capMax) :
    exec .flush s = .next ((s.observe (.flushOut s.active (deliveredWords x))).endsAs
      { x with
        words := []
        capacity := max 1 x.arg0.toNat
        cursor := 0
        result := resultOf x.capacity
        status := endStatus .ok }) := by
  rw [exec, execFlush, command_legal hx, if_neg (Nat.not_lt.2 hfits), complete_endsAs (by exact hx.2)]

/-- Where it does not, FLUSH only reports ALLOC_FAILURE (R180). -/
theorem exec_flush_over {s : State} {x : Inst} (hx : s.Runs x) (hover : s.capMax < max 1 x.arg0.toNat) :
    exec .flush s = .next (s.fails x .allocFailure) := by
  rw [exec, execFlush, command_legal hx, if_pos hover, raise_fails hx.2]

/-- Settles O50: the two events of `exec_flush_fits` are appended one after the other, and an empty store reads 0. -/
theorem flushDeliversAndStartsOver : Obligations.FlushDeliversAndStartsOver := by
  unfold Obligations.FlushDeliversAndStartsOver
  refine ⟨followsTemplate .flush, fun s x hx => ⟨fun hfits => ?_, exec_flush_over hx⟩⟩
  refine ⟨deliveredWords x, [], deliveredWords_length x, fun j => deliveredWords_getElem? x, Memory.wf_nil,
    Memory.read_nil, ?_⟩
  rw [exec_flush_fits hx hfits, State.endsAs, State.observe_obs, List.append_assoc]
  rfl

end Sys2Proof.Machine

/-! PROOFS of family 60_exceptions.md: a command that ends with an error changes STATUS alone (R203). -/

namespace Sys2Proof.Machine

/-- `State.ended` in the terms claims use, whether the instance is halted or not (R31, R203). -/
theorem State.ended_eq_endsAs_status (s : State) (x : Inst) (c : Code) :
    s.ended x c = s.endsAs
      { x with status := { code := c, fatal := x.status.fatal || decide (c = .allocFailure) } } := by
  rw [← Code.isFatal_eq]
  rfl

/-- The last thing the host sees of a command is its completion code. -/
theorem State.ended_obs_getLast? (s : State) (x : Inst) (c : Code) :
    (s.ended x c).obs.getLast? = some (.completed s.active c) := by
  rw [State.ended_obs, List.getLast?_concat]

/-- Ending with OK on an instance that is not halted leaves OK in its STATUS and shows the host OK (R30, R200). -/
theorem State.ended_ok_status_and_event {s : State} {x x' : Inst} (hx : s.insts[s.active]? = some x)
    (hf : x'.status.fatal = false) :
    ∃ y, (s.ended x' .ok).insts[s.active]? = some y ∧ y.status = endStatus .ok ∧
      (s.ended x' .ok).obs.getLast? = some (.completed s.active .ok) :=
  ⟨_, State.ended_insts_active hx x' .ok, Status.ended_of_not_fatal _ _ hf, State.ended_obs_getLast? s x' .ok⟩

/-- So a command that completes with OK leaves and shows OK, whatever it did to its source or delivered before. -/
theorem EndsOk.status_and_event {i : Instr} {s t : State} {x : Inst} (hx : s.Runs x) (h : EndsOk i s x t) :
    ∃ y, t.insts[s.active]? = some y ∧ y.status = endStatus .ok ∧
      t.obs.getLast? = some (.completed s.active .ok) := by
  obtain ⟨x', heff, hcases⟩ := h
  have hf : x'.status.fatal = false := heff.status ▸ hx.2
  rcases hcases with rfl | ⟨src, y, -, hne, -, -, rfl⟩ | ⟨-, ws, rfl⟩
  · exact State.ended_ok_status_and_event hx.1 hf
  · exact State.ended_ok_status_and_event (State.setInst_insts_active hne hx.1) hf
  · exact State.ended_ok_status_and_event (s := s.observe (.flushOut s.active ws)) hx.1 hf

/-- Settles O52: of all that a command can do (`exec_cases`), HALTED and the errors end with the instance as it was
found, a wait is the statement's, and an OK leaves what `EndsOk.status_and_event` says. -/
theorem errorsArePrecise : Obligations.ErrorsArePrecise := by
  unfold Obligations.ErrorsArePrecise
  intro i s t h
  obtain ⟨x, hx, hcases⟩ := exec_cases h
  refine ⟨x, hx, ?_⟩
  rcases hcases with ⟨-, rfl⟩ | ⟨hf, ⟨c, hc, -, rfl⟩ | ⟨hi, -, -, rfl⟩ | hok⟩
  · exact .inl ⟨.halted, by decide, State.ended_eq_endsAs_status s x .halted⟩
  · exact .inl ⟨c, hc, State.ended_eq_endsAs_status s x c⟩
  · exact .inr (.inr ⟨hi, rfl⟩)
  · exact .inr (.inl ⟨hf, hok.status_and_event ⟨hx, hf⟩⟩)

end Sys2Proof.Machine

/-! PROOFS of the family of whole-machine statements, encoding: the encoder's words and no others decode, and the words
the decoder rejects are told by their fields (R61 to R67). -/

namespace Sys2Proof

/-- Settles O1: a word that decodes to a command holds the same fields as the command's own word. -/
theorem decodeInvertsEncode : Obligations.DecodeInvertsEncode := by
  unfold Obligations.DecodeInvertsEncode
  intro c i
  constructor
  · intro h
    have hword := decode_eq_ok_iff_toNat.1 (decode_encode i)
    exact BitVec.eq_of_toNat_eq ((decode_eq_ok_iff_toNat.1 h).trans hword.symm)
  · rintro rfl
    exact decode_encode i

/-! ### The rejected words -/

theorem decodePlain_rejects_iff {i : Instr} {n : BitVec 6} {src : BitVec 3} :
    (∃ e, decodePlain i n src = .error e) ↔ n ≠ 0 ∨ src ≠ 0 := by
  unfold decodePlain
  split_ifs <;> simp_all

theorem decodeCounted_rejects_iff {i : BitVec 6 → Instr} {n : BitVec 6} {src : BitVec 3} :
    (∃ e, decodeCounted i n src = .error e) ↔ src ≠ 0 := by
  unfold decodeCounted
  split_ifs <;> simp_all

theorem decodeSourced_rejects_iff {i : BitVec 3 → Instr} {n : BitVec 6} {src : BitVec 3} :
    (∃ e, decodeSourced i n src = .error e) ↔ n ≠ 0 := by
  unfold decodeSourced
  split_ifs <;> simp_all

/-- The opcode map rejects a reserved OP, and a field that is not 0 in a command that has no such field (R62 to R64). -/
theorem decodeOp_rejects_iff {op : Nat} {n : BitVec 6} {src : BitVec 3} :
    (∃ e, decodeOp op n src = .error e) ↔
      op = 0 ∨ 0x14 ≤ op ∨ (¬ (0x04 ≤ op ∧ op ≤ 0x07) ∧ n ≠ 0) ∨ (¬ (0x0A ≤ op ∧ op ≤ 0x0C) ∧ src ≠ 0) := by
  unfold decodeOp
  split
  case h_4 | h_5 | h_6 | h_7 => simp [decodeCounted_rejects_iff]
  case h_10 | h_11 | h_12 => simp [decodeSourced_rejects_iff]
  case h_20 =>
    have hreserved : op = 0 ∨ 0x14 ≤ op := by
      by_contra! hop
      obtain ⟨hpos, hlt⟩ := hop
      interval_cases op <;> contradiction
    simp only [Except.error.injEq, exists_eq', true_iff]
    exact hreserved.imp_right .inl
  all_goals simp [decodePlain_rejects_iff]

/-- Settles O2: beside the reserved bits it is the opcode map that rejects (`decodeOp_rejects_iff`). -/
theorem decodeRejectsExactlyReservedWords : Obligations.DecodeRejectsExactlyReservedWords := by
  unfold Obligations.DecodeRejectsExactlyReservedWords
  intro c
  have hzero : ∀ {w : Nat} (v : BitVec w), v.toNat ≠ 0 ↔ v ≠ 0 := fun v => BitVec.toNat_ne_iff_ne (y := 0)
  rw [← rsvField_toNat, ← opField_toNat, ← nField_toNat, ← srcField_toNat, hzero, hzero, hzero,
    ← decodeOp_rejects_iff, decode]
  split_ifs with hrsv
  · exact iff_of_true ⟨_, rfl⟩ (.inl hrsv)
  · exact (or_iff_right hrsv).symm

/-- Settles O4: each word is evaluated. -/
theorem writtenOutWordsDecode : Obligations.WrittenOutWordsDecode := by
  unfold Obligations.WrittenOutWordsDecode
  exact ⟨rfl, rfl, rfl, rfl, rfl, rfl, rfl, rfl, rfl, rfl⟩

end Sys2Proof

namespace Sys2Proof.Machine

/-- A word the decoder rejects is illegal in every configuration (R67). -/
theorem illegalWord_of_decode_eq_error {cfg : Config} {c : Reg} {e : DecodeError} (h : decode c = .error e) :
    IllegalWord cfg c.toNat := by
  rcases (decodeRejectsExactlyReservedWords c).1 ⟨e, h⟩ with hrsv | hop | hop | ⟨hop, hn⟩ | ⟨hop, hsrc⟩
  · exact .inl hrsv
  · exact .inr (.inl hop)
  · exact .inr (.inr (.inl hop))
  · exact .inr (.inr (.inr (.inl (by rwa [if_neg hop]))))
  · exact .inr (.inr (.inr (.inr (by rwa [if_neg hop]))))

/-- Settles O3: a word that is rejected is illegal, and one that decodes is illegal exactly where its command is not
well formed. -/
theorem legalWordsAreWellFormedCommands : Obligations.LegalWordsAreWellFormedCommands := by
  unfold Obligations.LegalWordsAreWellFormedCommands
  intro cfg c
  cases hc : decode c with
  | error e => simp [illegalWord_of_decode_eq_error hc]
  | ok i => simp [illegalWord_iff_of_decode_eq_ok hc]

end Sys2Proof.Machine

/-! PROOFS of the family of whole-machine statements, the step: what it answers where its case is known (R60, R66, R230
to R244), and the registers as the host sees them (R26 to R32, R200). -/

namespace Sys2Proof.Machine

/-! ### The step -/

/-- Settles O11: the step asks for a valid configuration first. -/
theorem invalidConfigurationIsRefused : Obligations.InvalidConfigurationIsRefused := by
  unfold Obligations.InvalidConfigurationIsRefused
  intro s hv
  exact if_neg hv

/-- Settles O12: with nothing waiting and nothing to take, the step is the identity. -/
theorem idleSystemChangesNothing : Obligations.IdleSystemChangesNothing := by
  unfold Obligations.IdleSystemChangesNothing
  intro s hv hw hh
  rw [step, if_pos hv, systemStep, hw, hh]

theorem execWord_of_decode_eq_ok {c : Reg} {i : Instr} (h : decode c = .ok i) (s : State) :
    execWord c s = exec i s := by
  rw [execWord, h]

/-- A halted instance executes no word, whether it decodes or not (R66, R207). -/
theorem execWord_halted {s : State} {x : Inst} (hx : s.insts[s.active]? = some x) (hf : x.status.fatal = true)
    (c : Reg) : execWord c s = .next (s.endsAs { x with status := { code := .halted, fatal := true } }) := by
  rw [execWord]
  split
  · exact exec_halted hx hf _
  · rw [execIllegal, command_halted hx hf, raise_eq, State.ended_eq_endsAs_of_fatal s hf]

/-- Settles O6: the step that takes a write to CMD is `execWord` of the value (`step_issues`). -/
theorem stepRunsTheIssuedCommand : Obligations.StepRunsTheIssuedCommand := by
  unfold Obligations.StepRunsTheIssuedCommand
  intro s k c rest x i h hx hi
  exact (step_issues h hx).trans (execWord_of_decode_eq_ok hi _)

/-- The instance written to is the executing one of the state the command executes in (R26, R60). -/
theorem afterIssue_insts_active {s : State} {k : Nat} {x : Inst} (hx : s.insts[k]? = some x) (c : Reg)
    (rest : List HostAction) :
    (s.afterIssue k c x rest).insts[(s.afterIssue k c x rest).active]? = some { x with cmd := c } :=
  List.getElem?_set_self (List.getElem?_eq_some_iff.1 hx).1

/-- Settles O8: whatever the word, a halted instance only reports HALTED (`execWord_halted`). -/
theorem haltedInstanceExecutesNoWord : Obligations.HaltedInstanceExecutesNoWord := by
  unfold Obligations.HaltedInstanceExecutesNoWord
  intro s k c rest x h hx hf
  exact (step_issues h hx).trans (execWord_halted (afterIssue_insts_active hx c rest) hf c)

/-! ### A waiting WRITE_BUFFER -/

/-- A host whose next action may be taken meanwhile takes it (R32, R242). -/
theorem hostActWaiting_takes {s : State} {a : HostAction} {rest : List HostAction} (hh : s.host = a :: rest)
    (ha : a.MayBeTaken s.active) : hostActWaiting s = hostAct a { s with host := rest } := by
  rw [hostActWaiting, hh]
  exact if_pos ((allowedWhileExecuting_iff _ _).2 ha)

/-- A host with no such action leaves the system stuck (R244). -/
theorem hostActWaiting_stuck {s : State} (h : ∀ a rest, s.host = a :: rest → ¬ a.MayBeTaken s.active) :
    hostActWaiting s = .fault .stuckAwaitingExtIn := by
  rw [hostActWaiting]
  split
  · rfl
  · next a rest hh => exact if_neg fun ha => h a rest hh ((allowedWhileExecuting_iff _ _).1 ha)

/-- Settles O15: short of words the command waits for the host (`step_waiting_short`), which has nothing it may do. -/
theorem shortWriteBufferIsStuck : Obligations.ShortWriteBufferIsStuck := by
  unfold Obligations.ShortWriteBufferIsStuck
  intro s i x hv hi hx hq hno
  rw [step_waiting_short hv hi hx hq, hostActWaiting_stuck hno]

/-- An action that may be taken while a command waits neither reads nor writes which command that is. -/
theorem hostAct_of_mayBeTaken {a : HostAction} {s t : State} {k : Nat} (ha : a.MayBeTaken k)
    (w : Option Instr) (h : hostAct a s = .next t) :
    hostAct a { s with waiting := w } = .next { t with waiting := w } := by
  rcases ha with ⟨j, u, rfl⟩ | ⟨j, r, rfl⟩ | ⟨j, r, u, rfl, hr, -⟩
  · obtain ⟨x, hx, h⟩ := withInst_next h
    obtain rfl := Host.Outcome.next.inj h
    exact withInst_eq (s := { s with waiting := w }) hx _
  · obtain ⟨x, hx, h⟩ := withInst_next h
    obtain rfl := Host.Outcome.next.inj h
    exact withInst_eq (s := { s with waiting := w }) hx _
  · obtain ⟨x, hx, -⟩ := withInst_next h
    obtain rfl := Host.Outcome.next.inj ((hostWrite_other hx hr).symm.trans h)
    exact hostWrite_other (s := { s with waiting := w }) hx hr

/-- Settles O16: the action is taken as if nothing waited (`hostAct_of_mayBeTaken`), and with its words present the
command goes on (`step_waiting_goes_on`). -/
theorem waitingWriteBufferGoesOn : Obligations.WaitingWriteBufferGoesOn := by
  unfold Obligations.WaitingWriteBufferGoesOn
  refine ⟨fun s t i x a rest hv hi hx hq hh ha h => ?_, fun s i x hv hi hx hq => step_waiting_goes_on hv hi hx hq⟩
  have hnext : State.Next { s with waiting := none } a rest := ⟨hv, rfl, hh⟩
  rw [step_next hnext] at h
  have hact := hostAct_of_mayBeTaken ha (some i) h
  rw [← hi] at hact ⊢
  rw [step_waiting_short hv hi hx hq, hostActWaiting_takes hh ha]
  exact hact

/-! ### Reset -/

/-- Settles O18: the reset of instance k replaces it, the system reset maps the reset over the parameters. -/
theorem resetResetsInstances : Obligations.ResetResetsInstances := by
  unfold Obligations.ResetResetsInstances
  refine ⟨fun s k p rest h hp => ?_, fun s rest h => ?_⟩
  · rw [step_next h, hostAct, hostReset, hp]
    rfl
  · refine ⟨s.cfg.insts.map (Inst.reset s.W), step_next h, List.length_map .., fun k p hp => ?_⟩
    rw [List.getElem?_map, hp, Option.map_some]

/-! ### STATUS and the host's access to the registers -/

theorem Code.value_le (c : Code) : c.value ≤ 6 := by cases c <;> decide

/-- STATUS as a number: no sum of its two fields exceeds a register (R30). -/
theorem Status.word_toNat (st : Status) : st.word.toNat = st.code.value + (if st.fatal then 16 else 0) := by
  have hcode := st.code.value_le
  rw [Status.word, BitVec.toNat_ofNat]
  apply Nat.mod_eq_of_lt
  split <;> omega

/-- Settles O14: the register is the number of `Status.word_toNat`, below 32. -/
theorem statusRegisterFields : Obligations.StatusRegisterFields := by
  unfold Obligations.StatusRegisterFields
  refine ⟨fun st => ?_, rfl, rfl, rfl, rfl, rfl, rfl, rfl⟩
  have hcode := st.code.value_le
  have hword := st.word_toNat
  refine ⟨?_, hcode, ?_, fun b hb => ?_⟩
  · split at hword <;> omega
  · rw [← BitVec.testBit_toNat, Nat.testBit_eq_decide_div_mod_eq, hword]
    cases st.fatal <;> simp <;> omega
  · have hlt : st.word.toNat < 2 ^ 5 := by split at hword <;> omega
    rw [← BitVec.testBit_toNat]
    exact Nat.testBit_lt_two_pow (hlt.trans_le (Nat.pow_le_pow_right (by decide) hb))

/-- The low W bits of a word, as a number (R80). -/
theorem and_lowmask {W : Nat} (hW : W ≤ 32) (w : Word) : w &&& lowmask W = BitVec.ofNat 32 (w.toNat % 2 ^ W) := by
  have hlt := (Nat.mod_le w.toNat (2 ^ W)).trans_lt w.isLt
  apply BitVec.eq_of_toNat_eq
  rw [BitVec.toNat_and, lowmask_toNat hW, Nat.and_two_pow_sub_one_eq_mod, BitVec.toNat_ofNat, Nat.mod_eq_of_lt hlt]

/-- The step that takes a host write of a register other than CMD (R27 to R30). -/
theorem step_writes {s : State} {k : Nat} {r : HostReg} {v : Reg} {rest : List HostAction} {x : Inst}
    (h : s.Next (.write k r v) rest) (hx : s.insts[k]? = some x) (hr : r ≠ .cmd) :
    step s = .next (State.setInst { s with host := rest } k (x.writeReg r v)) := by
  rw [step_next h]
  exact hostWrite_other (s := { s with host := rest }) hx hr

/-- Settles O13: a write is `Inst.writeReg`, which leaves the read-only registers alone, a read is `Inst.readReg`, and a
push keeps the low W bits (`and_lowmask`). -/
theorem hostAccessToRegistersAndExtIn : Obligations.HostAccessToRegistersAndExtIn := by
  unfold Obligations.HostAccessToRegistersAndExtIn
  refine ⟨fun s k r v rest x h hx => ?_, fun s k r rest x h hx => ?_, fun s k w rest x h hx => ?_⟩
  · have same : State.setInst { s with host := rest } k x = { s with host := rest } := State.setInst_self hx
    refine ⟨?_, ?_, ?_, ?_, ?_, ?_⟩ <;> rintro rfl <;> rw [step_writes h hx nofun]
    case refine_5 | refine_6 => exact congrArg _ same
    all_goals rfl
  · refine ⟨x.readReg r, ?_, ?_⟩
    · rw [step_next h]
      exact withInst_eq (s := { s with host := rest }) hx _
    · refine ⟨?_, ?_, ?_, ?_, ?_, ?_, ?_⟩ <;> rintro rfl
      case refine_7 => exact x.status.word_toNat
      all_goals rfl
  · rw [step_next h, ← and_lowmask s.W_le]
    exact withInst_eq (s := { s with host := rest }) hx _

end Sys2Proof.Machine

/-! PROOFS of the family of whole-machine statements, commands: what a command does to each instance and to the rest of
the state, read off once from `exec_cases` (R20, R23, R26 to R35). -/

namespace Sys2Proof.Machine

/-! ### What a command leaves alone -/

/-- From s to t the parameters, the host's next actions, the executing instance's number and the number of instances
stay, and the host has seen no less (R5, R20, R247). -/
structure Frame (s t : State) : Prop where
  cfg : t.cfg = s.cfg
  host : t.host = s.host
  active : t.active = s.active
  length : t.insts.length = s.insts.length
  obs : s.obs <+: t.obs

theorem frame_ended (s : State) (x : Inst) (c : Code) : Frame s (s.ended x c) :=
  ⟨rfl, rfl, rfl, List.length_set, List.prefix_append ..⟩

theorem Frame.trans {s t u : State} (h : Frame s t) (h' : Frame t u) : Frame s u :=
  ⟨h'.cfg.trans h.cfg, h'.host.trans h.host, h'.active.trans h.active, h'.length.trans h.length, h.obs.trans h'.obs⟩

/-- No command leaves more than the instances, what waits and what the host has seen changed. -/
theorem exec_frame {i : Instr} {s t : State} (h : exec i s = .next t) : Frame s t := by
  obtain ⟨x, hx, hc⟩ := exec_cases h
  rcases hc with ⟨-, rfl⟩ | ⟨-, ⟨c, -, -, rfl⟩ | ⟨-, -, -, rfl⟩ |
    ⟨x', -, rfl | ⟨src, y, -, -, -, -, rfl⟩ | ⟨-, ws, rfl⟩⟩⟩
  · exact frame_ended s x _
  · exact frame_ended s x c
  · exact ⟨rfl, rfl, rfl, rfl, List.prefix_rfl⟩
  · exact frame_ended s x' _
  · have hsource : Frame s (s.setInst (sourceOf src) { y with cursor := y.cursor + x.arg2.toNat }) :=
      ⟨rfl, rfl, rfl, List.length_set, List.prefix_rfl⟩
    exact hsource.trans (frame_ended _ x' _)
  · have hseen : Frame s (s.observe (.flushOut s.active ws)) := ⟨rfl, rfl, rfl, rfl, List.prefix_append ..⟩
    exact hseen.trans (frame_ended _ x' _)

/-! ### What a command does to each instance -/

/-- What command i may leave of its own instance x: it as it was found, with or without a new STATUS, or with the effect
of a command that completed with OK (R203, R244). -/
def LeavesOwn (i : Instr) (s : State) (x y : Inst) : Prop :=
  y = x ∨ (∃ c, y = { x with status := x.status.ended c }) ∨
    ∃ x', Effect i s x x' ∧ y = { x' with status := x'.status.ended .ok }

/-- What command i may leave of another instance: it as it was, but for the cursor of the source of a WRITE_STREAM_CC
(R35, R155). -/
def LeavesOther (i : Instr) (s : State) (k : Nat) (z y : Inst) : Prop :=
  y = z ∨ ∃ src x, i = .writeStreamCC src ∧ src.toNat = k ∧ s.insts[s.active]? = some x ∧
    z.cursor + x.arg2.toNat ≤ z.bits s.W ∧ y = { z with cursor := z.cursor + x.arg2.toNat }

/-- The executing instance after a command. -/
theorem exec_own {i : Instr} {s t : State} (h : exec i s = .next t) :
    ∃ x y, s.insts[s.active]? = some x ∧ t.insts[s.active]? = some y ∧ LeavesOwn i s x y := by
  obtain ⟨x, hx, hc⟩ := exec_cases h
  rcases hc with ⟨-, rfl⟩ | ⟨-, ⟨c, -, -, rfl⟩ | ⟨-, -, -, rfl⟩ |
    ⟨x', heff, rfl | ⟨src, y, -, hne, -, -, rfl⟩ | ⟨-, ws, rfl⟩⟩⟩
  · exact ⟨x, _, hx, State.ended_insts_active hx x _, .inr (.inl ⟨_, rfl⟩)⟩
  · exact ⟨x, _, hx, State.ended_insts_active hx x c, .inr (.inl ⟨c, rfl⟩)⟩
  · exact ⟨x, x, hx, hx, .inl rfl⟩
  · exact ⟨x, _, hx, State.ended_insts_active hx x' _, .inr (.inr ⟨x', heff, rfl⟩)⟩
  · have hx' := State.setInst_insts_active (z := { y with cursor := y.cursor + x.arg2.toNat }) hne hx
    exact ⟨x, _, hx, State.ended_insts_active hx' x' _, .inr (.inr ⟨x', heff, rfl⟩)⟩
  · exact ⟨x, _, hx, State.ended_insts_active (s := s.observe (.flushOut s.active ws)) hx x' _,
      .inr (.inr ⟨x', heff, rfl⟩)⟩

/-- The other instances after a command. -/
theorem exec_other {i : Instr} {s t : State} (h : exec i s = .next t) {k : Nat} (hk : k ≠ s.active) {y : Inst}
    (hy : t.insts[k]? = some y) : ∃ z, s.insts[k]? = some z ∧ LeavesOther i s k z y := by
  obtain ⟨x, hx, hc⟩ := exec_cases h
  have unchanged : ∀ x', (s.insts.set s.active x')[k]? = some y → ∃ z, s.insts[k]? = some z ∧ LeavesOther i s k z y :=
    fun x' hy => ⟨y, by rwa [List.getElem?_set_ne hk.symm] at hy, .inl rfl⟩
  rcases hc with ⟨-, rfl⟩ | ⟨-, ⟨c, -, -, rfl⟩ | ⟨-, -, -, rfl⟩ |
    ⟨x', -, rfl | ⟨src, z, hi, hne, hz, hroom, rfl⟩ | ⟨-, ws, rfl⟩⟩⟩
  · exact unchanged _ hy
  · exact unchanged _ hy
  · exact ⟨y, hy, .inl rfl⟩
  · exact unchanged _ hy
  · by_cases hsrc : src.toNat = k
    · subst hsrc
      obtain rfl := Option.some.inj ((getElem?_source hne hz).symm.trans hy)
      exact ⟨z, hz, .inr ⟨src, x, hi, rfl, hx, hroom, rfl⟩⟩
    · rw [State.ended_insts, State.setInst_active, State.setInst_insts, List.getElem?_set_ne hk.symm,
        List.getElem?_set_ne hsrc] at hy
      exact ⟨y, hy, .inl rfl⟩
  · exact unchanged _ hy

/-- Every instance after a command, with what it was before. -/
theorem exec_inst {i : Instr} {s t : State} (h : exec i s = .next t) {k : Nat} {y : Inst}
    (hy : t.insts[k]? = some y) :
    ∃ x, s.insts[k]? = some x ∧
      ((k = s.active ∧ LeavesOwn i s x y) ∨ (k ≠ s.active ∧ LeavesOther i s k x y)) := by
  by_cases hk : k = s.active
  · subst hk
    obtain ⟨x, y', hx, hy', hown⟩ := exec_own h
    obtain rfl : y = y' := Option.some.inj (hy.symm.trans hy')
    exact ⟨x, hx, .inl ⟨rfl, hown⟩⟩
  · obtain ⟨x, hx, hother⟩ := exec_other h hk hy
    exact ⟨x, hx, .inr ⟨hk, hother⟩⟩

section
variable {i : Instr} {s t : State} {k : Nat} {x y : Inst}

/-- Where a command has changed a field of an instance other than the cursor and STATUS, it executed there and completed
with OK. -/
theorem exec_effect_of_ne {α : Type} (field : Inst → α) (hcursor : ∀ z c, field { z with cursor := c } = field z)
    (hstatus : ∀ z st, field { z with status := st } = field z) (h : exec i s = .next t) (hx : s.insts[k]? = some x)
    (hy : t.insts[k]? = some y) (hne : field y ≠ field x) :
    k = s.active ∧ ∃ x', Effect i s x x' ∧ y = { x' with status := x'.status.ended .ok } := by
  obtain ⟨z, hz, hcases⟩ := exec_inst h hy
  obtain rfl : x = z := Option.some.inj (hx.symm.trans hz)
  rcases hcases with ⟨hk, rfl | ⟨c, rfl⟩ | heff⟩ | ⟨-, rfl | ⟨src, x0, -, -, -, -, rfl⟩⟩
  · exact absurd rfl hne
  · exact absurd (hstatus ..) hne
  · exact ⟨hk, heff⟩
  · exact absurd rfl hne
  · exact absurd (hcursor ..) hne

/-- A command that makes an instance smaller is a FLUSH executed there (R23). -/
theorem exec_shrinks (h : exec i s = .next t) (hx : s.insts[k]? = some x) (hy : t.insts[k]? = some y)
    (hlt : y.capacity < x.capacity) : k = s.active ∧ i = .flush := by
  obtain ⟨hk, x', heff, rfl⟩ :=
    exec_effect_of_ne Inst.capacity (fun _ _ => rfl) (fun _ _ => rfl) h hx hy hlt.ne
  exact ⟨hk, heff.capacity.resolve_right hlt.not_ge⟩

/-- A command keeps the form of its own instance (R25). -/
theorem LeavesOwn.wf (hleaves : LeavesOwn i s x y) (hwf : x.Wf s.W s.capMax) : y.Wf s.W s.capMax := by
  rcases hleaves with rfl | ⟨c, rfl⟩ | ⟨x', heff, rfl⟩
  · exact hwf
  · exact hwf
  · exact heff.form hwf

theorem exec_own_wf (h : exec i s = .next t) (hx : s.insts[s.active]? = some x) (hwf : x.Wf s.W s.capMax)
    (hy : t.insts[s.active]? = some y) : y.Wf s.W s.capMax := by
  obtain ⟨x', y', hx', hy', hleaves⟩ := exec_own h
  obtain rfl := Option.some.inj (hx.symm.trans hx')
  obtain rfl := Option.some.inj (hy.symm.trans hy')
  exact hleaves.wf hwf

/-- A command keeps the form of every instance (R25). -/
theorem exec_inst_wf (h : exec i s = .next t)
    (hwf : ∀ (k : Nat) (x : Inst), s.insts[k]? = some x → x.Wf s.W (s.cfg.capMax k)) (hy : t.insts[k]? = some y) :
    y.Wf s.W (s.cfg.capMax k) := by
  obtain ⟨x, hx, hcases⟩ := exec_inst h hy
  have hxwf := hwf k x hx
  rcases hcases with ⟨rfl, hleaves⟩ | ⟨-, rfl | ⟨src, x0, -, -, -, hroom, rfl⟩⟩
  · exact hleaves.wf hxwf
  · exact hxwf
  · obtain ⟨hcap, hmax, -, hrest⟩ := hxwf
    exact ⟨hcap, hmax, hroom, hrest⟩

end

/-- Settles O53: RESULT differs only where the command completed with OK, and then by `Effect.result`. -/
theorem resultIsWrittenOnlyByItsCommands : Obligations.ResultIsWrittenOnlyByItsCommands := by
  unfold Obligations.ResultIsWrittenOnlyByItsCommands
  intro i s t k x y h hx hy hne
  obtain ⟨hk, x', heff, rfl⟩ := exec_effect_of_ne Inst.result (fun _ _ => rfl) (fun _ _ => rfl) h hx hy hne
  exact ⟨hk, heff.result.resolve_right hne, rfl⟩

/-- Settles O54: neither an own instance nor another one is left with another operand register. -/
theorem commandsWriteNoOperandRegister : Obligations.CommandsWriteNoOperandRegister := by
  unfold Obligations.CommandsWriteNoOperandRegister
  intro i s t k x y h hx hy
  obtain ⟨z, hz, hcases⟩ := exec_inst h hy
  obtain rfl : x = z := Option.some.inj (hx.symm.trans hz)
  rcases hcases with ⟨-, rfl | ⟨c, rfl⟩ | ⟨x', heff, rfl⟩⟩ | ⟨-, rfl | ⟨src, x0, -, -, -, -, rfl⟩⟩
  case inl.inr.inr => exact ⟨heff.cmd, heff.arg0, heff.arg1, heff.arg2, heff.data⟩
  all_goals exact ⟨rfl, rfl, rfl, rfl, rfl⟩

/-- Settles O55: the frame of a command, and `exec_other` for the instances that do not execute. -/
theorem commandsLeaveOtherInstancesAlone : Obligations.CommandsLeaveOtherInstancesAlone := by
  unfold Obligations.CommandsLeaveOtherInstancesAlone
  intro i s t h
  have hframe := exec_frame h
  refine ⟨hframe.cfg, hframe.host, hframe.active, fun k hk => ?_⟩
  cases hy : t.insts[k]? with
  | none =>
    rw [List.getElem?_eq_none_iff, hframe.length] at hy
    exact .inl (List.getElem?_eq_none hy).symm
  | some y =>
    obtain ⟨z, hz, rfl | ⟨src, x, hi, hsrc, hx, -, rfl⟩⟩ := exec_other h hk hy
    · exact .inl hz.symm
    · exact .inr ⟨src, x, z, hi, hsrc, hx, hz, rfl⟩

/-- Settles O56: EXT_IN differs only where the command completed with OK, and then by `Effect.extIn`. -/
theorem onlyWriteBufferPopsExtIn : Obligations.OnlyWriteBufferPopsExtIn := by
  unfold Obligations.OnlyWriteBufferPopsExtIn
  intro i s t k x y h hx hy hne
  obtain ⟨hk, x', heff, rfl⟩ := exec_effect_of_ne Inst.extIn (fun _ _ => rfl) (fun _ _ => rfl) h hx hy hne
  obtain ⟨hi, hn, hq, hdrop⟩ := heff.extIn.resolve_left hne
  refine ⟨hk, hi, rfl, Nat.one_le_iff_ne_zero.2 hn, x.extIn.take (wordsFor x.arg1.toNat s.W), ?_, ?_⟩
  · rw [List.length_take, Nat.min_eq_left hq]
  · exact (List.take_append_drop ..).symm.trans (congrArg _ hdrop.symm)

end Sys2Proof.Machine

/-! PROOFS of the family of whole-machine statements, every step: what it keeps (R5, R23, R25, R181), and that it
answers but for the two faults the model names (R20, R244). -/

namespace Sys2Proof.Machine

/-! ### Parameters and events -/

theorem execWord_frame {c : Reg} {s t : State} (h : execWord c s = .next t) : Frame s t := by
  rcases execWord_cases h with ⟨i, -, h⟩ | ⟨e, x, -, -, ⟨-, rfl⟩ | ⟨-, rfl⟩⟩
  · exact exec_frame h
  · exact frame_ended s x _
  · exact frame_ended s x _

theorem hostAct_keeps_cfg_and_obs {a : HostAction} {s t : State} (h : hostAct a s = .next t) :
    t.cfg = s.cfg ∧ s.obs <+: t.obs := by
  rcases hostAct_cases h with ⟨k, c, x, -, -, h⟩ | ⟨k, r, v, x, -, -, -, rfl⟩ | ⟨k, w, x, -, -, rfl⟩ |
    ⟨k, r, x, -, -, rfl⟩ | ⟨k, p, -, -, rfl⟩ | ⟨-, rfl⟩
  · exact ⟨(execWord_frame h).cfg, (execWord_frame h).obs⟩
  · exact ⟨rfl, List.prefix_rfl⟩
  · exact ⟨rfl, List.prefix_rfl⟩
  · exact ⟨rfl, List.prefix_append ..⟩
  · exact ⟨rfl, List.prefix_rfl⟩
  · exact ⟨rfl, List.prefix_rfl⟩

theorem step_keeps_cfg_and_obs {s t : State} (h : step s = .next t) : t.cfg = s.cfg ∧ s.obs <+: t.obs := by
  obtain ⟨-, ⟨-, -, rfl⟩ | ⟨a, rest, -, -, ha⟩ | ⟨i, x, -, -, -, hexec⟩ | ⟨i, a, rest, -, -, -, ha⟩⟩ := step_cases h
  · exact ⟨rfl, List.prefix_rfl⟩
  · exact hostAct_keeps_cfg_and_obs (s := { s with host := rest }) ha
  · exact ⟨(exec_frame hexec).cfg, (exec_frame hexec).obs⟩
  · exact hostAct_keeps_cfg_and_obs (s := { s with host := rest }) ha

/-- Settles O10: neither a command nor a host action writes the parameters. -/
theorem noStepChangesTheParameters : Obligations.NoStepChangesTheParameters := by
  unfold Obligations.NoStepChangesTheParameters
  exact fun s t h => (step_keeps_cfg_and_obs h).1

/-- Settles O60: a command or a host action only appends events. -/
theorem whatTheHostSawStays : Obligations.WhatTheHostSawStays := by
  unfold Obligations.WhatTheHostSawStays
  intro s t h
  obtain ⟨more, hmore⟩ := (step_keeps_cfg_and_obs h).2
  exact ⟨more, hmore.symm⟩

/-! ### Capacity -/

/-- An element of a list in which one has been replaced is the new one or an old one. -/
theorem getElem?_set_cases {α : Type} {l : List α} {j k : Nat} {z y : α} (h : (l.set j z)[k]? = some y) :
    (j = k ∧ y = z) ∨ (j ≠ k ∧ l[k]? = some y) := by
  rw [List.getElem?_set] at h
  split_ifs at h with hjk
  · exact .inl ⟨hjk, (Option.some.inj h).symm⟩
  · exact .inr ⟨hjk, h⟩

/-- Replacing an instance by one of the same capacity changes no capacity. -/
theorem set_capacity {l : List Inst} {j k : Nat} {x0 z x y : Inst} (hx0 : l[j]? = some x0) (hx : l[k]? = some x)
    (hy : (l.set j z)[k]? = some y) (hz : z.capacity = x0.capacity) : y.capacity = x.capacity := by
  rcases getElem?_set_cases hy with ⟨rfl, rfl⟩ | ⟨-, hy⟩
  · rw [hz, Option.some.inj (hx0.symm.trans hx)]
  · rw [Option.some.inj (hy.symm.trans hx)]

@[simp] theorem Inst.writeReg_capacity (x : Inst) (r : HostReg) (v : Reg) :
    (x.writeReg r v).capacity = x.capacity := by cases r <;> rfl

section
variable {s t : State} {k : Nat} {x y : Inst}

/-- A CMD value that makes an instance smaller is FLUSH, issued to it (R23). -/
theorem execWord_shrinks {c : Reg} (h : execWord c s = .next t) (hx : s.insts[k]? = some x)
    (hy : t.insts[k]? = some y) (hlt : y.capacity < x.capacity) : k = s.active ∧ decode c = .ok .flush := by
  rcases execWord_cases h with ⟨i, hi, h⟩ | ⟨e, x0, -, hx0, ⟨-, rfl⟩ | ⟨-, rfl⟩⟩
  · obtain ⟨hk, rfl⟩ := exec_shrinks h hx hy hlt
    exact ⟨hk, hi⟩
  · exact absurd (set_capacity hx0 hx hy rfl) hlt.ne
  · exact absurd (set_capacity hx0 hx hy rfl) hlt.ne

/-- A host action that makes instance k smaller is a reset of it or the issue of a FLUSH to it (R23). -/
theorem hostAct_shrinks {a : HostAction} (h : hostAct a s = .next t) (hx : s.insts[k]? = some x)
    (hy : t.insts[k]? = some y) (hlt : y.capacity < x.capacity) :
    a = .reset k ∨ a = .systemReset ∨ ∃ c, a = .write k .cmd c ∧ decode c = .ok .flush := by
  rcases hostAct_cases h with ⟨j, c, x0, rfl, hx0, h⟩ | ⟨j, r, v, x0, -, -, hx0, rfl⟩ | ⟨j, w, x0, -, hx0, rfl⟩ |
    ⟨j, r, x0, -, -, rfl⟩ | ⟨j, p, rfl, -, rfl⟩ | ⟨rfl, rfl⟩
  · have hk : k < (s.insts.set j { x0 with cmd := c }).length :=
      List.length_set.symm ▸ (List.getElem?_eq_some_iff.1 hx).1
    have hz := List.getElem?_eq_getElem hk
    obtain ⟨rfl, hflush⟩ := execWord_shrinks h hz hy (set_capacity hx0 hx hz rfl ▸ hlt)
    exact .inr (.inr ⟨c, rfl, hflush⟩)
  · exact absurd (set_capacity hx0 hx hy (x0.writeReg_capacity r v)) hlt.ne
  · exact absurd (set_capacity hx0 hx hy rfl) hlt.ne
  · exact absurd (congrArg _ (Option.some.inj (hy.symm.trans hx))) hlt.ne
  · rcases getElem?_set_cases hy with ⟨rfl, -⟩ | ⟨-, hy⟩
    · exact .inl rfl
    · exact absurd (congrArg _ (Option.some.inj (hy.symm.trans hx))) hlt.ne
  · exact .inr (.inl rfl)

end

/-- Settles O57: the host's action is one of the three causes (`hostAct_shrinks`), and a command that has waited is no
FLUSH. -/
theorem capacityShrinksOnlyAtFlushAndReset : Obligations.CapacityShrinksOnlyAtFlushAndReset := by
  unfold Obligations.CapacityShrinksOnlyAtFlushAndReset
  intro s t k x y hwait h hx hy hlt
  have taken : ∀ a rest, s.host = a :: rest → hostAct a { s with host := rest } = .next t →
      s.host.head? = some (.reset k) ∨ s.host.head? = some .systemReset ∨
        ∃ c, s.host.head? = some (.write k .cmd c) ∧ decode c = .ok .flush := by
    intro a rest hhost ha
    rw [hhost, List.head?_cons]
    simpa only [Option.some.injEq] using hostAct_shrinks (s := { s with host := rest }) ha hx hy hlt
  obtain ⟨-, ⟨-, -, rfl⟩ | ⟨a, rest, -, hhost, ha⟩ | ⟨i, z, hi, -, -, hexec⟩ | ⟨i, a, rest, -, hhost, -, ha⟩⟩ :=
    step_cases h
  · exact absurd (congrArg _ (Option.some.inj (hy.symm.trans hx))) hlt.ne
  · exact taken a rest hhost ha
  · obtain ⟨-, rfl⟩ := exec_shrinks (s := { s with waiting := none }) hexec hx hy hlt
    obtain ⟨hbuffer, -⟩ := hwait _ hi
    simp at hbuffer
  · exact taken a rest hhost ha

/-! ### The invariant: the instances -/

/-- The invariant without the waiting command: valid parameters, and NUM_INST instances in form (R5, R20, R25). -/
def State.Formed (s : State) : Prop :=
  s.cfg.Valid ∧ s.insts.length = s.cfg.numInst ∧
  ∀ (k : Nat) (x : Inst), s.insts[k]? = some x → x.Wf s.W (s.cfg.capMax k)

theorem State.inv_iff (s : State) : s.Inv ↔ s.Formed ∧ s.WaitOk := by
  simp only [State.Inv, State.Formed, and_assoc]

theorem State.Formed.setInst {s : State} (hs : s.Formed) {k : Nat} {z : Inst} (hz : z.Wf s.W (s.cfg.capMax k)) :
    (s.setInst k z).Formed := by
  obtain ⟨hvalid, hlen, hwf⟩ := hs
  refine ⟨hvalid, List.length_set.trans hlen, fun j x hx => ?_⟩
  rcases getElem?_set_cases hx with ⟨rfl, rfl⟩ | ⟨-, hx⟩
  · exact hz
  · exact hwf j x hx

/-- Ending a command with its instance as it found it writes STATUS alone. -/
theorem State.Formed.ended {s : State} (hs : s.Formed) {x : Inst} (hx : s.insts[s.active]? = some x) (c : Code) :
    (s.ended x c).Formed := by
  have ⟨_, _, hwf⟩ := hs
  exact hs.setInst (z := { x with status := x.status.ended c }) (hwf _ x hx)

theorem exec_formed {i : Instr} {s t : State} (h : exec i s = .next t) (hs : s.Formed) : t.Formed := by
  obtain ⟨hvalid, hlen, hwf⟩ := hs
  have hframe := exec_frame h
  have hW : t.W = s.W := congrArg Config.W hframe.cfg
  refine ⟨hframe.cfg ▸ hvalid, ?_, fun k y hy => ?_⟩
  · rw [hframe.length, hframe.cfg, hlen]
  · rw [hW, hframe.cfg]
    exact exec_inst_wf h hwf hy

theorem execWord_formed {c : Reg} {s t : State} (h : execWord c s = .next t) (hs : s.Formed) : t.Formed := by
  rcases execWord_cases h with ⟨i, -, h⟩ | ⟨e, x, -, hx, ⟨-, rfl⟩ | ⟨-, rfl⟩⟩
  · exact exec_formed h hs
  · exact hs.ended hx _
  · exact hs.ended hx _

theorem Inst.Wf.writeReg {W capMax : Nat} {x : Inst} (h : x.Wf W capMax) (r : HostReg) (v : Reg) :
    (x.writeReg r v).Wf W capMax := by cases r <;> exact h

/-- A push keeps EXT_IN a queue of W-bit words (R32). -/
theorem Inst.Wf.push {s : State} {capMax : Nat} {x : Inst} (h : x.Wf s.W capMax) (w : Word) :
    Inst.Wf s.W capMax { x with extIn := x.extIn ++ [w &&& lowmask s.W] } := by
  obtain ⟨hcap, hmax, hcur, hm, hnar, hbelow, hext⟩ := h
  refine ⟨hcap, hmax, hcur, hm, hnar, hbelow, ?_⟩
  have hpushed : (w &&& lowmask s.W).toNat < 2 ^ s.W := by
    rw [BitVec.and_comm]
    exact and_lt (lowmask_lt (Nat.le_refl _) s.W_le) w
  rw [List.forall_mem_map] at hext ⊢
  simpa [or_imp, forall_and] using ⟨hext, hpushed⟩

theorem capMax_eq_of_getElem? {c : Config} {k : Nat} {p : InstConfig} (h : c.insts[k]? = some p) :
    c.capMax k = p.capMax := by
  rw [Config.capMax, h]

theorem instConfig_valid_of_getElem? {c : Config} (h : c.Valid) {k : Nat} {p : InstConfig} (hp : c.insts[k]? = some p) :
    p.Valid c.W := by
  obtain ⟨-, -, hinsts⟩ := h
  exact hinsts p (List.mem_of_getElem? hp)

/-- The reset values of an instance with valid parameters are in form (R230, R231). -/
theorem Inst.reset_wf {W : Nat} {p : InstConfig} (hp : p.Valid W) : (Inst.reset W p).Wf W p.capMax := by
  obtain ⟨-, -, hcap, -⟩ := hp
  exact ⟨Nat.le_max_left .., hcap, Nat.zero_le _, Memory.wf_nil, nofun, nofun, nofun⟩

/-- After a system reset every instance is in form (R231). -/
theorem State.formed_of_reset {s : State} (hvalid : s.cfg.Valid)
    (hreset : s.insts = s.cfg.insts.map (Inst.reset s.W)) : s.Formed := by
  refine ⟨hvalid, by rw [hreset, List.length_map, Config.numInst], fun k x hx => ?_⟩
  rw [hreset, List.getElem?_map, Option.map_eq_some_iff] at hx
  obtain ⟨p, hp, rfl⟩ := hx
  rw [capMax_eq_of_getElem? hp]
  exact Inst.reset_wf (instConfig_valid_of_getElem? hvalid hp)

theorem hostAct_formed {a : HostAction} {s t : State} (h : hostAct a s = .next t) (hs : s.Formed) : t.Formed := by
  have ⟨hvalid, _, hwf⟩ := hs
  rcases hostAct_cases h with ⟨k, c, x, -, hx, h⟩ | ⟨k, r, v, x, -, -, hx, rfl⟩ | ⟨k, w, x, -, hx, rfl⟩ |
    ⟨k, r, x, -, -, rfl⟩ | ⟨k, p, -, hp, rfl⟩ | ⟨-, rfl⟩
  · exact execWord_formed h (hs.setInst (z := { x with cmd := c }) (hwf k x hx))
  · exact hs.setInst ((hwf k x hx).writeReg r v)
  · exact hs.setInst ((hwf k x hx).push w)
  · exact hs
  · refine hs.setInst ?_
    rw [capMax_eq_of_getElem? hp]
    exact Inst.reset_wf (instConfig_valid_of_getElem? hvalid hp)
  · exact State.formed_of_reset hvalid rfl

/-! ### The invariant: the waiting command -/

theorem State.waitOk_of_none {s : State} (h : s.waiting = none) : s.WaitOk := by
  intro i hi
  rw [h] at hi
  cases hi

/-- A command leaves only itself waiting, and only with its checks passed (R141, R142). -/
theorem exec_waitOk {i : Instr} {s t : State} (h : exec i s = .next t) (hw : s.waiting = none) : t.WaitOk := by
  obtain ⟨x, hx, hc⟩ := exec_cases h
  rcases hc with ⟨-, rfl⟩ | ⟨hf, ⟨c, -, -, rfl⟩ | ⟨hi, hn, -, rfl⟩ |
    ⟨x', -, rfl | ⟨src, y, -, -, -, -, rfl⟩ | ⟨-, ws, rfl⟩⟩⟩
  case inr.inr.inl =>
    intro j hj
    obtain rfl := Option.some.inj hj
    exact ⟨hi, x, hx, hf, hn⟩
  all_goals exact State.waitOk_of_none hw

theorem execWord_waitOk {c : Reg} {s t : State} (h : execWord c s = .next t) (hw : s.waiting = none) : t.WaitOk := by
  rcases execWord_cases h with ⟨i, -, h⟩ | ⟨e, x, -, -, ⟨-, rfl⟩ | ⟨-, rfl⟩⟩
  · exact exec_waitOk h hw
  · exact State.waitOk_of_none hw
  · exact State.waitOk_of_none hw

theorem hostAct_waitOk_of_none {a : HostAction} {s t : State} (h : hostAct a s = .next t) (hw : s.waiting = none) :
    t.WaitOk := by
  rcases hostAct_cases h with ⟨k, c, x, -, -, h⟩ | ⟨k, r, v, x, -, -, -, rfl⟩ | ⟨k, w, x, -, -, rfl⟩ |
    ⟨k, r, x, -, -, rfl⟩ | ⟨k, p, -, -, rfl⟩ | ⟨-, rfl⟩
  case inl => exact execWord_waitOk h hw
  all_goals exact State.waitOk_of_none hw

/-- Replacing an instance by one that is halted as it was and has the same ARG1 keeps what waits (R242). -/
theorem State.WaitOk.setInst {s : State} (hs : s.WaitOk) {k : Nat} {x z : Inst} (hx : s.insts[k]? = some x)
    (hz : k = s.active → z.status = x.status ∧ z.arg1 = x.arg1) : (s.setInst k z).WaitOk := by
  intro i hi
  obtain ⟨hbuffer, x0, hx0, hf, hn⟩ := hs i hi
  refine ⟨hbuffer, ?_⟩
  by_cases hk : k = s.active
  · obtain ⟨hstatus, harg1⟩ := hz hk
    obtain rfl : x = x0 := Option.some.inj (hx.symm.trans (hk ▸ hx0))
    exact ⟨z, hk ▸ List.getElem?_set_self (List.getElem?_eq_some_iff.1 hx).1, hstatus ▸ hf, harg1 ▸ hn⟩
  · exact ⟨x0, State.setInst_insts_active hk hx0, hf, hn⟩

theorem Inst.writeReg_arg1 (x : Inst) {r : HostReg} (v : Reg) (hr : r ≠ .arg1) :
    (x.writeReg r v).arg1 = x.arg1 := by
  cases r with
  | arg1 => exact absurd rfl hr
  | _ => rfl

/-- An action that may be taken meanwhile keeps what waits (R242). -/
theorem hostAct_waitOk_of_mayBeTaken {a : HostAction} {s t : State} (h : hostAct a s = .next t)
    (ha : a.MayBeTaken s.active) (hs : s.WaitOk) : t.WaitOk := by
  rcases ha with ⟨k, w, rfl⟩ | ⟨k, r, rfl⟩ | ⟨k, r, v, rfl, hr, hk⟩
  · obtain ⟨x, hx, h⟩ := withInst_next h
    obtain rfl := Host.Outcome.next.inj h
    exact hs.setInst hx fun _ => ⟨rfl, rfl⟩
  · obtain ⟨x, hx, h⟩ := withInst_next h
    obtain rfl := Host.Outcome.next.inj h
    exact hs
  · obtain ⟨x, hx, -⟩ := withInst_next h
    obtain rfl := Host.Outcome.next.inj ((hostWrite_other hx hr).symm.trans h)
    refine hs.setInst hx fun hactive => ⟨x.writeReg_status r v, x.writeReg_arg1 v ?_⟩
    rcases hk with hk | rfl | rfl
    · exact absurd hactive hk
    · decide
    · decide

/-! ### The invariant -/

/-- Settles O20: a command and a host action each keep the form of the instances (`exec_formed`, `hostAct_formed`) and
what a waiting command has passed (`exec_waitOk`, `hostAct_waitOk_of_mayBeTaken`). -/
theorem stepKeepsTheInvariant : Obligations.StepKeepsTheInvariant := by
  unfold Obligations.StepKeepsTheInvariant
  intro s t hinv h
  obtain ⟨hformed, hwait⟩ := s.inv_iff.1 hinv
  rw [State.inv_iff]
  obtain ⟨-, ⟨-, -, rfl⟩ | ⟨a, rest, hw, -, ha⟩ | ⟨i, x, -, -, -, hexec⟩ | ⟨i, a, rest, -, -, hmay, ha⟩⟩ :=
    step_cases h
  · exact ⟨hformed, hwait⟩
  · exact ⟨hostAct_formed ha hformed, hostAct_waitOk_of_none ha hw⟩
  · exact ⟨exec_formed hexec hformed, exec_waitOk hexec rfl⟩
  · exact ⟨hostAct_formed ha hformed, hostAct_waitOk_of_mayBeTaken ha hmay hwait⟩

/-- Settles O19: the reset values are in form (`State.formed_of_reset`), and nothing waits. -/
theorem resetMeetsTheInvariant : Obligations.ResetMeetsTheInvariant := by
  unfold Obligations.ResetMeetsTheInvariant
  have inv : ∀ c : Config, c.Valid → (State.resetWith c).Inv := fun c hc =>
    (State.inv_iff _).2 ⟨State.formed_of_reset hc rfl, State.waitOk_of_none rfl⟩
  exact ⟨inv, inv Config.reference (by decide)⟩

/-! ### A step answers -/

/-- The operation answers a next state. -/
def Answers (r : Result) : Prop := ∃ t, r = .next t

theorem answers_next (t : State) : Answers (.next t) := ⟨t, rfl⟩

theorem ite_answers {p : Prop} [Decidable p] {a b : Result} (ha : Answers a) (hb : Answers b) :
    Answers (if p then a else b) := by
  split
  · exact ha
  · exact hb

theorem command_answers {s : State} {x : Inst} (hx : s.insts[s.active]? = some x) {legal : Bool}
    {body : Inst → Result} (hbody : legal = true → Answers (body x)) : Answers (command legal s body) := by
  rw [command, hx]
  dsimp only
  split_ifs with hf hlegal
  · exact answers_next _
  · exact hbody hlegal
  · exact answers_next _

theorem growing_answers {R : Nat} {x : Inst} {s : State} {body : Inst → Result} (hbody : ∀ z, Answers (body z)) :
    Answers (growing R x s body) := by
  rw [growing]
  split
  · exact answers_next _
  · exact hbody _

/-- A legal SRC names an instance (R64). -/
theorem withSource_answers {s : State} (hlen : s.insts.length = s.cfg.numInst) {src : BitVec 3}
    (hlegal : sourceLegal s src = true) {body : Inst → Result} (hbody : ∀ y, Answers (body y)) :
    Answers (withSource src s body) := by
  have hsrc : sourceOf src < s.insts.length := hlen ▸ of_decide_eq_true hlegal
  rw [withSource_eq (List.getElem?_eq_getElem hsrc)]
  exact hbody _

theorem streamCheck_answers {src : BitVec 3} {y x : Inst} {start n : Nat} {s : State} {body : Result}
    (hbody : Answers body) : Answers (streamCheck src y start n x s body) :=
  ite_answers (answers_next _) <| ite_answers (answers_next _) <| ite_answers (answers_next _) hbody

/-- No command stops the machine, whatever its operands (R208). -/
theorem exec_answers {s : State} {x : Inst} (hx : s.insts[s.active]? = some x)
    (hlen : s.insts.length = s.cfg.numInst) (i : Instr) : Answers (exec i s) := by
  cases i with
  | getBit | setBit | clearBit | readWordIdx | readWordCur | doubleCapacity | flush =>
    exact command_answers hx fun _ => ite_answers (answers_next _) (answers_next _)
  | advance | retreat | seek | position | capacityBits => exact command_answers hx fun _ => answers_next _
  | writeWordIdx | writeWordCur =>
    exact command_answers hx fun _ => growing_answers fun z => answers_next _
  | writeBufferIdx | writeBufferCur =>
    exact command_answers hx fun _ => ite_answers (answers_next _) <| growing_answers fun z =>
      ite_answers (answers_next _) (answers_next _)
  | writeStreamII | writeStreamCI | writeStreamCC =>
    exact command_answers hx fun hlegal => withSource_answers hlen hlegal fun y =>
      streamCheck_answers <| growing_answers fun z => answers_next _

theorem execWord_answers {s : State} {x : Inst} (hx : s.insts[s.active]? = some x)
    (hlen : s.insts.length = s.cfg.numInst) (c : Reg) : Answers (execWord c s) := by
  rw [execWord]
  split
  · exact exec_answers hx hlen _
  · exact command_answers hx fun hlegal => absurd hlegal (by decide)

/-- A host action answers, or names an instance that does not exist (R20). -/
theorem hostAct_answers_or {s : State} (hlen : s.insts.length = s.cfg.numInst) (a : HostAction) :
    Answers (hostAct a s) ∨
      (hostAct a s = .fault .noSuchInstance ∧ ∃ k, a.target = some k ∧ s.cfg.numInst ≤ k) := by
  have missing : ∀ {k : Nat}, s.insts[k]? = none → s.cfg.numInst ≤ k := fun h =>
    hlen ▸ List.getElem?_eq_none_iff.1 h
  have onInst : ∀ (k : Nat) (body : Inst → Result), (∀ x, s.insts[k]? = some x → Answers (body x)) →
      Answers (withInst k s body) ∨ (withInst k s body = .fault .noSuchInstance ∧ s.cfg.numInst ≤ k) := by
    intro k body hbody
    rw [withInst]
    split
    · next hk => exact .inr ⟨rfl, missing hk⟩
    · next x hx => exact .inl (hbody x hx)
  cases a with
  | write k r v =>
    refine (onInst k _ fun x hx => ?_).imp_right fun ⟨h, hk⟩ => ⟨h, k, rfl, hk⟩
    by_cases hr : r = .cmd
    · subst hr
      have hactive : (issued k v x s).insts[(issued k v x s).active]? = some { x with cmd := v } :=
        List.getElem?_set_self (List.getElem?_eq_some_iff.1 hx).1
      exact execWord_answers hactive (List.length_set.trans hlen) v
    · have hwrite := hostWrite_other (v := v) hx hr
      rw [hostWrite, withInst_eq hx] at hwrite
      exact ⟨_, hwrite⟩
  | push k w => exact (onInst k _ fun x _ => answers_next _).imp_right fun ⟨h, hk⟩ => ⟨h, k, rfl, hk⟩
  | read k r => exact (onInst k _ fun x _ => answers_next _).imp_right fun ⟨h, hk⟩ => ⟨h, k, rfl, hk⟩
  | reset k =>
    rw [hostAct, hostReset]
    split
    · next hp => exact .inr ⟨rfl, k, rfl, List.getElem?_eq_none_iff.1 hp⟩
    · exact .inl (answers_next _)
  | systemReset => exact .inl (answers_next _)

/-- Settles O21: a command answers (`exec_answers`), a host action answers or names no instance (`hostAct_answers_or`),
and a wait that no action may end is stuck (`hostActWaiting_stuck`). -/
theorem stepsFailOnlyAsNamed : Obligations.StepsFailOnlyAsNamed := by
  unfold Obligations.StepsFailOnlyAsNamed
  rintro s ⟨hvalid, hlen, -, hwait⟩
  have taken : ∀ a rest, s.host = a :: rest → step s = hostAct a { s with host := rest } →
      (∃ t, step s = .next t) ∨
      (step s = .fault .noSuchInstance ∧ ∃ a k, s.host.head? = some a ∧ a.target = some k ∧ s.cfg.numInst ≤ k) := by
    intro a rest hhost hstep
    rw [hstep, hhost]
    exact (hostAct_answers_or (s := { s with host := rest }) hlen a).imp_right
      fun ⟨h, k, htarget, hk⟩ => ⟨h, a, k, rfl, htarget, hk⟩
  cases hw : s.waiting with
  | none =>
    cases hhost : s.host with
    | nil => exact .inl ⟨s, idleSystemChangesNothing s hvalid hw hhost⟩
    | cons a rest =>
      rw [← hhost]
      exact (taken a rest hhost (step_next ⟨hvalid, hw, hhost⟩)).imp_right .inl
  | some i =>
    obtain ⟨-, x, hx, -, -⟩ := hwait i hw
    by_cases hq : x.extIn.length < wordsFor x.arg1.toNat s.W
    · by_cases hmay : ∃ a rest, s.host = a :: rest ∧ a.MayBeTaken s.active
      · obtain ⟨a, rest, hhost, ha⟩ := hmay
        have hstep := (step_waiting_short hvalid hw hx hq).trans (hostActWaiting_takes hhost ha)
        exact (taken a rest hhost hstep).imp_right .inl
      · push Not at hmay
        exact .inr (.inr ⟨shortWriteBufferIsStuck s i x hvalid hw hx hq hmay, i, x, rfl, hx, hq, hmay⟩)
    · rw [step_waiting_goes_on hvalid hw hx (Nat.le_of_not_lt hq)]
      exact .inl (exec_answers (s := { s with waiting := none }) hx hlen i)

end Sys2Proof.Machine

/-! PROOFS of the family of whole-machine statements, storage: growth, reading back what was written, FLUSH as a reset,
and the commands that store nothing (R45 to R47, R123, R181). -/

namespace Sys2Proof.Machine

/-- Settles O30: the two laws of growth, at each of the three widths. -/
theorem growthFollowsTheDoublingRule : Obligations.GrowthFollowsTheDoublingRule := by
  unfold Obligations.GrowthFollowsTheDoublingRule
  exact fun w capMax cap R hcap =>
    ⟨fun c => grownCapacity_eq_some_iff w.bits_pos hcap, grownCapacity_eq_none_iff w.bits_pos hcap⟩

/-! ### FLUSH -/

/-- Whole words hold their own bits and no more (R7). -/
theorem wordsFor_mul {W : Nat} (hW : 0 < W) (q : Nat) : wordsFor (q * W) W = q := by
  rw [wordsFor, Nat.div_eq_iff hW]
  omega

/-- Settles O51: the store FLUSH leaves (`exec_flush_fits`) is that of a reset, whose hint asks for as many words. -/
theorem flushIsAResetOfTheStore : Obligations.FlushIsAResetOfTheStore := by
  unfold Obligations.FlushIsAResetOfTheStore
  intro s x p hx hfits hp
  have hcap : p.resetCapacity s.W = max 1 x.arg0.toNat := by
    rw [InstConfig.resetCapacity, hp, wordsFor_mul s.W_pos]
    exact Nat.max_eq_right (Nat.le_max_left ..)
  refine ⟨_, exec_flush_fits hx hfits, ?_⟩
  rw [Inst.reset, hcap]
  exact State.endsAs_insts_active (s := s.observe (.flushOut s.active (deliveredWords x))) hx.1 _

/-! ### Reads -/

/-- The operation ends a command, with its instance x as one in which `field` is as it was. -/
def KeepsField {α : Type} (field : Inst → α) (s : State) (x : Inst) (r : Result) : Prop :=
  ∃ z c, field z = field x ∧ r = .next (s.ended z c)

section
variable {α : Type} {field : Inst → α} {s : State} {x : Inst}

theorem keepsField_raise (c : Code) : KeepsField field s x (raise c x s) := ⟨x, c, rfl, rfl⟩

theorem keepsField_complete {z : Inst} (h : field z = field x) : KeepsField field s x (complete z s) :=
  ⟨z, .ok, h, rfl⟩

theorem keepsField_ite {p : Prop} [Decidable p] {a b : Result} (ha : KeepsField field s x a)
    (hb : KeepsField field s x b) : KeepsField field s x (if p then a else b) := by
  split
  · exact ha
  · exact hb

theorem keepsField_command (hx : s.insts[s.active]? = some x) {legal : Bool} {body : Inst → Result}
    (hbody : KeepsField field s x (body x)) : KeepsField field s x (command legal s body) := by
  rw [command, hx]
  exact keepsField_ite (keepsField_raise _) (keepsField_ite hbody (keepsField_raise _))

/-- So after the command the field is as it was, since the end of a command writes STATUS alone. -/
theorem KeepsField.field_eq {r : Result} (h : KeepsField field s x r)
    (hstatus : ∀ z st, field { z with status := st } = field z) {t : State} (ht : r = .next t)
    (hx : s.insts[s.active]? = some x) {y : Inst} (hy : t.insts[s.active]? = some y) : field y = field x := by
  obtain ⟨z, c, hz, rfl⟩ := h
  obtain rfl := Host.Outcome.next.inj ht
  rw [← Option.some.inj ((State.ended_insts_active hx z c).symm.trans hy), hstatus, hz]

/-- The commands that only read write RESULT and the cursor, and no other field (R45). -/
theorem exec_keepsField_of_reads (hx : s.insts[s.active]? = some x)
    (hfield : ∀ z r cur, field { z with result := r, cursor := cur } = field z) {i : Instr}
    (hi : i ∈ [.getBit, .position, .capacityBits] ∨ ∃ n, i = .readWordIdx n ∨ i = .readWordCur n) :
    KeepsField field s x (exec i s) := by
  simp only [List.mem_cons, List.not_mem_nil, or_false] at hi
  rcases hi with (rfl | rfl | rfl) | ⟨n, rfl | rfl⟩
  · exact keepsField_command hx (keepsField_ite (keepsField_raise _) (keepsField_complete (hfield ..)))
  · exact keepsField_command hx (keepsField_complete (hfield ..))
  · exact keepsField_command hx (keepsField_complete (hfield ..))
  · exact keepsField_command hx (keepsField_ite (keepsField_raise _) (keepsField_complete (hfield ..)))
  · exact keepsField_command hx (keepsField_ite (keepsField_raise _) (keepsField_complete (hfield ..)))

/-- SET_BIT and CLEAR_BIT write storage, and no capacity (R46). -/
theorem exec_keeps_capacity_of_bit_write (hx : s.insts[s.active]? = some x) {i : Instr}
    (hi : i = .setBit ∨ i = .clearBit) : KeepsField Inst.capacity s x (exec i s) := by
  rcases hi with rfl | rfl
  · exact keepsField_command hx (keepsField_ite (keepsField_raise _) (keepsField_complete rfl))
  · exact keepsField_command hx (keepsField_ite (keepsField_raise _) (keepsField_complete rfl))

end

/-- Settles O59: the reads keep capacity and storage (`exec_keepsField_of_reads`), the bit writes the capacity. -/
theorem readsNeitherGrowNorStore : Obligations.ReadsNeitherGrowNorStore := by
  unfold Obligations.ReadsNeitherGrowNorStore
  intro i s t x y h hx hy
  refine ⟨fun hi => ?_, fun hi => ?_⟩
  · have hkeeps : KeepsField Inst.capacity s x (exec i s) := by
      by_cases hbit : i = .setBit ∨ i = .clearBit
      · exact exec_keeps_capacity_of_bit_write hx hbit
      · push Not at hbit
        exact exec_keepsField_of_reads hx (fun _ _ _ => rfl) (by simpa [hbit] using hi)
    exact hkeeps.field_eq (fun _ _ => rfl) h hx hy
  · exact (exec_keepsField_of_reads hx (fun _ _ _ => rfl) hi).field_eq (field := Inst.words) (fun _ _ => rfl) h hx hy

/-! ### Reading back a WRITE_WORD -/

/-- The field extracted from where n bits have been replaced is the new bits (R103, R120). -/
theorem extract_of_holds_replaced {W start n : Nat} {m m' : Memory} {d : Reg} (hW0 : 0 < W) (hW : W ≤ 32)
    (h : m'.Holds W (replaced W m start n fun i => d.getLsbD i)) (h1 : 1 ≤ n) (hn : n ≤ W) :
    (extract W m' start n).toNat = d.toNat % 2 ^ n := by
  have ⟨_, hnar, _⟩ := h
  apply Nat.eq_of_testBit_eq
  intro b
  rw [BitVec.testBit_toNat, extract_getLsbD hW0 hW hnar h1 hn, Nat.testBit_mod_two_pow, BitVec.testBit_toNat]
  by_cases hb : b < n
  · rw [h.bit_replaced hb]
  · simp [hb]

/-- Putting the same bits in the same place once more changes no storage (R123). -/
theorem eq_of_holds_replaced_twice {W start n : Nat} {m m' m'' : Memory} {new : Nat → Bool} (hW : 0 < W)
    (h : m'.Holds W (replaced W m start n new)) (h' : m''.Holds W (replaced W m' start n new)) : m'' = m' := by
  obtain ⟨hwf, hnar, hbit⟩ := h
  obtain ⟨hwf', hnar', hbit'⟩ := h'
  refine Memory.eq_of_bit_eq hW hwf' hwf hnar' hnar fun j => ?_
  rw [hbit', replaced, hbit, replaced]
  split_ifs <;> rfl

/-- Both forms of WRITE_WORD where growth completes: they differ in where they leave the cursor (R121, R122). -/
theorem exec_writeWord_grown {s : State} {x : Inst} {n : BitVec 6} {i : Instr} {start c : Nat} (hx : s.Runs x)
    (hwf : x.Wf s.W s.capMax)
    (hi : (i = .writeWordIdx n ∧ start = x.arg0.toNat) ∨ (i = .writeWordCur n ∧ start = x.cursor))
    (h1 : 1 ≤ n.toNat) (hn : n.toNat ≤ s.W) (hc : GrowsTo s.W s.capMax x.capacity (start + n.toNat) c) :
    ∃ m cur, m.Holds s.W (replaced s.W x.words start n.toNat fun i => x.data.getLsbD i) ∧
      exec i s = .next (s.endsAs { x with words := m, capacity := c, cursor := cur, status := endStatus .ok }) := by
  rcases hi with ⟨rfl, rfl⟩ | ⟨rfl, rfl⟩
  · obtain ⟨m, hm, hexec⟩ := writeField_grown (start := Inst.argument0)
      (leave := fun y m => { y with words := m }) hx hwf (fun _ _ => rfl) h1 hn hc
    exact ⟨m, _, hm, hexec⟩
  · obtain ⟨m, hm, hexec⟩ := writeField_grown (start := Inst.cursor)
      (leave := fun y m => { y with words := m, cursor := y.cursor + n.toNat }) hx hwf (fun _ _ => rfl) h1 hn hc
    exact ⟨m, _, hm, hexec⟩

/-- A WRITE_WORD_IDX whose n bits already stand at ARG0 changes no instance that has just ended with OK (R123). -/
theorem exec_writeWordIdx_again {s : State} {x : Inst} {n : BitVec 6} {m : Memory} (hx : s.Runs x)
    (hwf : x.Wf s.W s.capMax) (hok : x.status = endStatus .ok) (h1 : 1 ≤ n.toNat) (hn : n.toNat ≤ s.W)
    (hroom : x.arg0.toNat + n.toNat ≤ x.capacity * s.W)
    (hm : x.words.Holds s.W (replaced s.W m x.arg0.toNat n.toNat fun i => x.data.getLsbD i)) :
    ∃ v, exec (.writeWordIdx n) s = .next v ∧ v.insts = s.insts := by
  obtain ⟨-, hwrite⟩ := writeWordIdxSplicesTheField
  obtain ⟨hgrown, -, -⟩ := hwrite s x n hx hwf
  obtain ⟨m', hm', hexec⟩ := hgrown x.capacity h1 hn (.inl ⟨hroom, rfl⟩)
  obtain rfl := eq_of_holds_replaced_twice s.W_pos hm hm'
  rw [← hok] at hexec
  have hself : s.insts.set s.active x = s.insts := congrArg State.insts (State.setInst_self hx.1)
  exact ⟨_, hexec, hself⟩

/-- Settles O33: the written field reads back (`exec_readWordIdx_at`), and written again it grows to the capacity it has
and leaves the storage there is (`eq_of_holds_replaced_twice`). -/
theorem writeThenReadReturnsTheData : Obligations.WriteThenReadReturnsTheData := by
  unfold Obligations.WriteThenReadReturnsTheData
  intro s x n i start c hx hwf hi h1 hn hc
  obtain ⟨m, cur, hm, hexec⟩ := exec_writeWord_grown hx hwf hi h1 hn hc
  have hactive := State.endsAs_insts_active hx.1
    { x with words := m, capacity := c, cursor := cur, status := endStatus .ok }
  have hwf' := exec_own_wf hexec hx.1 hwf hactive
  obtain ⟨-, -, -, hroom⟩ := storage_of_growsTo hwf hc
  refine ⟨_, _, hexec, hactive, rfl, fun a ha => ?_, fun hidx => ?_⟩
  · obtain ⟨u, z, hread, hz, hok, hresult⟩ := exec_readWordIdx_at (n := n) (a := a) ⟨hactive, rfl⟩ hwf' h1 hn
      (ha ▸ hroom)
    refine ⟨u, z, hread, hz, hok, ?_⟩
    rw [hresult, ha]
    exact extract_of_holds_replaced s.W_pos s.W_le hm h1 hn
  · obtain ⟨-, rfl⟩ := hi.resolve_right fun ⟨hcur, _⟩ => by simp [hidx] at hcur
    rw [hidx]
    exact exec_writeWordIdx_again ⟨hactive, rfl⟩ hwf' rfl h1 hn hroom hm

end Sys2Proof.Machine

/-! PROOFS of the family of whole-machine statements, growth on the write paths: what a write command leaves where it
completes with OK, as a function of contents, cursors, operands and EXT_IN in which no capacity stands (R48). -/

namespace Sys2Proof.Machine

/-! ### Completing with OK -/

/-- From s to t the host has seen the command complete with OK, and nothing else. -/
def CompletesOk (s t : State) : Prop := t.obs = s.obs ++ [.completed s.active .ok]

theorem completesOk_ended_iff {s : State} {x : Inst} {c : Code} : CompletesOk s (s.ended x c) ↔ c = .ok := by
  simp [CompletesOk]

section
variable {s t : State} {x : Inst} (hok : CompletesOk s t)
include hok

theorem CompletesOk.command_body {legal : Bool} {body : Inst → Result} (hx : s.insts[s.active]? = some x)
    (h : command legal s body = .next t) : body x = .next t := by
  obtain ⟨x', hx', hcases⟩ := command_next h
  obtain rfl := Option.some.inj (hx.symm.trans hx')
  rcases hcases with ⟨-, rfl⟩ | ⟨-, -, rfl⟩ | ⟨-, -, h⟩
  · exact absurd (completesOk_ended_iff.1 hok) (by decide)
  · exact absurd (completesOk_ended_iff.1 hok) (by decide)
  · exact h

theorem CompletesOk.growing_body {R : Nat} {body : Inst → Result} (hcap : 1 ≤ x.capacity)
    (h : growing R x s body = .next t) :
    ∃ c, GrowsTo s.W s.capMax x.capacity R c ∧ body { x with capacity := c } = .next t := by
  rcases growing_next h with rfl | ⟨c, hc, h⟩
  · exact absurd (completesOk_ended_iff.1 hok) (by decide)
  · exact ⟨c, (grownCapacity_eq_some_iff s.W_pos hcap).1 hc, h⟩

theorem CompletesOk.popping_body {i : Instr} {q : Nat} {body : List Word → Inst → Result}
    (h : popping i q x s body = .next t) : body (x.extIn.take q) { x with extIn := x.extIn.drop q } = .next t := by
  rcases popping_next h with ⟨-, rfl⟩ | ⟨-, h⟩
  · simp [CompletesOk] at hok
  · exact h

theorem CompletesOk.streamCheck_body {src : BitVec 3} {y : Inst} {start n : Nat} {body : Result}
    (h : streamCheck src y start n x s body = .next t) :
    (n = 0 ∧ t = s.ended x .ok) ∨ (src.toNat ≠ s.active ∧ n ≠ 0 ∧ body = .next t) := by
  rcases streamCheck_next h with ⟨-, rfl⟩ | ⟨-, hn, rfl⟩ | ⟨-, -, -, rfl⟩ | ⟨ha, hn, -, h⟩
  · exact absurd (completesOk_ended_iff.1 hok) (by decide)
  · exact .inl ⟨hn, rfl⟩
  · exact absurd (completesOk_ended_iff.1 hok) (by decide)
  · exact .inr ⟨ha, hn, h⟩

end

/-! ### What a write command leaves -/

theorem bulkWrite_zero (W : Nat) (m : Memory) (start : Nat) (e : List Word) : bulkWrite W m start e 0 = m := by
  simp [bulkWrite, storeWords, spliceWords]

theorem streamCopy_zero (W : Nat) (m src : Memory) (d start : Nat) : streamCopy W m src d start 0 = m := by
  simp [streamCopy, copyWords]

/-- Instance x after the n = ARG2 bits of its source y have been copied to it (R154, R155). -/
def Inst.copied (x : Inst) (f : StreamForm) (W : Nat) (y : Inst) : Inst :=
  { x with
    words := streamCopy W x.words y.words (f.dest x) (f.start x y) x.argument2
    cursor := x.cursor + cursorStep f.advances x.argument2 }

theorem Inst.buffered_zero {x : Inst} {W : Nat} (hW : 0 < W) (hn : x.arg1.toNat = 0) (start : Nat) (advances : Bool) :
    x.buffered W start advances x.capacity = x := by
  have hq : wordsFor 0 W = 0 := by simpa using wordsFor_mul hW 0
  rw [Inst.buffered, Inst.argument1, hn, hq, bulkWrite_zero, List.drop_zero, cursorStep_zero]
  rfl

theorem Inst.copied_zero {x : Inst} (hn : x.arg2.toNat = 0) (f : StreamForm) (W : Nat) (y : Inst) :
    x.copied f W y = x := by
  rw [Inst.copied, Inst.argument2, hn, streamCopy_zero, cursorStep_zero]
  rfl

/-- Instance x after write command i has completed with OK, but for its capacity and STATUS; z is the source of a
WRITE_STREAM. -/
def Inst.written (i : Instr) (W : Nat) (x z : Inst) : Inst :=
  match i with
  | .writeWordIdx n => { x with words := splice W x.words x.argument0 x.data n.toNat }
  | .writeWordCur n =>
    { x with words := splice W x.words x.cursor x.data n.toNat, cursor := x.cursor + n.toNat }
  | .writeBufferIdx => x.buffered W x.argument0 false x.capacity
  | .writeBufferCur => x.buffered W x.cursor true x.capacity
  | .writeStreamII _ => x.copied .indexIndex W z
  | .writeStreamCI _ => x.copied .indexCursor W z
  | .writeStreamCC _ => x.copied .cursorCursor W z
  | _ => x

section
variable {s t : State} {x : Inst}

theorem bufferTransfer_completes {i : Instr} {start : Inst → Nat} {advances : Bool}
    (h : bufferTransfer i start advances s = .next t) (hok : CompletesOk s t) (hx : s.insts[s.active]? = some x)
    (hcap : 1 ≤ x.capacity) :
    ∃ c, (x.arg1.toNat ≠ 0 → GrowsTo s.W s.capMax x.capacity (start x + x.arg1.toNat) c) ∧
      t.insts[s.active]? = some { x.buffered s.W (start x) advances x.capacity with
        capacity := c
        status := x.status.ended .ok } := by
  have h := hok.command_body hx h
  split at h
  · next hn =>
    obtain rfl := Host.Outcome.next.inj h
    rw [Inst.buffered_zero s.W_pos hn]
    exact ⟨x.capacity, fun hne => absurd hn hne, State.ended_insts_active hx x .ok⟩
  · obtain ⟨c, hc, h⟩ := hok.growing_body hcap h
    obtain rfl := Host.Outcome.next.inj (hok.popping_body h)
    exact ⟨c, fun _ => hc, State.ended_insts_active hx _ .ok⟩

theorem StreamForm.transfer_completes {f : StreamForm} {src : BitVec 3} (h : f.transfer src s = .next t)
    (hok : CompletesOk s t) (hx : s.insts[s.active]? = some x) (hcap : 1 ≤ x.capacity) :
    ∃ z c, s.insts[src.toNat]? = some z ∧
      (x.arg2.toNat ≠ 0 → GrowsTo s.W s.capMax x.capacity (f.dest x + x.arg2.toNat) c) ∧
      t.insts[s.active]? = some { x.copied f s.W z with capacity := c, status := x.status.ended .ok } := by
  obtain ⟨z, hz, h⟩ := withSource_next (hok.command_body hx h)
  refine ⟨z, ?_⟩
  rcases hok.streamCheck_body h with ⟨hn, rfl⟩ | ⟨ha, -, h⟩
  · rw [Inst.copied_zero hn]
    exact ⟨x.capacity, hz, fun hne => absurd hn hne, State.ended_insts_active hx x .ok⟩
  · obtain ⟨c, hc, h⟩ := hok.growing_body hcap h
    obtain rfl := Host.Outcome.next.inj h
    exact ⟨c, hz, fun _ => hc, State.ended_insts_active (State.setInst_insts_active ha hx) _ .ok⟩

/-- A write command that completes with OK leaves what `Inst.written` says, with its capacity grown by R47. -/
theorem exec_write_completes {i : Instr} {start n : Nat} (htarget : writeTarget i x = some (start, n))
    (h : exec i s = .next t) (hok : CompletesOk s t) (hx : s.insts[s.active]? = some x) (hcap : 1 ≤ x.capacity) :
    ∃ z c, (∀ src, i ∈ [.writeStreamII src, .writeStreamCI src, .writeStreamCC src] →
        s.insts[src.toNat]? = some z) ∧
      (n ≠ 0 → GrowsTo s.W s.capMax x.capacity (start + n) c) ∧
      t.insts[s.active]? = some { x.written i s.W z with capacity := c, status := x.status.ended .ok } := by
  cases i with
  | writeWordIdx | writeWordCur =>
    cases htarget
    obtain ⟨c, hc, h⟩ := hok.growing_body hcap (hok.command_body hx h)
    obtain rfl := Host.Outcome.next.inj h
    exact ⟨x, c, by simp, fun _ => hc, State.ended_insts_active hx _ .ok⟩
  | writeBufferIdx =>
    cases htarget
    obtain ⟨c, hleft⟩ := bufferTransfer_completes (start := Inst.argument0) (advances := false) h hok hx hcap
    exact ⟨x, c, by simp, hleft⟩
  | writeBufferCur =>
    cases htarget
    obtain ⟨c, hleft⟩ := bufferTransfer_completes (start := Inst.cursor) (advances := true) h hok hx hcap
    exact ⟨x, c, by simp, hleft⟩
  | writeStreamII src =>
    cases htarget
    obtain ⟨z, c, hz, hleft⟩ := StreamForm.transfer_completes (exec_writeStreamII src s ▸ h) hok hx hcap
    exact ⟨z, c, by simpa using hz, hleft⟩
  | writeStreamCI src =>
    cases htarget
    obtain ⟨z, c, hz, hleft⟩ := StreamForm.transfer_completes (exec_writeStreamCI src s ▸ h) hok hx hcap
    exact ⟨z, c, by simpa using hz, hleft⟩
  | writeStreamCC src =>
    cases htarget
    obtain ⟨z, c, hz, hleft⟩ := StreamForm.transfer_completes (exec_writeStreamCC src s ▸ h) hok hx hcap
    exact ⟨z, c, by simpa using hz, hleft⟩
  | _ => cases htarget

end

/-- What is written depends on the contents, the cursors, the operands and EXT_IN alone (R48). -/
theorem written_congr {i : Instr} {W : Nat} {x x' z z' : Inst} (hwords : x'.words = x.words)
    (hcursor : x'.cursor = x.cursor) (hext : x'.extIn = x.extIn) (harg0 : x'.arg0 = x.arg0) (harg1 : x'.arg1 = x.arg1)
    (harg2 : x'.arg2 = x.arg2) (hdata : x'.data = x.data)
    (hsource : ∀ src, i ∈ [.writeStreamII src, .writeStreamCI src, .writeStreamCC src] →
      z'.words = z.words ∧ z'.cursor = z.cursor) :
    (x'.written i W z').words = (x.written i W z).words ∧ (x'.written i W z').cursor = (x.written i W z).cursor ∧
      (x'.written i W z').extIn = (x.written i W z).extIn := by
  have hargument0 : x'.argument0 = x.argument0 := congrArg BitVec.toNat harg0
  have hargument1 : x'.argument1 = x.argument1 := congrArg BitVec.toNat harg1
  have hargument2 : x'.argument2 = x.argument2 := congrArg BitVec.toNat harg2
  cases i with
  | writeStreamII src | writeStreamCI src | writeStreamCC src =>
    obtain ⟨hzwords, hzcursor⟩ := hsource src (by simp)
    simp [Inst.written, Inst.copied, StreamForm.indexIndex, StreamForm.indexCursor, StreamForm.cursorCursor, *]
  | _ => simp [Inst.written, Inst.buffered, *]

/-- Settles O34: both runs leave what `Inst.written` says (`exec_write_completes`), where no capacity stands
(`written_congr`). -/
theorem growthDoesNotShowInTheBits : Obligations.GrowthDoesNotShowInTheBits := by
  unfold Obligations.GrowthDoesNotShowInTheBits
  intro s s' t t' x x' y y' i start n htarget hx hx' hwidth hcap hcap' hwords hcursor hext harg0 harg1 harg2 hdata
    hsource h hok hy h' hok' hy'
  have htarget' : writeTarget i x' = some (start, n) := by
    rw [← htarget]
    cases i <;> simp [writeTarget, *]
  have hW : s'.W = s.W := congrArg Width.bits hwidth
  obtain ⟨z, c, hz, hc, hleft⟩ := exec_write_completes htarget h hok hx hcap
  obtain ⟨z', c', hz', hc', hleft'⟩ := exec_write_completes htarget' h' hok' hx' hcap'
  obtain rfl := Option.some.inj (hleft.symm.trans hy)
  obtain rfl := Option.some.inj (hleft'.symm.trans hy')
  rw [hW]
  obtain ⟨hwords', hcursor', hext'⟩ := written_congr (W := s.W) hwords hcursor hext harg0 harg1 harg2 hdata
    fun src hi => hsource src z z' hi (hz src hi) (hz' src hi)
  exact ⟨hwords', hcursor', hext', fun hn => ⟨hc hn, hW ▸ hc' hn⟩⟩

end Sys2Proof.Machine

/-! PROOFS of the family of whole-machine statements, operands: a command is the same from two states that differ in an
operand register it does not name, operation by operation (R65). -/

namespace Sys2Proof.Machine

/-- `other` is what `r` is, but for register reg of instance k, which holds v: both answer a next state, or both stop
with the same fault. -/
def SameBut (reg : HostReg) (v : Reg) (k : Nat) (r other : Result) : Prop :=
  (∀ t, r = .next t → ∃ y, t.insts[k]? = some y ∧ other = .next (t.setInst k (y.writeReg reg v))) ∧
  ∀ f, r = .fault f → other = .fault f

theorem sameBut_next {reg : HostReg} {v : Reg} {k : Nat} {t : State} {y : Inst} (hy : t.insts[k]? = some y) :
    SameBut reg v k (.next t) (.next (t.setInst k (y.writeReg reg v))) := by
  refine ⟨fun t' ht => ?_, nofun⟩
  obtain rfl := Host.Outcome.next.inj ht
  exact ⟨y, hy, rfl⟩

section
variable {reg : HostReg} {v : Reg}

theorem sameBut_ite {k : Nat} {p : Prop} [Decidable p] {a a' b b' : Result} (ha : SameBut reg v k a a')
    (hb : SameBut reg v k b b') : SameBut reg v k (if p then a else b) (if p then a' else b') := by
  split
  · exact ha
  · exact hb

/-- Ending a command writes the executing instance as a whole, so it is the same from two states that differ there
alone. -/
theorem sameBut_ended {s : State} {x : Inst} (hx : s.insts[s.active]? = some x) (w z : Inst) (c : Code) :
    SameBut reg v s.active (.next (s.ended z c)) (.next ((s.setInst s.active w).ended (z.writeReg reg v) c)) := by
  have hsame : (s.setInst s.active w).ended (z.writeReg reg v) c =
      (s.ended z c).setInst s.active (Inst.writeReg { z with status := z.status.ended c } reg v) := by
    cases reg <;> simp [State.ended, State.setInst, State.observe, Inst.writeReg]
  rw [hsame]
  exact sameBut_next (State.ended_insts_active hx z c)

@[simp] theorem Inst.writeReg_extIn (x : Inst) (r : HostReg) (u : Reg) : (x.writeReg r u).extIn = x.extIn := by
  cases r <;> rfl

section
variable {s : State} {x : Inst} (hx : s.insts[s.active]? = some x)
include hx

theorem sameBut_raise (c : Code) (w : Inst) :
    SameBut reg v s.active (raise c x s) (raise c (x.writeReg reg v) (s.setInst s.active w)) :=
  sameBut_ended hx w x c

theorem sameBut_complete (w z : Inst) :
    SameBut reg v s.active (complete z s) (complete (z.writeReg reg v) (s.setInst s.active w)) :=
  sameBut_ended hx w z .ok

theorem sameBut_command {legal : Bool} {body body' : Inst → Result}
    (hbody : SameBut reg v s.active (body x) (body' (x.writeReg reg v))) :
    SameBut reg v s.active (command legal s body)
      (command legal (s.setInst s.active (x.writeReg reg v)) body') := by
  have hx' : (s.setInst s.active (x.writeReg reg v)).insts[(s.setInst s.active (x.writeReg reg v)).active]? =
      some (x.writeReg reg v) := State.endsAs_insts_active hx _
  rw [command, hx, command, hx']
  dsimp only
  rw [Inst.writeReg_status]
  exact sameBut_ite (sameBut_raise hx _ _) (sameBut_ite hbody (sameBut_raise hx _ _))

theorem sameBut_growing (R : Nat) (w : Inst) {body body' : Inst → Result}
    (hbody : ∀ c, SameBut reg v s.active (body { x with capacity := c })
      (body' { x.writeReg reg v with capacity := c })) :
    SameBut reg v s.active (growing R x s body) (growing R (x.writeReg reg v) (s.setInst s.active w) body') := by
  rw [growing, growing, Inst.writeReg_capacity, State.setInst_W, State.setInst_capMax]
  split
  · exact sameBut_raise hx _ _
  · exact hbody _

theorem sameBut_popping (i : Instr) (q : Nat) (z : Inst) {body body' : List Word → Inst → Result}
    (hbody : ∀ e rest, SameBut reg v s.active (body e { z with extIn := rest })
      (body' e { z.writeReg reg v with extIn := rest })) :
    SameBut reg v s.active (popping i q z s body)
      (popping i q (z.writeReg reg v) (s.setInst s.active (x.writeReg reg v)) body') := by
  rw [popping, popping, Inst.writeReg_extIn]
  exact sameBut_ite (sameBut_next (t := { s with waiting := some i }) hx) (hbody _ _)

/-- The source is the same instance, unless it is the executing one (R150). -/
theorem sameBut_withSource {src : BitVec 3} {w : Inst} {body body' : Inst → Result}
    (hother : src.toNat ≠ s.active → ∀ y, SameBut reg v s.active (body y) (body' y))
    (hself : src.toNat = s.active → ∀ y y', SameBut reg v s.active (body y) (body' y')) :
    SameBut reg v s.active (withSource src s body) (withSource src (s.setInst s.active w) body') := by
  by_cases ha : src.toNat = s.active
  · have hy : s.insts[sourceOf src]? = some x := by rwa [sourceOf, ha]
    have hy' : (s.setInst s.active w).insts[sourceOf src]? = some w := by
      rw [sourceOf, ha]
      exact State.endsAs_insts_active hx w
    rw [withSource_eq hy, withSource_eq hy']
    exact hself ha _ _
  · have hsame : (s.setInst s.active w).insts[sourceOf src]? = s.insts[sourceOf src]? :=
      List.getElem?_set_ne (Ne.symm ha)
    rw [withSource, withSource, hsame]
    split
    · exact ⟨nofun, fun f hf => hf⟩
    · exact hother ha _

theorem sameBut_streamCheck (src : BitVec 3) (y : Inst) (start n : Nat) (w : Inst) {body body' : Result}
    (hbody : SameBut reg v s.active body body') :
    SameBut reg v s.active (streamCheck src y start n x s body)
      (streamCheck src y start n (x.writeReg reg v) (s.setInst s.active w) body') :=
  sameBut_ite (sameBut_raise hx _ _) <| sameBut_ite (sameBut_complete hx _ _) <|
    sameBut_ite (sameBut_raise hx _ _) hbody

theorem sameBut_aliased {src : BitVec 3} (ha : src.toNat = s.active) (y y' : Inst) (start start' n n' : Nat)
    (w : Inst) (body body' : Result) :
    SameBut reg v s.active (streamCheck src y start n x s body)
      (streamCheck src y' start' n' (x.writeReg reg v) (s.setInst s.active w) body') := by
  rw [streamCheck_aliased ha, streamCheck_aliased (s := s.setInst s.active w) ha]
  exact sameBut_raise hx _ _

/-- Replacing the source commutes with the register's other value, since it is another instance. -/
theorem sameBut_complete_source {k : Nat} (hk : k ≠ s.active) (y w z : Inst) :
    SameBut reg v s.active (complete z (s.setInst k y))
      (complete (z.writeReg reg v) ((s.setInst s.active w).setInst k y)) := by
  have hcomm : (s.setInst s.active w).setInst k y = (s.setInst k y).setInst s.active w := by
    rw [State.setInst, State.setInst_insts, List.set_comm _ _ hk.symm]
    rfl
  rw [hcomm]
  exact sameBut_complete (State.setInst_insts_active hk hx) w z

/-- With another value in a register it does not name a command does the same (R65): of the four registers `cases hread`
drops those the command names, and for each other its two runs are made of the same operations. -/
theorem exec_sameBut {i : Instr} (hreg : reg ∈ [.arg0, .arg1, .arg2, .data]) (hread : readsOperand i reg = false) :
    SameBut reg v s.active (exec i s) (exec i (s.setInst s.active (x.writeReg reg v))) := by
  simp only [List.mem_cons, List.not_mem_nil, or_false] at hreg
  cases i with
  | getBit | setBit | clearBit | readWordIdx | readWordCur | doubleCapacity =>
    rcases hreg with rfl | rfl | rfl | rfl <;> cases hread <;>
      exact sameBut_command hx (sameBut_ite (sameBut_raise hx _ _) (sameBut_complete hx _ _))
  | advance | retreat | seek | position | capacityBits =>
    rcases hreg with rfl | rfl | rfl | rfl <;> cases hread <;>
      exact sameBut_command hx (sameBut_complete hx _ _)
  | flush =>
    rcases hreg with rfl | rfl | rfl | rfl <;> cases hread <;>
      exact sameBut_command hx (sameBut_ite (sameBut_raise hx _ _)
        (sameBut_complete (s := s.observe (.flushOut s.active (deliveredWords x))) hx _ _))
  | writeWordIdx | writeWordCur =>
    rcases hreg with rfl | rfl | rfl | rfl <;> cases hread <;>
      exact sameBut_command hx (sameBut_growing hx _ _ fun c => sameBut_complete hx _ _)
  | writeBufferIdx | writeBufferCur =>
    rcases hreg with rfl | rfl | rfl | rfl <;> cases hread <;>
      exact sameBut_command hx (sameBut_ite (sameBut_complete hx _ _)
        (sameBut_growing hx _ _ fun c => sameBut_popping hx _ _ _ fun e rest => sameBut_complete hx _ _))
  | writeStreamII | writeStreamCI =>
    rcases hreg with rfl | rfl | rfl | rfl <;> cases hread <;>
      exact sameBut_command hx (sameBut_withSource hx
        (fun ha y => sameBut_streamCheck hx _ _ _ _ _ (sameBut_growing hx _ _ fun c => sameBut_complete hx _ _))
        (fun ha y y' => sameBut_aliased hx ha _ _ _ _ _ _ _ _ _))
  | writeStreamCC =>
    rcases hreg with rfl | rfl | rfl | rfl <;> cases hread <;>
      exact sameBut_command hx (sameBut_withSource hx
        (fun ha y => sameBut_streamCheck hx _ _ _ _ _
          (sameBut_growing hx _ _ fun c => sameBut_complete_source hx ha _ _ _))
        (fun ha y y' => sameBut_aliased hx ha _ _ _ _ _ _ _ _ _))

end

end

/-- Settles O58: `SameBut` says of the two runs what R65 does. -/
theorem unnamedOperandsHaveNoEffect : Obligations.UnnamedOperandsHaveNoEffect := by
  unfold Obligations.UnnamedOperandsHaveNoEffect
  intro i s x r v hx hr hread
  exact exec_sameBut hx hr hread

end Sys2Proof.Machine
